-- ==== Sys2Proof/Word.lean ====
section
/-! DEFINITION. The widths of the machine's words (00_scope.md R12, R13): registers and bus addresses are 32 bits,
geometry fields 16, pixel bytes 8. -/

namespace Sys2Proof

/-- A register, a bus address or a command word: 32 bits (R12). -/
abbrev Word := BitVec 32

/-- A 16-bit register or field (R33, R108). -/
abbrev Half := BitVec 16

/-- A byte of system memory: eight pixels, bit 7 the leftmost (R13). -/
abbrev Byte := BitVec 8

end Sys2Proof
end

