-- ==== Sys2Proof/Config.lean ====
section
/-! DEFINITION. What an implementation or its platform fixes (the OPEN parameters of 92_eei_decisions.md D5, the
platform's answers to bus transactions) and the free values of 93_implementation_defined.md. Every constant marked
opaque has no body: no proof can see its value. -/

namespace Sys2Proof

/-- The parameters of one block (R8, R9, R12). No step changes them (log 2). -/
structure Params where
  /-- `P_COLUMNS`, the destination width in pixels, 1..65535 (R8). -/
  columns : Half
  /-- `P_ROWS`, the destination height in rows, 1..65535 (R9). -/
  rows : Half
  /-- `P_REG_BASE`, the bus address of the register window (R12). -/
  regBase : Word
  deriving DecidableEq, Repr

/-- The range R8 and R9 give the parameters. -/
abbrev Params.wf (p : Params) : Prop := 1 ≤ p.columns.toNat ∧ 1 ≤ p.rows.toNat

/-- How the platform answers a bus transaction of the engine: it performs it, it answers with a bus error (R89), or it
never answers (R129, 93 S6). -/
inductive BusAnswer where
  | ok
  | error
  | never
  deriving DecidableEq, Repr

/-- The two transactions an engine issues (R15). -/
inductive BusKind where
  | read
  | write
  deriving DecidableEq, Repr

/-- One region of the platform's bus map: `size` byte addresses from `base`, and its answers (log 1). -/
structure BusRegion where
  base : Nat
  size : Nat
  onRead : BusAnswer
  onWrite : BusAnswer
  deriving DecidableEq, Repr

/-- `P_COLUMNS - 1`: the spec leaves `P_COLUMNS` open in 1..65535 (D5). -/
opaque Config.columnsPred : Fin 65535

/-- `P_ROWS - 1`: the spec leaves `P_ROWS` open in 1..65535 (D5). -/
opaque Config.rowsPred : Fin 65535

/-- `P_REG_BASE`, the platform's choice (D5). -/
opaque Config.regBase : Word

/-- The parameters of the block the machine is reset as (log 2). -/
def Config.params : Params where
  columns := BitVec.ofNat 16 (Config.columnsPred.val + 1)
  rows := BitVec.ofNat 16 (Config.rowsPred.val + 1)
  regBase := Config.regBase

/-- The platform's answers at reset: the block fixes no address map (R89, log 1). -/
opaque Config.platform : List BusRegion

/-- The free values (93 S1 to S5, S7): the `n`-th draw of a run (log 6). -/
opaque Config.draw : Nat → Word

end Sys2Proof
end

