-- ==== Sys2Proof/Machine/State.lean ====
section
/-! DEFINITION. The state of the machine as plain data: the block's registers (10_state.md R30), the engine's progress
(40_command_control.md R128), system memory (20_memory.md R80), the parameters and the platform's answers, the host's
steps still to come; and the state after reset (70_reset_and_hazards.md R230). -/

namespace Sys2Proof.Machine

/-- The host-written registers 0x0C and 0x18 to 0x3C. -/
structure ConfigRegs where
  /-- CTRL bit 0 (R37). -/
  unit32 : Bool
  /-- CTRL bit 1 (R38). -/
  irqEn : Bool
  /-- R46. -/
  srcBase : Word
  /-- R47. -/
  srcWidth : Half
  /-- R48. -/
  srcHeight : Half
  /-- R49. -/
  srcStride : Half
  /-- R50. -/
  vOff : Half
  /-- R51. -/
  dstBase : Word
  /-- R52. -/
  scaleFx : Word
  /-- R53. -/
  offsetFx : Word
  /-- R54. -/
  scaleF32 : Word
  /-- R55. -/
  offsetF32 : Word
  deriving DecidableEq, Repr

/-- STATUS (0x10), R39 to R44. -/
structure Status where
  /-- Bit 0 (R39). -/
  busy : Bool
  /-- Bit 1 (R40). -/
  done : Bool
  /-- Bit 2 (R41). -/
  err : Bool
  /-- Bit 3 (R42). -/
  rowActive : Bool
  /-- Bit 4 (R43). -/
  ovr : Bool
  /-- Bits [11:8] (R44). -/
  errCode : BitVec 4
  deriving DecidableEq, Repr

/-- The row state, registers 0x40 to 0x70 (R56 to R68). -/
structure RowRegs where
  /-- R56. -/
  curByte : Half
  /-- R57. -/
  curBit : BitVec 3
  /-- R58. -/
  curFrac : Word
  /-- R59. -/
  acc : Word
  /-- R60. -/
  wCount : BitVec 6
  /-- R61. -/
  unitIdx : Half
  /-- R62. -/
  srcByte : Byte
  /-- R63. -/
  rowY : Half
  /-- R64. -/
  srcRowIdx : Half
  /-- R65. -/
  lSrcRow : Word
  /-- R66. -/
  lDstRow : Word
  /-- L_CFG bits [15:0] (R67). -/
  lStride : Half
  /-- L_CFG bit 16 (R67). -/
  lUnit32 : Bool
  /-- R68. -/
  lScale : Word
  deriving DecidableEq, Repr

/-- The registers the two conversion commands write (R142, R144). -/
inductive CvtTarget where
  | scaleFx
  | offsetFx
  deriving DecidableEq, Repr

/-- How far the engine is with its command (R122, R127, R128; log 13). -/
inductive Engine where
  /-- No accepted command. -/
  | idle
  /-- A command word is accepted and not yet dispatched (R120). -/
  | accepted (w : Word)
  /-- Inside the sample loop of ROW_FINISH or ROW_RUN (R168, R170). -/
  | sampling
  /-- The command body has ended, completion is next (R127). After a conversion: the register it wrote and the value
  that register held before (93 S2, log 14). -/
  | completing (cvt : Option (CvtTarget × Word))
  /-- A bus transaction is never answered (R129, 93 S6; log 7). -/
  | hung
  deriving DecidableEq, Repr

/-- System memory: the bytes that are not what an unlisted address reads as, by rising address. -/
structure Memory where
  cells : List Host.Cell
  deriving DecidableEq, Repr

/-- One unit the running command has issued a store of: its address, its bytes before, and its bytes after where the
store is performed (log 8, log 9). -/
structure StoredUnit where
  addr : Word
  old : List Byte
  new : List Byte
  deriving DecidableEq, Repr

/-- The width of a host's register access (R31). -/
inductive AccessSize where
  | byte
  | halfword
  | word
  deriving DecidableEq, Repr

/-- One step of the world outside the block (R239). -/
inductive HostAction where
  /-- A read of the register window at a bus address (R31). -/
  | regRead (addr : Word) (size : AccessSize)
  /-- A write of the register window at a bus address (R31). -/
  | regWrite (addr : Word) (size : AccessSize) (v : Word)
  /-- The host reads `n` bytes of system memory at rising addresses in one access. -/
  | memRead (addr : Word) (n : Nat)
  /-- The host writes bytes of system memory at rising addresses in one access. -/
  | memWrite (addr : Word) (vs : List Byte)
  /-- WAIT: STATUS is read until BUSY = 0 (R110). -/
  | wait
  /-- The reset input (R230): between two engine steps, or in the middle of the next one (R231, log 10). -/
  | reset (midStep : Bool)
  /-- The platform answers bus transactions as this map says from now on (log 1). -/
  | platform (map : List BusRegion)
  deriving DecidableEq, Repr

/-- A host step and how many turns of the engine pass before it (R128, log 4). -/
structure HostStep where
  delay : Nat
  act : HostAction
  deriving DecidableEq, Repr

/-- What the last host step was answered (log 15). -/
inductive Reply where
  /-- Nothing yet. -/
  | none
  /-- A register's value. -/
  | data (w : Word)
  /-- Bytes of system memory, lowest address first. -/
  | bytes (bs : List Byte)
  /-- A write was taken by the bus. -/
  | done
  /-- A bus error (R31). -/
  | busError
  deriving DecidableEq, Repr

/-- The machine. -/
structure State where
  /-- `P_COLUMNS`, `P_ROWS`, `P_REG_BASE`, constant (log 2). -/
  par : Params
  /-- CTRL and the configuration registers. -/
  cfg : ConfigRegs
  /-- STATUS. -/
  status : Status
  /-- The row-state registers. -/
  row : RowRegs
  /-- The engine's progress. -/
  engine : Engine
  /-- System memory. -/
  mem : Memory
  /-- The platform's answers to the engine's transactions. -/
  platform : List BusRegion
  /-- The model's own: bytes the host wrote while BUSY = 1, newest first, each with its value before (log 8). -/
  raced : List Host.Cell
  /-- The model's own: the units the running command has issued a store of, newest first (log 8, log 9). -/
  stored : List StoredUnit
  /-- The model's own: how many free values have been drawn (log 6). -/
  draws : Nat
  /-- The host's steps still to come, next first (log 4). -/
  host : List HostStep
  /-- What the last host step was answered (log 15). -/
  reply : Reply
  deriving DecidableEq, Repr

/-- The host-written registers at reset: CTRL = 0x00000001, the rest 0 (R230). -/
def ConfigRegs.reset : ConfigRegs where
  unit32 := true
  irqEn := false
  srcBase := 0
  srcWidth := 0
  srcHeight := 0
  srcStride := 0
  vOff := 0
  dstBase := 0
  scaleFx := 0
  offsetFx := 0
  scaleF32 := 0
  offsetF32 := 0

/-- STATUS = 0 at reset (R230). -/
def Status.reset : Status where
  busy := false
  done := false
  err := false
  rowActive := false
  ovr := false
  errCode := 0

/-- The row-state registers are 0 at reset (R230). -/
def RowRegs.reset : RowRegs where
  curByte := 0
  curBit := 0
  curFrac := 0
  acc := 0
  wCount := 0
  unitIdx := 0
  srcByte := 0
  rowY := 0
  srcRowIdx := 0
  lSrcRow := 0
  lDstRow := 0
  lStride := 0
  lUnit32 := false
  lScale := 0

/-- The machine right after power-on reset (R230): registers at their reset values, the engine idle, memory with nothing
listed (log 3), no host step pending (log 4). -/
def State.reset : State where
  par := Config.params
  cfg := ConfigRegs.reset
  status := Status.reset
  row := RowRegs.reset
  engine := .idle
  mem := ⟨[]⟩
  platform := Config.platform
  raced := []
  stored := []
  draws := 0
  host := []
  reply := .none

/-- Why a step stops with a fault. NOTHING DOES: the block raises no trap (R200), an error completes its command with
STATUS.ERR set, a bus error towards the host is a reply (R31), and an unanswered transaction leaves the engine waiting
(R129). So the type has no constructor. -/
inductive Fault where
  deriving DecidableEq, Repr

/-- Why an instruction has no meaning. No arm of exec answers with it: every command has its meaning. -/
inductive Refusal where
  /-- An instruction of the table that is not modelled, by its mnemonic. Raised by no arm now. Safe: the model stops. -/
  | notModelled (mnemonic : String)
  deriving DecidableEq, Repr

end Sys2Proof.Machine
end

