-- ==== Sys2Proof/Machine/Flags.lean ====
section
/-! DEFINITION. STATUS, CTRL and L_CFG as the words software reads, the write-one-to-clear write of STATUS, the error
codes, and the interrupt output. -/

namespace Sys2Proof.Machine

/-- The error codes of R201. -/
inductive ErrCode where
  | opcode
  | row
  | geom
  | scale
  | align
  | range
  | noRow
  | bus
  deriving DecidableEq, Repr

/-- The number of an error code (R201); 0 means no error. -/
def ErrCode.number : ErrCode → BitVec 4
  | .opcode => 1
  | .row => 2
  | .geom => 3
  | .scale => 4
  | .align => 5
  | .range => 6
  | .noRow => 7
  | .bus => 8

/-- STATUS as a word: BUSY bit 0, DONE bit 1, ERR bit 2, ROW_ACTIVE bit 3, OVR bit 4, ERRCODE bits [11:8], the rest 0
(R39 to R44). -/
def Status.word (t : Status) : Word :=
  BitVec.ofNat 32 (t.busy.toNat + 2 * t.done.toNat + 4 * t.err.toNat + 8 * t.rowActive.toNat + 16 * t.ovr.toNat
    + 256 * t.errCode.toNat)

/-- A host write of `v` to STATUS: W1C of DONE, ERR (with ERRCODE) and OVR, nothing else (R40, R41, R43, R44, R207). -/
def Status.clear (t : Status) (v : Word) : Status :=
  { t with
    done := t.done && !v.getLsbD 1
    err := t.err && !v.getLsbD 2
    errCode := if v.getLsbD 2 then 0 else t.errCode
    ovr := t.ovr && !v.getLsbD 4 }

/-- Recording an error: the first code since ERR was cleared is kept (R205). -/
def Status.raise (t : Status) (code : ErrCode) : Status :=
  { t with
    errCode := if t.err then t.errCode else code.number
    err := true }

/-- CTRL as a word (R37, R38). -/
def ConfigRegs.ctrlWord (c : ConfigRegs) : Word := BitVec.ofNat 32 (c.unit32.toNat + 2 * c.irqEn.toNat)

/-- L_CFG as a word (R67). -/
def RowRegs.lCfgWord (r : RowRegs) : Word := BitVec.ofNat 32 (r.lStride.toNat + 65536 * r.lUnit32.toNat)

/-- The interrupt output: `CTRL.IRQ_EN ∧ (STATUS.DONE ∨ STATUS.ERR)` at every instant (R210). -/
def State.irq (s : State) : Bool := s.cfg.irqEn && (s.status.done || s.status.err)

end Sys2Proof.Machine
end

