-- ==== Sys2Proof/Machine/Operands.lean ====
section
/-! DEFINITION. The operand formats of 30_encoding.md R105 to R108 and the shared functions of
41_fixed_point_scaler.md R140, R141, R146, and the sizes of a destination row (00_scope.md R10, R11). Arithmetic is on
mathematical integers and narrowed where a register is written (R14). -/

namespace Sys2Proof.Machine

/-- `P_ROWSIZE = 4 * ceil(P_COLUMNS / 32)` (R10). -/
def rowSize (p : Params) : Nat := 4 * ((p.columns.toNat + 31) / 32)

/-- `NSAMPLES = 8 * P_ROWSIZE` (R11). -/
def numSamples (p : Params) : Nat := 8 * rowSize p

/-- The unit width N that `L_UNIT32` or `UNIT32` selects (R37, R67). -/
def unitBits (unit32 : Bool) : Nat := if unit32 then 32 else 8

/-- `N / 8`, the bytes of a unit. -/
def unitBytes (unit32 : Bool) : Nat := unitBits unit32 / 8

/-- `NUNITS(N) = P_ROWSIZE / (N/8)` (R11). -/
def numUnits (p : Params) (unit32 : Bool) : Nat := rowSize p / unitBytes unit32

/-- The largest accepted scale, 0xFFFF0000 (R143). -/
def maxScale : Nat := 0xFFFF0000

/-- The class of a binary32 pattern (R107, R140). -/
inductive F32Class where
  | finite
  | infinite
  | nan
  deriving DecidableEq, Repr

/-- `DecodeF32`'s answer: the class, the sign bit, and `M`, `k` with `|value| × 2^16 = M × 2^k` (R140). -/
structure F32Parts where
  cls : F32Class
  neg : Bool
  mag : Nat
  exp : Int
  deriving DecidableEq, Repr

/-- `DecodeF32(w)` (R140; the layout is R107's). -/
def decodeF32 (w : Word) : F32Parts :=
  let neg := w.getLsbD 31
  let e : Nat := w.toNat / 2 ^ 23 % 256
  let f : Nat := w.toNat % 2 ^ 23
  if e = 255 then { cls := if f = 0 then .infinite else .nan, neg, mag := 0, exp := 0 }
  else if e = 0 then { cls := .finite, neg, mag := f, exp := -133 }
  else { cls := .finite, neg, mag := 2 ^ 23 + f, exp := (e : Int) - 134 }

/-- `TruncMag(M, k)`: the floor of `M × 2^k` (R141). -/
def truncMag (m : Nat) (k : Int) : Nat :=
  if 0 ≤ k then m * 2 ^ k.toNat else m / 2 ^ (-k).toNat

/-- `RoundMag(M, k)`: `M × 2^k` to the nearest integer, ties away from zero (R141). -/
def roundMag (m : Nat) (k : Int) : Nat :=
  if 0 ≤ k then m * 2 ^ k.toNat else (m + 2 ^ ((-k).toNat - 1)) / 2 ^ (-k).toNat

/-- What CVT_SCALE writes, none where it raises ERR_SCALE (R142). -/
def scaleOfF32 (w : Word) : Option Word :=
  let p := decodeF32 w
  if p.cls ≠ .finite ∨ p.neg = true ∨ p.mag = 0 then none
  else
    let r := roundMag p.mag p.exp
    if r < 1 ∨ maxScale < r then none else some (BitVec.ofNat 32 r)

/-- What CVT_OFFSET writes, none where it raises ERR_RANGE (R144). -/
def offsetOfF32 (w : Word) : Option Word :=
  let p := decodeF32 w
  if p.cls ≠ .finite then none
  else
    let m : Int := truncMag p.mag p.exp
    let t := if p.neg then -m else m
    if t < -2 ^ 31 ∨ 2 ^ 31 - 1 < t then none else some (BitVec.ofInt 32 t)

/-- `WrapSplit`'s answer: the first position in the source row (R146). -/
structure Cursor where
  byteOffset : Nat
  bitOffset : Nat
  fracFixed : Nat
  deriving DecidableEq, Repr

/-- `WrapSplit(X, width)`: the floor modulo of the signed 16.16 offset by the row width, split (R146). -/
def wrapSplit (x : Word) (width : Nat) : Cursor :=
  let r := (x.toInt % ((width * 65536 : Nat) : Int)).toNat
  let intPart := r / 65536
  { byteOffset := intPart / 8, bitOffset := intPart % 8, fracFixed := r % 65536 }

end Sys2Proof.Machine
end

