-- ==== Sys2Proof/Machine/Ops.lean ====
section
/-! DEFINITION. The named operations every meaning is written over: memory in its canonical form, the engine's bus
transactions (00_scope.md R15), free values, raising an error and clearing it (60_exceptions.md R205, R207), acceptance
and completion of a command (40_command_control.md R120, R127). -/

namespace Sys2Proof.Machine

/-! ### System memory -/

/-- What an address that memory does not list reads as (log 3). -/
def Memory.unwritten : Byte := 0

/-- The byte listed at an address, or `Memory.unwritten`. -/
def Memory.readCells : List Host.Cell → Nat → Byte
  | [], _ => Memory.unwritten
  | c :: cs, a => if a = c.1 then c.2 else Memory.readCells cs a

/-- The cells after a write: kept in rising order, a byte equal to `Memory.unwritten` is not listed. -/
def Memory.writeCells : List Host.Cell → Nat → Byte → List Host.Cell
  | [], a, v => if v = Memory.unwritten then [] else [(a, v)]
  | c :: cs, a, v =>
    if a < c.1 then if v = Memory.unwritten then c :: cs else (a, v) :: c :: cs
    else if a = c.1 then if v = Memory.unwritten then cs else (a, v) :: cs
    else c :: Memory.writeCells cs a v

/-- One byte of memory (R80). -/
def Memory.read (m : Memory) (a : Word) : Byte := Memory.readCells m.cells a.toNat

/-- Memory with one byte written. -/
def Memory.write (m : Memory) (a : Word) (v : Byte) : Memory := ⟨Memory.writeCells m.cells a.toNat v⟩

/-- Memory with bytes written at rising addresses from `a`, modulo 2^32 (R12, R15). -/
def Memory.writeList (m : Memory) (a : Word) : List Byte → Memory
  | [] => m
  | v :: vs => (m.write a v).writeList (a + 1) vs

/-- `n` bytes of memory at rising addresses from `a`, modulo 2^32. -/
def Memory.readList (m : Memory) (a : Word) : Nat → List Byte
  | 0 => []
  | n + 1 => m.read a :: m.readList (a + 1) n

/-- The canonical form: addresses strictly rising and below 2^32, no byte listed that an unlisted address reads as. -/
abbrev Memory.wf (m : Memory) : Prop :=
  m.cells.Pairwise (fun c d => c.1 < d.1) ∧ ∀ c ∈ m.cells, c.1 < 2 ^ 32 ∧ c.2 ≠ Memory.unwritten

/-! ### Free values (log 6) -/

/-- One bit of the `n`-th free value: which of two values an open choice takes. -/
def drawBit (n : Nat) : Bool := (Config.draw n).getLsbD 0

/-- The `n`-th free value as a byte. -/
def drawByte (n : Nat) : Byte := (Config.draw n).setWidth 8

/-- The state after one free value is used. -/
def State.drawn (s : State) : State := { s with draws := s.draws + 1 }

/-! ### The engine's bus transactions -/

/-- The region lists the address. -/
def BusRegion.covers (r : BusRegion) (a : Word) : Bool := decide (r.base ≤ a.toNat ∧ a.toNat < r.base + r.size)

/-- A region's answer to a kind of transaction. -/
def BusRegion.answer (r : BusRegion) : BusKind → BusAnswer
  | .read => r.onRead
  | .write => r.onWrite

/-- The platform's answer to a transaction of `n` bytes at `a`: that of the first region with one of its bytes, and the
transaction is performed where there is none (R89, log 1). -/
def State.busAnswer (s : State) (kind : BusKind) (a : Word) (n : Nat) : BusAnswer :=
  match s.platform.find? fun r => (List.range n).any fun k => BusRegion.covers r (a + BitVec.ofNat 32 k) with
  | some r => BusRegion.answer r kind
  | none => .ok

/-- What an engine read of `a` sees where memory holds `cur`: each write the host raced at `a` may or may not be seen
(R240, 93 S5, log 8). Answers the byte and the draws used so far. -/
def seenByte (cur : Byte) (draws : Nat) (a : Nat) : List Host.Cell → Byte × Nat
  | [] => (cur, draws)
  | c :: cs =>
    if c.1 = a then if drawBit draws then seenByte c.2 (draws + 1) a cs else (cur, draws + 1)
    else seenByte cur draws a cs

/-- The byte a performed `MemRead(a, 1)` returns. -/
def State.seen (s : State) (a : Word) : Byte := (seenByte (s.mem.read a) s.draws a.toNat s.raced).1

/-- The state after a performed `MemRead(a, 1)`: only free values are used up. -/
def State.afterRead (s : State) (a : Word) : State :=
  { s with draws := (seenByte (s.mem.read a) s.draws a.toNat s.raced).2 }

/-- The host has written the byte while this command runs. -/
def State.isRaced (s : State) (a : Word) : Bool := s.raced.any fun c => c.1 == a.toNat

/-- One byte of a performed store; where the host raced it, the host's value may stand (R240, 93 S5, log 8). -/
def State.storeByte (s : State) (a : Word) (v : Byte) : State :=
  if s.isRaced a then
    { s with
      draws := s.draws + 1
      mem := if drawBit s.draws then s.mem else s.mem.write a v }
  else { s with mem := s.mem.write a v }

/-- The bytes of a performed `MemWrite` at rising addresses (R15). -/
def State.storeBytes (s : State) (a : Word) : List Byte → State
  | [] => s
  | v :: vs => (s.storeByte a v).storeBytes (a + 1) vs

/-- The command has issued a store of a unit: until the command completes, host accesses to it race (log 8, log 9). -/
def State.noteUnit (s : State) (u : StoredUnit) : State := { s with stored := u :: s.stored }

/-- `n` bytes from `a` take any value: a store that failed or was cut off (93 S3, S7; log 10, log 18). -/
def State.scramble (s : State) (a : Word) : Nat → State
  | 0 => s
  | n + 1 => State.scramble { s with mem := s.mem.write a (drawByte s.draws), draws := s.draws + 1 } (a + 1) n

/-! ### The command lifecycle -/

/-- Acceptance of the word `w` (R120). ERR, ERRCODE and OVR keep their values. -/
def State.accept (s : State) (w : Word) : State :=
  { s with
    status := { s.status with busy := true, done := false }
    engine := .accepted w }

/-- The command body has ended without an error; completion is the engine's next step (R128). -/
def State.endBody (s : State) : State := { s with engine := .completing none }

/-- `raise Error(code)`: the first code is kept, ERR is set, the command body ends (R205). THE one way an error is taken. -/
def State.raiseError (s : State) (code : ErrCode) : State :=
  { s with
    status := s.status.raise code
    engine := .completing none }

/-- The return from an error: the host's W1C write of STATUS (R207). Nothing else is restored. -/
def State.clearStatus (s : State) (v : Word) : State := { s with status := s.status.clear v }

/-- A bus error of a row command: `ROW_ACTIVE <- 0`, then `raise Error(ERR_BUS)` (R206). -/
def State.raiseBusError (s : State) : State :=
  State.raiseError { s with status := { s.status with rowActive := false } } .bus

/-- A transaction the platform never answers: the engine makes no progress, BUSY stays 1 (R129, 93 S6, log 7). -/
def State.hang (s : State) : State := { s with engine := .hung }

/-- `Complete()`: BUSY 0, DONE 1 (R127). Every store of the command is performed and visible (R91), and with BUSY = 0 no
host access races any more (log 8, log 9). -/
def State.complete (s : State) : State :=
  { s with
    status := { s.status with busy := false, done := true }
    engine := .idle
    raced := []
    stored := [] }

/-- A command body, or a part of one: it goes on, or it has ended (an error was raised, or the engine waits for ever).
"`raise` ends the command body" (R205). -/
inductive Body where
  | goes (s : State)
  | ends (s : State)
  deriving DecidableEq, Repr

/-- The next part of a body runs only where the one before it goes on. -/
def Body.andThen (b : Body) (f : State → Body) : Body :=
  match b with
  | .goes s => f s
  | .ends s => .ends s

end Sys2Proof.Machine
end

