-- ==== Sys2Proof/Machine/Control.lean ====
section
/-! DEFINITION. Command control: NOP (40_command_control.md R121) and the dispatch of an illegal word (R103, R122). -/

namespace Sys2Proof.Machine

/-- The first engine step of NOP: nothing, then completion is next (R121, R128). -/
def beginNop (s : State) : State := s.endBody

/-- The meaning of NOP (R121): nothing, then completion. -/
def execNop (s : State) : Host.Outcome State Fault Refusal := .next (beginNop s).complete

/-- The one engine step of an ERR_OPCODE dispatch (R122, R128). -/
def beginIllegal (s : State) : State := s.raiseError .opcode

/-- An accepted illegal word, run to completion: ERR_OPCODE and the lifecycle, nothing else (R103). -/
def runIllegal (s : State) : State := (beginIllegal s).complete

end Sys2Proof.Machine
end

