-- ==== Sys2Proof/Machine/Packer.lean ====
section
/-! DEFINITION. The bit accumulator and packer (43_bit_packer.md R180 to R184). It has no command of its own: the sample
step calls it once per sample. -/

namespace Sys2Proof.Machine

/-- The width N of the active row's units (R67). -/
def RowRegs.unitBits (r : RowRegs) : Nat := Machine.unitBits r.lUnit32

/-- The bytes of one of the active row's units. -/
def RowRegs.unitBytes (r : RowRegs) : Nat := Machine.unitBytes r.lUnit32

/-- The address of the unit at the write cursor: `(L_DST_ROW + UNIT_IDX × (N/8)) mod 2^32` (R182). -/
def RowRegs.unitAddr (r : RowRegs) : Word := r.lDstRow + BitVec.ofNat 32 (r.unitIdx.toNat * r.unitBytes)

/-- The bytes a flush stores, lowest address first; with N = 32 byte-order corrected (R182, R183). -/
def RowRegs.unitData (r : RowRegs) : List Byte :=
  if r.lUnit32 then
    [r.acc.extractLsb' 24 8, r.acc.extractLsb' 16 8, r.acc.extractLsb' 8 8, r.acc.extractLsb' 0 8]
  else [r.acc.extractLsb' 0 8]

/-- Steps 4c and 4d of `PackBit`: the bit goes to ACC position `N − 1 − WCOUNT` and is counted (R180, R181). -/
def RowRegs.append (r : RowRegs) (bit : Bool) : RowRegs :=
  { r with
    acc := r.acc ||| BitVec.ofNat 32 bit.toNat <<< (r.unitBits - 1 - r.wCount.toNat)
    wCount := r.wCount + 1 }

/-- The row registers after a performed flush (R182). -/
def RowRegs.flushed (r : RowRegs) : RowRegs := { r with unitIdx := r.unitIdx + 1, acc := 0, wCount := 0 }

/-- `RowDoneCheck()`: the row ends on the flush of its last unit (R184). -/
def rowDoneCheck (s : State) : State :=
  if s.row.unitIdx.toNat = numUnits s.par s.row.lUnit32 then
    { s with status := { s.status with rowActive := false } }
  else s

/-- The unit at the write cursor, as a flush stores it. -/
def State.cursorUnit (s : State) : StoredUnit where
  addr := s.row.unitAddr
  old := s.mem.readList s.row.unitAddr s.row.unitBytes
  new := s.row.unitData

/-- A flush whose store was performed (R182). -/
def flushDone (s : State) : State :=
  rowDoneCheck { (s.noteUnit s.cursorUnit).storeBytes s.row.unitAddr s.row.unitData with row := s.row.flushed }

/-- A flush whose store answered with a bus error: the unit's bytes take any value (93 S3, log 18), and until completion a
host write to one of them races with the failed store (log 20). -/
def flushFailed (s : State) : State :=
  let t := s.scramble s.row.unitAddr s.row.unitBytes
  (t.noteUnit { s.cursorUnit with new := t.mem.readList s.row.unitAddr s.row.unitBytes }).raiseBusError

/-- A flush whose store is never answered. DESIGN CHOICE: by one free choice the store has changed its unit, whole, or has
not; a host read while BUSY = 1 sees either (log 19). -/
def flushHung (s : State) : State :=
  let t := (s.noteUnit s.cursorUnit).drawn
  (if drawBit s.draws then t.storeBytes s.row.unitAddr s.row.unitData else t).hang

/-- `FlushUnit()` (R182): one store; on a bus error ACC, WCOUNT and UNIT_IDX keep their values. -/
def flushUnit (s : State) : Body :=
  match s.busAnswer .write s.row.unitAddr s.row.unitBytes with
  | .ok => .goes (flushDone s)
  | .error => .ends (flushFailed s)
  | .never => .ends (flushHung s)

/-- `PackBit(bit)` (R181). -/
def packBit (bit : Bool) (s : State) : Body :=
  let t := { s with row := s.row.append bit }
  if t.row.wCount.toNat = t.row.unitBits then flushUnit t else .goes t

end Sys2Proof.Machine
end

