-- ==== Sys2Proof/Machine/Resampler.lean ====
section
/-! DEFINITION. The scanline resampler (42_scanline_resampler.md R160 to R170): the row checks, the setup of a row, the
sample step, and the first engine step of ROW_SETUP, SAMPLE, ROW_FINISH and ROW_RUN. -/

namespace Sys2Proof.Machine

/-- The geometry a row command refuses (R162, ERR_GEOM). -/
def badGeometry (c : ConfigRegs) : Bool :=
  decide (c.srcWidth.toNat = 0 ∨ c.srcWidth.toNat % 8 ≠ 0 ∨ c.srcHeight.toNat = 0 ∨ c.srcStride.toNat = 0
    ∨ c.srcStride.toNat < c.srcWidth.toNat / 8)

/-- The scale a row command refuses (R143, R162, ERR_SCALE). -/
def badScale (c : ConfigRegs) : Bool := decide (c.scaleFx.toNat = 0 ∨ maxScale < c.scaleFx.toNat)

/-- The destination address a row command refuses (R162, ERR_ALIGN). -/
def badAlign (c : ConfigRegs) : Bool := c.unit32 && decide (c.dstBase.toNat % 4 ≠ 0)

/-- `RowChecks(y)`: the first error that applies (R162, R202). -/
def rowChecks (p : Params) (c : ConfigRegs) (y : Nat) : Option ErrCode :=
  if p.rows.toNat ≤ y then some .row
  else if badGeometry c then some .geom
  else if badScale c then some .scale
  else if badAlign c then some .align
  else none

/-- `y_src = (VOFF + y) mod SRC_HEIGHT` (R160, R161). -/
def sourceRow (c : ConfigRegs) (y : Nat) : Nat := (c.vOff.toNat + y) % c.srcHeight.toNat

/-- The row registers ROW_SETUP writes before its read; SRC_BYTE is left as it is (R160). -/
def latchRow (p : Params) (c : ConfigRegs) (y : Nat) (r : RowRegs) : RowRegs :=
  let cur := wrapSplit c.offsetFx c.srcWidth.toNat
  { r with
    rowY := BitVec.ofNat 16 y
    srcRowIdx := BitVec.ofNat 16 (sourceRow c y)
    lSrcRow := BitVec.ofNat 32 (c.srcBase.toNat + sourceRow c y * c.srcStride.toNat)
    lDstRow := BitVec.ofNat 32 (c.dstBase.toNat + y * rowSize p)
    lStride := c.srcStride
    lUnit32 := c.unit32
    lScale := c.scaleFx
    curByte := BitVec.ofNat 16 cur.byteOffset
    curBit := BitVec.ofNat 3 cur.bitOffset
    curFrac := BitVec.ofNat 32 cur.fracFixed
    acc := 0
    wCount := 0
    unitIdx := 0 }

/-- The address of the cursor's source byte, `L_SRC_ROW + CUR_BYTE` (R164, R165). -/
def RowRegs.srcAddr (r : RowRegs) : Word := r.lSrcRow + r.curByte.setWidth 32

/-- A performed load of the cursor's byte into SRC_BYTE (R62). -/
def loadDone (s : State) : State :=
  { s.afterRead s.row.srcAddr with row := { s.row with srcByte := s.seen s.row.srcAddr } }

/-- `SRC_BYTE <- MemRead(L_SRC_ROW + CUR_BYTE, 1)`; on a bus error SRC_BYTE keeps its value (R164, R165, R206). -/
def loadSrcByte (s : State) : Body :=
  match s.busAnswer .read s.row.srcAddr 1 with
  | .ok => .goes (loadDone s)
  | .error => .ends s.raiseBusError
  | .never => .ends s.hang

/-- The body of ROW_SETUP after its checks (R160). -/
def setupRow (y : Nat) (s : State) : Body :=
  (loadSrcByte { s with row := latchRow s.par s.cfg y s.row }).andThen fun t =>
    .goes { t with status := { t.status with rowActive := true } }

/-- The body of ROW_SETUP, which ROW_RUN starts with; a failed check changes nothing but STATUS (R160, R163). -/
def rowSetupBody (y : Nat) (s : State) : Body :=
  match rowChecks s.par s.cfg y with
  | some code => .ends (s.raiseError code)
  | none => setupRow y s

/-- Step 4a's whole pixels, `t = CUR_BIT + (CUR_FRAC >> 16)` (R165). -/
def RowRegs.advance (r : RowRegs) : Nat := r.curBit.toNat + r.curFrac.toNat / 65536

/-- Step 4a, the registers: the whole pixels move into the cursor, CUR_BYTE wraps modulo L_STRIDE (R165, R167). -/
def RowRegs.moved (r : RowRegs) : RowRegs :=
  if r.advance < 8 then
    { r with
      curFrac := BitVec.ofNat 32 (r.curFrac.toNat % 65536)
      curBit := BitVec.ofNat 3 r.advance }
  else
    { r with
      curFrac := BitVec.ofNat 32 (r.curFrac.toNat % 65536)
      curByte := BitVec.ofNat 16 ((r.curByte.toNat + r.advance / 8) % r.lStride.toNat)
      curBit := BitVec.ofNat 3 (r.advance % 8) }

/-- Step 4a: no move while `CUR_FRAC < 0x10000`, a reload exactly on a byte carry (R165, R167). -/
def advanceCursor (s : State) : Body :=
  if s.row.curFrac.toNat < 65536 then .goes s
  else if s.row.advance < 8 then .goes { s with row := s.row.moved }
  else loadSrcByte { s with row := s.row.moved }

/-- Step 4b: the source bit, `SRC_BYTE[7 − CUR_BIT]` (R165). -/
def RowRegs.srcBit (r : RowRegs) : Bool := r.srcByte.getLsbD (7 - r.curBit.toNat)

/-- Step 4e: `CUR_FRAC <- CUR_FRAC + L_SCALE` (R148, R165). -/
def addScale (s : State) : State := { s with row := { s.row with curFrac := s.row.curFrac + s.row.lScale } }

/-- `SampleStep()`: steps 4a to 4e; what comes after a raise is not performed (R165). -/
def sampleStep (s : State) : Body :=
  (advanceCursor s).andThen fun a => (packBit a.row.srcBit a).andThen fun b => .goes (addScale b)

/-- Where the engine goes after a sample step of a loop: `while STATUS.ROW_ACTIVE == 1` (R168, R170). -/
def loopOrEnd (s : State) : State := if s.status.rowActive then { s with engine := .sampling } else s.endBody

/-- One engine step of ROW_FINISH's and ROW_RUN's loop (R128). -/
def loopStep (s : State) : State :=
  match sampleStep s with
  | .goes t => loopOrEnd t
  | .ends t => t

/-- The first engine step of ROW_SETUP (R128, R160). -/
def beginRowSetup (y : Nat) (s : State) : State :=
  match rowSetupBody y s with
  | .goes t => t.endBody
  | .ends t => t

/-- The first engine step of SAMPLE (R128, R166). -/
def beginSample (s : State) : State :=
  if s.status.rowActive then
    match sampleStep s with
    | .goes t => t.endBody
    | .ends t => t
  else s.raiseError .noRow

/-- The first engine step of ROW_FINISH: the check and the first sample step (R128, R129, R168). -/
def beginRowFinish (s : State) : State := if s.status.rowActive then loopStep s else s.raiseError .noRow

/-- The first engine step of ROW_RUN: the checks and the setup (R128, R170). A raise ends the command: an older row is
not continued. -/
def beginRowRun (y : Nat) (s : State) : State :=
  match rowSetupBody y s with
  | .goes t => loopOrEnd t
  | .ends t => t

/-- The engine's next step of a command that has begun: a sample step of the loop, or completion (R127, R128). -/
def continueStep (s : State) : State :=
  match s.engine with
  | .sampling => loopStep s
  | .completing _ => s.complete
  | .idle => s
  | .accepted _ => s
  | .hung => s

/-- `n` further engine steps of a command that has begun. -/
def continueFor : Nat → State → State
  | 0, s => s
  | n + 1, s => continueFor n (continueStep s)

/-- The meaning of ROW_SETUP y (R160 to R164): its body, then completion. -/
def execRowSetup (y : Nat) (s : State) : Host.Outcome State Fault Refusal :=
  .next (continueFor 1 (beginRowSetup y s))

/-- The meaning of SAMPLE (R166): its body, then completion. -/
def execSample (s : State) : Host.Outcome State Fault Refusal := .next (continueFor 1 (beginSample s))

/-- The meaning of ROW_FINISH (R168): its loop, then completion, within the bound of R129 (log 17). -/
def execRowFinish (s : State) : Host.Outcome State Fault Refusal :=
  .next (continueFor (numSamples s.par) (beginRowFinish s))

/-- The meaning of ROW_RUN y (R170): setup, its loop, then completion, within the bound of R129 (log 17). -/
def execRowRun (y : Nat) (s : State) : Host.Outcome State Fault Refusal :=
  .next (continueFor (numSamples s.par + 1) (beginRowRun y s))

end Sys2Proof.Machine
end

