-- ==== Sys2Proof/Machine/Scaler.lean ====
section
/-! DEFINITION. The fixed-point scaler's commands CVT_SCALE and CVT_OFFSET (41_fixed_point_scaler.md R142, R144). -/

namespace Sys2Proof.Machine

/-- The first engine step of CVT_SCALE (R128, R142). The value SCALE_FX held before stays with the engine until
completion, for reads in between (93 S2, log 14). -/
def beginCvtScale (s : State) : State :=
  match scaleOfF32 s.cfg.scaleF32 with
  | some v =>
    { s with
      cfg := { s.cfg with scaleFx := v }
      engine := .completing (some (.scaleFx, s.cfg.scaleFx)) }
  | none => s.raiseError .scale

/-- The first engine step of CVT_OFFSET (R128, R144). -/
def beginCvtOffset (s : State) : State :=
  match offsetOfF32 s.cfg.offsetF32 with
  | some v =>
    { s with
      cfg := { s.cfg with offsetFx := v }
      engine := .completing (some (.offsetFx, s.cfg.offsetFx)) }
  | none => s.raiseError .range

/-- The meaning of CVT_SCALE (R142): its body, then completion. -/
def execCvtScale (s : State) : Host.Outcome State Fault Refusal := .next (beginCvtScale s).complete

/-- The meaning of CVT_OFFSET (R144): its body, then completion. -/
def execCvtOffset (s : State) : Host.Outcome State Fault Refusal := .next (beginCvtOffset s).complete

end Sys2Proof.Machine
end

