-- ==== Sys2Proof/Syntax.lean ====
section
/-! DEFINITION. The commands of the CMD register (30_encoding.md R102): one constructor per row of
spec/opcode_table.json. -/

namespace Sys2Proof

/-- A command. ROW is an operand of ROW_SETUP and ROW_RUN only; the other commands ignore it (R104, log 12). -/
inductive Instr where
  /-- NOP, OP = 0x0 (R121). -/
  | nop
  /-- CVT_SCALE, OP = 0x1 (R142). -/
  | cvtScale
  /-- CVT_OFFSET, OP = 0x2 (R144). -/
  | cvtOffset
  /-- ROW_SETUP y, OP = 0x3 (R160). -/
  | rowSetup (y : Nat)
  /-- SAMPLE, OP = 0x4 (R166). -/
  | sample
  /-- ROW_FINISH, OP = 0x5 (R168). -/
  | rowFinish
  /-- ROW_RUN y, OP = 0x6 (R170). -/
  | rowRun (y : Nat)
  deriving DecidableEq, Repr

end Sys2Proof
end

