-- ==== Sys2Proof/Machine/Dispatch.lean ====
section
/-! DEFINITION. The meaning of every command: its body and its completion, with no host step in between. -/

namespace Sys2Proof.Machine

def exec (i : Instr) (s : State) : Host.Outcome State Fault Refusal :=
  match i with
  | .nop => Sys2Proof.Machine.execNop s
  | .cvtScale => Sys2Proof.Machine.execCvtScale s
  | .cvtOffset => Sys2Proof.Machine.execCvtOffset s
  | .rowSetup y => Sys2Proof.Machine.execRowSetup y s
  | .sample => Sys2Proof.Machine.execSample s
  | .rowFinish => Sys2Proof.Machine.execRowFinish s
  | .rowRun y => Sys2Proof.Machine.execRowRun y s

end Sys2Proof.Machine
end

