-- ==== Sys2Proof/WellFormed.lean ====
section
/-! DEFINITION. Which commands a command word can hold: the ROW field is an unsigned 16-bit number (R104). -/

namespace Sys2Proof

/-- The ROW operand fits its 16-bit field (R100, R104). A command without one is well formed as it stands. -/
def Instr.wellFormed : Instr → Bool
  | .nop => true
  | .cvtScale => true
  | .cvtOffset => true
  | .rowSetup y => decide (y < 2 ^ 16)
  | .sample => true
  | .rowFinish => true
  | .rowRun y => decide (y < 2 ^ 16)

/-- `Instr.wellFormed` as a proposition. -/
abbrev Instr.WellFormed (i : Instr) : Prop := i.wellFormed = true

end Sys2Proof
end

