-- ==== Sys2Proof/Decode.lean ====
section
/-! DEFINITION. The command word (30_encoding.md R100 to R104): its three fields, the decoder, the encoder, and the
disassembly of R109. -/

namespace Sys2Proof

/-- OP, bits [3:0] (R100). -/
def opField (w : Word) : BitVec 4 := w.extractLsb' 0 4

/-- RSVD, bits [15:4] (R100). -/
def rsvdField (w : Word) : BitVec 12 := w.extractLsb' 4 12

/-- ROW, bits [31:16] (R100). -/
def rowField (w : Word) : Half := w.extractLsb' 16 16

/-- Why a word is illegal (R103). -/
inductive DecodeError where
  /-- RSVD is not 0. -/
  | reservedBits
  /-- OP is one of 0x7..0xF. -/
  | reservedOpcode
  deriving DecidableEq, Repr

/-- The command a word stands for; RSVD is checked first, then OP alone selects (R101, R102, R103). -/
def decode (w : Word) : Except DecodeError Instr :=
  if rsvdField w ≠ 0 then .error .reservedBits
  else
    match (opField w).toNat with
    | 0 => .ok .nop
    | 1 => .ok .cvtScale
    | 2 => .ok .cvtOffset
    | 3 => .ok (.rowSetup (rowField w).toNat)
    | 4 => .ok .sample
    | 5 => .ok .rowFinish
    | 6 => .ok (.rowRun (rowField w).toNat)
    | _ => .error .reservedOpcode

/-- The operation code of a command (R102). -/
def Instr.op : Instr → Nat
  | .nop => 0
  | .cvtScale => 1
  | .cvtOffset => 2
  | .rowSetup _ => 3
  | .sample => 4
  | .rowFinish => 5
  | .rowRun _ => 6

/-- The row of a command; 0 where the command has none (R109: `<row>` defaults to 0). -/
def Instr.row : Instr → Nat
  | .nop => 0
  | .cvtScale => 0
  | .cvtOffset => 0
  | .rowSetup y => y
  | .sample => 0
  | .rowFinish => 0
  | .rowRun y => y

/-- `word = (ROW << 16) | OP` (R100). -/
def encode (i : Instr) : Word := BitVec.ofNat 32 i.row <<< 16 ||| BitVec.ofNat 32 i.op

/-- The command your decoder reads from a table word of `nbits` bits, higher bits 0. A command is one 32-bit word that
arrives as a register write, so there is no byte order to undo (R94, R101). -/
def decodeTableWord (nbits w : Nat) : Option Instr :=
  (decode (BitVec.ofNat 32 (w % 2 ^ nbits))).toOption

/-- The mnemonic of R102. -/
def Instr.mnemonic : Instr → String
  | .nop => "NOP"
  | .cvtScale => "CVT_SCALE"
  | .cvtOffset => "CVT_OFFSET"
  | .rowSetup _ => "ROW_SETUP"
  | .sample => "SAMPLE"
  | .rowFinish => "ROW_FINISH"
  | .rowRun _ => "ROW_RUN"

/-- A word as eight hexadecimal digits, most significant first. -/
def hexDigits (w : Word) : String :=
  String.ofList ((List.range 8).map fun k => Nat.digitChar (w.toNat / 16 ^ (7 - k) % 16))

/-- The disassembly of R109: the mnemonic, the row for ROW_SETUP and ROW_RUN, `.word 0x<hex>` for an illegal word. -/
def disassemble (w : Word) : String :=
  match decode w with
  | .ok (.rowSetup y) => "ROW_SETUP " ++ toString y
  | .ok (.rowRun y) => "ROW_RUN " ++ toString y
  | .ok i => i.mnemonic
  | .error _ => ".word 0x" ++ hexDigits w

end Sys2Proof
end

