-- ==== Sys2Proof/Machine/Engine.lean ====
section
/-! DEFINITION. The engine as atomic steps, between any two of which a host step may come (40_command_control.md R122,
R128, R129). -/

namespace Sys2Proof.Machine

/-- The first engine step of a command: `Dispatch` (R122) up to what R128 counts as one step. -/
def beginInstr (i : Instr) (s : State) : State :=
  match i with
  | .nop => beginNop s
  | .cvtScale => beginCvtScale s
  | .cvtOffset => beginCvtOffset s
  | .rowSetup y => beginRowSetup y s
  | .sample => beginSample s
  | .rowFinish => beginRowFinish s
  | .rowRun y => beginRowRun y s

/-- The first engine step of an accepted word (R122). -/
def dispatchWord (w : Word) (s : State) : State :=
  match decode w with
  | .ok i => beginInstr i s
  | .error _ => beginIllegal s

/-- One atomic engine step (R128); an idle engine takes none. -/
def engineStep (s : State) : State :=
  match s.engine with
  | .accepted w => dispatchWord w s
  | .idle => continueStep s
  | .sampling => continueStep s
  | .completing _ => continueStep s
  | .hung => continueStep s

/-- `n` engine steps with no host step between them. -/
def engineSteps : Nat → State → State
  | 0, s => s
  | n + 1, s => engineSteps n (engineStep s)

/-- The most engine steps a command takes to its completion when every transaction is answered (R129). -/
def stepBound (p : Params) : Instr → Nat
  | .nop => 2
  | .cvtScale => 2
  | .cvtOffset => 2
  | .rowSetup _ => 2
  | .sample => 2
  | .rowFinish => numSamples p + 1
  | .rowRun _ => numSamples p + 2

end Sys2Proof.Machine
end

