-- ==== Sys2Proof/Machine/Registers.lean ====
section
/-! DEFINITION. The register window (10_state.md R30 to R68) and the host's accesses to it: reads and writes while idle
and while a command runs (40_command_control.md R123 to R126), refused accesses (R31, R32). -/

namespace Sys2Proof.Machine

/-- The registers of R30's table. -/
inductive Reg where
  | id
  | info
  | info2
  | ctrl
  | status
  | cmd
  | srcBase
  | srcWidth
  | srcHeight
  | srcStride
  | vOff
  | dstBase
  | scaleFx
  | offsetFx
  | scaleF32
  | offsetF32
  | curByte
  | curBit
  | curFrac
  | acc
  | wCount
  | unitIdx
  | srcByte
  | rowY
  | srcRowIdx
  | lSrcRow
  | lDstRow
  | lCfg
  | lScale
  deriving DecidableEq, Repr

/-- The access column of R30's table. -/
inductive Access where
  | ro
  | rw
  | wo
  /-- STATUS: read-only bits and write-one-to-clear bits. -/
  | w1c
  deriving DecidableEq, Repr

/-- The offset column of R30's table. -/
def Reg.offset : Reg → Nat
  | .id => 0x00
  | .info => 0x04
  | .info2 => 0x08
  | .ctrl => 0x0C
  | .status => 0x10
  | .cmd => 0x14
  | .srcBase => 0x18
  | .srcWidth => 0x1C
  | .srcHeight => 0x20
  | .srcStride => 0x24
  | .vOff => 0x28
  | .dstBase => 0x2C
  | .scaleFx => 0x30
  | .offsetFx => 0x34
  | .scaleF32 => 0x38
  | .offsetF32 => 0x3C
  | .curByte => 0x40
  | .curBit => 0x44
  | .curFrac => 0x48
  | .acc => 0x4C
  | .wCount => 0x50
  | .unitIdx => 0x54
  | .srcByte => 0x58
  | .rowY => 0x5C
  | .srcRowIdx => 0x60
  | .lSrcRow => 0x64
  | .lDstRow => 0x68
  | .lCfg => 0x6C
  | .lScale => 0x70

/-- The register at an offset; none at a reserved or misaligned one (R30, R32). -/
def Reg.atOffset : Nat → Option Reg
  | 0x00 => some .id
  | 0x04 => some .info
  | 0x08 => some .info2
  | 0x0C => some .ctrl
  | 0x10 => some .status
  | 0x14 => some .cmd
  | 0x18 => some .srcBase
  | 0x1C => some .srcWidth
  | 0x20 => some .srcHeight
  | 0x24 => some .srcStride
  | 0x28 => some .vOff
  | 0x2C => some .dstBase
  | 0x30 => some .scaleFx
  | 0x34 => some .offsetFx
  | 0x38 => some .scaleF32
  | 0x3C => some .offsetF32
  | 0x40 => some .curByte
  | 0x44 => some .curBit
  | 0x48 => some .curFrac
  | 0x4C => some .acc
  | 0x50 => some .wCount
  | 0x54 => some .unitIdx
  | 0x58 => some .srcByte
  | 0x5C => some .rowY
  | 0x60 => some .srcRowIdx
  | 0x64 => some .lSrcRow
  | 0x68 => some .lDstRow
  | 0x6C => some .lCfg
  | 0x70 => some .lScale
  | _ => none

/-- The access column of R30's table. -/
def Reg.access (r : Reg) : Access :=
  if r = .status then .w1c
  else if r = .cmd then .wo
  else if r = .ctrl ∨ (0x18 ≤ r.offset ∧ r.offset ≤ 0x3C) then .rw
  else .ro

/-- The "width used" column of R30's table; higher bits are reserved (R33). CMD reads 0 and takes all 32 bits. -/
def Reg.width : Reg → Nat
  | .id => 32
  | .info => 32
  | .info2 => 16
  | .ctrl => 2
  | .status => 12
  | .cmd => 32
  | .srcBase => 32
  | .srcWidth => 16
  | .srcHeight => 16
  | .srcStride => 16
  | .vOff => 16
  | .dstBase => 32
  | .scaleFx => 32
  | .offsetFx => 32
  | .scaleF32 => 32
  | .offsetF32 => 32
  | .curByte => 16
  | .curBit => 3
  | .curFrac => 32
  | .acc => 32
  | .wCount => 6
  | .unitIdx => 16
  | .srcByte => 8
  | .rowY => 16
  | .srcRowIdx => 16
  | .lSrcRow => 32
  | .lDstRow => 32
  | .lCfg => 17
  | .lScale => 32

/-- The row-state registers, 0x40 to 0x70 (R125). -/
def Reg.isRowState (r : Reg) : Bool := decide (0x40 ≤ r.offset)

/-- The value the rules of 10_state.md give a register in this state (R33 to R68, R126); CMD reads 0 (R45). -/
def State.regValue (s : State) : Reg → Word
  | .id => 0x1B5C0001
  | .info => BitVec.ofNat 32 (65536 * s.par.rows.toNat + s.par.columns.toNat)
  | .info2 => BitVec.ofNat 32 (rowSize s.par)
  | .ctrl => s.cfg.ctrlWord
  | .status => s.status.word
  | .cmd => 0
  | .srcBase => s.cfg.srcBase
  | .srcWidth => s.cfg.srcWidth.setWidth 32
  | .srcHeight => s.cfg.srcHeight.setWidth 32
  | .srcStride => s.cfg.srcStride.setWidth 32
  | .vOff => s.cfg.vOff.setWidth 32
  | .dstBase => s.cfg.dstBase
  | .scaleFx => s.cfg.scaleFx
  | .offsetFx => s.cfg.offsetFx
  | .scaleF32 => s.cfg.scaleF32
  | .offsetF32 => s.cfg.offsetF32
  | .curByte => s.row.curByte.setWidth 32
  | .curBit => s.row.curBit.setWidth 32
  | .curFrac => s.row.curFrac
  | .acc => s.row.acc
  | .wCount => s.row.wCount.setWidth 32
  | .unitIdx => s.row.unitIdx.setWidth 32
  | .srcByte => s.row.srcByte.setWidth 32
  | .rowY => s.row.rowY.setWidth 32
  | .srcRowIdx => s.row.srcRowIdx.setWidth 32
  | .lSrcRow => s.row.lSrcRow
  | .lDstRow => s.row.lDstRow
  | .lCfg => s.row.lCfgWord
  | .lScale => s.row.lScale

/-- A host write of an RW register, truncated to the register's width; nothing for any other register (R32, R33, R123). -/
def ConfigRegs.write (c : ConfigRegs) (v : Word) : Reg → ConfigRegs
  | .ctrl => { c with unit32 := v.getLsbD 0, irqEn := v.getLsbD 1 }
  | .srcBase => { c with srcBase := v }
  | .srcWidth => { c with srcWidth := v.setWidth 16 }
  | .srcHeight => { c with srcHeight := v.setWidth 16 }
  | .srcStride => { c with srcStride := v.setWidth 16 }
  | .vOff => { c with vOff := v.setWidth 16 }
  | .dstBase => { c with dstBase := v }
  | .scaleFx => { c with scaleFx := v }
  | .offsetFx => { c with offsetFx := v }
  | .scaleF32 => { c with scaleF32 := v }
  | .offsetF32 => { c with offsetF32 := v }
  | _ => c

/-- A write of `v` to a register (R32, R44, R120, R123, R124). -/
def State.regWrite (s : State) (r : Reg) (v : Word) : State :=
  match r.access with
  | .w1c => s.clearStatus v
  | .wo => if s.status.busy then { s with status := { s.status with ovr := true } } else s.accept v
  | .rw =>
    if s.status.busy then { s with status := { s.status with ovr := true } }
    else { s with cfg := s.cfg.write v r }
  | .ro => s

/-- The command the engine has accepted and not begun. -/
def Engine.pending : Engine → Option Instr
  | .accepted w => (decode w).toOption
  | .idle => none
  | .sampling => none
  | .completing _ => none
  | .hung => none

/-- The second value a read of SCALE_FX may show while CVT_SCALE runs: the new one before the command's write, the old one
after it (R125, 93 S2, log 14). -/
def State.otherScale (s : State) : Option Word :=
  match s.engine with
  | .completing (some (.scaleFx, old)) => some old
  | e => if e.pending = some .cvtScale then scaleOfF32 s.cfg.scaleF32 else none

/-- The second value a read of OFFSET_FX may show while CVT_OFFSET runs (R125, 93 S2, log 14). -/
def State.otherOffset (s : State) : Option Word :=
  match s.engine with
  | .completing (some (.offsetFx, old)) => some old
  | e => if e.pending = some .cvtOffset then offsetOfF32 s.cfg.offsetF32 else none

/-- A read of one of two values (93 S2). -/
def State.readEither (s : State) (v : Word) : Option Word → Word × State
  | none => (v, s)
  | some other => (if drawBit s.draws then other else v, s.drawn)

/-- A register read while BUSY = 1: STATUS.ROW_ACTIVE and the row-state registers read as free values, reserved bits 0
(R125, 93 S1). -/
def State.busyRead (s : State) (r : Reg) : Word × State :=
  if r.isRowState then (((Config.draw s.draws).setWidth r.width).setWidth 32, s.drawn)
  else if r = .status then ({ s.status with rowActive := drawBit s.draws }.word, s.drawn)
  else if r = .scaleFx then s.readEither s.cfg.scaleFx s.otherScale
  else if r = .offsetFx then s.readEither s.cfg.offsetFx s.otherOffset
  else (s.regValue r, s)

/-- A register read (R125, R126). -/
def State.regRead (s : State) (r : Reg) : Word × State :=
  if s.status.busy then s.busyRead r else (s.regValue r, s)

/-- The offset a bus address has in the register window; none where the access is refused: not 32 bits wide, not aligned,
or outside 0x00..0xFF (R12, R31). -/
def windowOffset (p : Params) (addr : Word) (size : AccessSize) : Option Nat :=
  let off := (addr - p.regBase).toNat
  if size = .word ∧ off % 4 = 0 ∧ off < 256 then some off else none

/-- A host read access: a refused one is answered with a bus error, a reserved offset reads 0 (R31, R32). -/
def State.accessRead (s : State) (addr : Word) (size : AccessSize) : State :=
  match windowOffset s.par addr size with
  | none => { s with reply := .busError }
  | some off =>
    match Reg.atOffset off with
    | none => { s with reply := .data 0 }
    | some r => { (s.regRead r).2 with reply := .data (s.regRead r).1 }

/-- A host write access: a refused one is answered with a bus error and changes nothing, a reserved offset ignores it
(R31, R32). -/
def State.accessWrite (s : State) (addr : Word) (size : AccessSize) (v : Word) : State :=
  match windowOffset s.par addr size with
  | none => { s with reply := .busError }
  | some off =>
    match Reg.atOffset off with
    | none => { s with reply := .done }
    | some r => { s.regWrite r v with reply := .done }

end Sys2Proof.Machine
end

