-- ==== Sys2Proof/Machine/HostSteps.lean ====
section
/-! DEFINITION. The host's steps (70_reset_and_hazards.md R239): register accesses, memory accesses and their races
(R240), WAIT, reset (R230 to R232), and the pseudo-instructions of 30_encoding.md R110 as host steps. -/

namespace Sys2Proof.Machine

/-- The byte lies in the unit. -/
def StoredUnit.holds (u : StoredUnit) (a : Word) : Bool := decide ((a - u.addr).toNat < u.new.length)

/-- The value the running command's store gives a byte, where it has issued one (R240). -/
def State.engineByte (s : State) (a : Word) : Option Byte :=
  match s.stored.find? (·.holds a) with
  | some u => u.new[(a - u.addr).toNat]?
  | none => none

/-- The host writes a byte of system memory. While BUSY = 1 the write is remembered with the byte before it, since the
engine's later accesses may see either. On a byte the running command has issued a store of, the engine's value or the
host's stands; on every other byte the host's does (R239, R240, 93 S5, log 8, log 20). -/
def State.hostWriteByte (s : State) (a : Word) (v : Byte) : State :=
  if s.status.busy then
    let t := { s with raced := (a.toNat, s.mem.read a) :: s.raced }
    match s.engineByte a with
    | some e => { t.drawn with mem := s.mem.write a (if drawBit s.draws then e else v) }
    | none => { t with mem := s.mem.write a v }
  else { s with mem := s.mem.write a v }

/-- The host writes bytes of system memory at rising addresses. -/
def State.hostMemWrite (s : State) (a : Word) : List Byte → State
  | [] => s
  | v :: vs => (s.hostWriteByte a v).hostMemWrite (a + 1) vs

/-- An access of `n` bytes at `a` has a byte in the unit. -/
def StoredUnit.meets (u : StoredUnit) (a : Word) (n : Nat) : Bool :=
  (List.range n).any fun k => u.holds (a + BitVec.ofNat 32 k)

/-- What one host access sees of a unit, whole: memory as it is, or by free choices the unit's old or its new bytes. -/
def StoredUnit.view (u : StoredUnit) (m : Memory) (draws : Nat) : Memory :=
  if drawBit draws then m.writeList u.addr (if drawBit (draws + 1) then u.new else u.old) else m

/-- The memory one host access of `n` bytes at `a` sees while BUSY = 1: a choice for every unit it meets (R87, R91, 93 S4,
log 9). Answers it with the draws used so far. -/
def hostView (m : Memory) (draws : Nat) (a : Word) (n : Nat) : List StoredUnit → Memory × Nat
  | [] => (m, draws)
  | u :: us => if u.meets a n then hostView (u.view m draws) (draws + 2) a n us else hostView m draws a n us

/-- The host reads `n` bytes of system memory: as they are while BUSY = 0, as `hostView` says while BUSY = 1 (R91). -/
def State.hostMemRead (s : State) (a : Word) (n : Nat) : List Byte × State :=
  if s.status.busy then
    let v := hostView s.mem s.draws a n s.stored
    (v.1.readList a n, { s with draws := v.2 })
  else (s.mem.readList a n, s)

/-- The engine's next step performs a sample step. -/
def State.willSample (s : State) : Bool :=
  s.status.rowActive &&
    (decide (s.engine = .sampling) || decide (s.engine.pending = some .sample)
      || decide (s.engine.pending = some .rowFinish))

/-- The engine's next step issues the store of a full unit: it samples, its reload, if it makes one, is performed, and
the sample fills the unit (R165, R181). -/
def State.willStore (s : State) : Bool :=
  s.willSample &&
    match advanceCursor s with
    | .goes t => decide (t.row.wCount.toNat + 1 = t.row.unitBits)
    | .ends _ => false

/-- A store that a reset cuts off: the one the engine waits for, or, where the reset falls into the next engine step, the
one that step issues. Where it issues none, the unit being assembled keeps its bytes (R187, R231, 93 S7, log 10). -/
def State.storeInFlight (s : State) (midStep : Bool) : Bool :=
  if s.engine = .hung then decide (s.row.wCount.toNat = s.row.unitBits) else midStep && s.willStore

/-- Reset (R230 to R232): every register at its reset value, the running command abandoned without completion, memory
kept but for the unit of a store in flight, which takes any value. Parameters, the platform's answers and the host's
steps are no state of the block (R71). -/
def State.resetEvent (s : State) (midStep : Bool) : State :=
  let t := if s.storeInFlight midStep then s.scramble s.row.unitAddr s.row.unitBytes else s
  { t with
    cfg := ConfigRegs.reset
    status := Status.reset
    row := RowRegs.reset
    engine := .idle
    raced := []
    stored := []
    reply := .none }

/-- One host step. WAIT is done where it is taken: the scheduler holds it back while BUSY = 1 (R110). -/
def hostStep (act : HostAction) (s : State) : State :=
  match act with
  | .regRead addr size => s.accessRead addr size
  | .regWrite addr size v => s.accessWrite addr size v
  | .memRead addr n => { (s.hostMemRead addr n).2 with reply := .bytes (s.hostMemRead addr n).1 }
  | .memWrite addr vs => { s.hostMemWrite addr vs with reply := .done }
  | .wait => { (s.regRead .status).2 with reply := .data (s.regRead .status).1 }
  | .reset midStep => s.resetEvent midStep
  | .platform map => { s with platform := map, reply := .done }

/-! ### Host programs (R109, R110) -/

/-- A host step with no engine turn before it. -/
def now (act : HostAction) : HostStep := { delay := 0, act }

/-- `WR <REG>, <value>` (R109). -/
def wr (p : Params) (r : Reg) (v : Word) : HostStep := now (.regWrite (p.regBase + BitVec.ofNat 32 r.offset) .word v)

/-- `RD <REG>` (R109). -/
def rd (p : Params) (r : Reg) : HostStep := now (.regRead (p.regBase + BitVec.ofNat 32 r.offset) .word)

/-- `CMD <MNEMONIC> [<row>]` (R109). -/
def cmd (p : Params) (i : Instr) : HostStep := wr p .cmd (encode i)

/-- `SETSCALE <f32>` (R110). -/
def setScale (p : Params) (f32 : Word) : List HostStep := [wr p .scaleF32 f32, cmd p .cvtScale, now .wait]

/-- `SETOFFSET <f32>` (R110). -/
def setOffset (p : Params) (f32 : Word) : List HostStep := [wr p .offsetF32 f32, cmd p .cvtOffset, now .wait]

/-- `RUNROW <y>` (R110). -/
def runRow (p : Params) (y : Nat) : List HostStep := [cmd p (.rowRun y), now .wait]

/-- `CLEARST` (R110). -/
def clearSt (p : Params) : HostStep := wr p .status 0x00000016

end Sys2Proof.Machine
end

