-- ==== Sys2Proof/Machine/Schedule.lean ====
section
/-! DEFINITION. Who moves next (40_command_control.md R128, log 4, log 5): the host's steps come when their delays say;
where none can come before the command completes, the command runs as one step. -/

namespace Sys2Proof.Machine

/-- The engine's turn where no host step comes before the command completes: an accepted word is fetched, decoded and run
to its completion; a command already begun takes its next engine step. -/
def engineTurn (s : State) : Host.Outcome State Fault Refusal :=
  match s.engine with
  | .accepted w =>
    match decode w with
    | .ok i => exec i s
    | .error _ => .next (runIllegal s)
  | .idle => .next (engineStep s)
  | .sampling => .next (engineStep s)
  | .completing _ => .next (engineStep s)
  | .hung => .next (engineStep s)

/-- The host waits for BUSY = 0 (R110, R238): no host step is left, or the next one is a WAIT. -/
def State.hostWaits (s : State) : Bool :=
  match s.host with
  | [] => true
  | h :: _ => decide (h.delay = 0 ∧ h.act = .wait ∧ s.status.busy = true)

/-- The next host step's turn: it is taken, or, while its delay lasts, one atomic engine step passes (R128). -/
def hostTurn (s : State) : State :=
  match s.host with
  | [] => s
  | h :: rest =>
    match h.delay with
    | 0 => hostStep h.act { s with host := rest }
    | n + 1 => engineStep { s with host := { h with delay := n } :: rest }

/-- One step of the machine. -/
def oneStep (s : State) : Host.Outcome State Fault Refusal := if s.hostWaits then engineTurn s else .next (hostTurn s)

/-- The state right after acceptance of the word `w`, with no host step to come: the next step dispatches `w` (R120). -/
def State.withAccepted (s : State) (w : Word) : State := { s.accept w with host := [] }

end Sys2Proof.Machine
end

