-- ==== Sys2Proof/Machine/Step.lean ====
section
/-! DEFINITION. One step of the machine, and a command word placed where the next step takes it from. -/

namespace Sys2Proof.Machine

/-- One step of the machine: the host's or the engine's (R128). -/
def step (s : State) : Host.Outcome State Fault Refusal := oneStep s

/-- The block fetches no instructions (R94): a command runs because the host wrote it to CMD. So this is the state right
after the acceptance of the table word `w` (R120), with no host step to come (log 4). -/
def State.withFetchWord (s : State) (nbits w : Nat) : State := s.withAccepted (BitVec.ofNat 32 (w % 2 ^ nbits))

end Sys2Proof.Machine
end

