-- ==== Sys2Proof/Safety.lean ====
section
/-! DEFINITION. What counts as a launch state, the end of a run and a sound state of the machine, in the terms the
statements use (70_reset_and_hazards.md R247, R248, 10_state.md R44, R60, R61, R70). -/

namespace Sys2Proof.Machine

/-- `CleanEntry` (R247): no command, no recorded error, no lost write, no active row. -/
abbrev State.CleanEntry (s : State) : Prop :=
  s.engine = .idle ∧ s.status.busy = false ∧ s.status.err = false ∧ s.status.errCode = 0 ∧ s.status.ovr = false
    ∧ s.status.rowActive = false

/-- The end of a run (R248): the host has taken its last step and BUSY = 0. -/
abbrev State.RunEnded (s : State) : Prop := s.host = [] ∧ s.status.busy = false

/-- Commands one after another, each accepted when the one before has completed and run with no host step in between;
none where a command has no next state. -/
def runCommands : List Instr → State → Option State
  | [], s => some s
  | i :: is, s =>
    match exec i s with
    | .next t => runCommands is t
    | .fault _ => none
    | .refused _ => none

/-- Every read of the row's source bytes and every store of its units is performed by the platform (R81, R89). -/
abbrev State.RowServed (s : State) (r : RowRegs) : Prop :=
  (∀ k < r.lStride.toNat, s.busAnswer .read (r.lSrcRow + BitVec.ofNat 32 k) 1 = .ok) ∧
    ∀ u < numUnits s.par r.lUnit32, s.busAnswer .write (r.lDstRow + BitVec.ofNat 32 (u * r.unitBytes)) r.unitBytes = .ok

/-- No transaction stays without an answer (R129). -/
abbrev State.Answered (s : State) : Prop := ∀ kind a n, s.busAnswer kind a n ≠ .never

/-- The source row and the destination row of a row command have no byte in common. -/
abbrev RowsApart (p : Params) (r : RowRegs) : Prop :=
  ∀ j < rowSize p, ∀ k < r.lStride.toNat, r.lDstRow + BitVec.ofNat 32 j ≠ r.lSrcRow + BitVec.ofNat 32 k

/-- What R70, R143 and R85 say of the registers of an active row. `CUR_BIT ≤ 7` holds by its width. -/
structure RowInv (p : Params) (r : RowRegs) : Prop where
  /-- `CUR_BYTE < L_STRIDE`. -/
  curByte : r.curByte.toNat < r.lStride.toNat
  /-- `1 ≤ L_SCALE` (R143). -/
  scalePos : 1 ≤ r.lScale.toNat
  /-- `L_SCALE ≤ 0xFFFF0000` (R143). -/
  scaleMax : r.lScale.toNat ≤ maxScale
  /-- `CUR_FRAC ≤ 0xFFFF + L_SCALE`. -/
  curFrac : r.curFrac.toNat ≤ 0xFFFF + r.lScale.toNat
  /-- `WCOUNT < N`. -/
  wCount : r.wCount.toNat < r.unitBits
  /-- `UNIT_IDX < NUNITS(N)`. -/
  unitIdx : r.unitIdx.toNat < numUnits p r.lUnit32
  /-- ACC's bits `[N−1−WCOUNT : 0]` are 0. -/
  accLow : r.acc.toNat % 2 ^ (r.unitBits - r.wCount.toNat) = 0
  /-- With N = 8, ACC's bits [31:8] are 0. -/
  accHigh : r.acc.toNat < 2 ^ r.unitBits
  /-- With N = 32 the destination row is aligned (R85). -/
  aligned : r.lUnit32 = true → r.lDstRow.toNat % 4 = 0

/-- A sound state: the machine's invariants. -/
structure Inv (s : State) : Prop where
  /-- P_COLUMNS and P_ROWS lie in their ranges (R8, R9). -/
  params : s.par.wf
  /-- Memory has its canonical form. -/
  memory : s.mem.wf
  /-- ERRCODE reads 0 while ERR = 0 (R44). -/
  errCodeZero : s.status.err = false → s.status.errCode = 0
  /-- Codes 9 to 15 are never produced (R201). -/
  errCodeMax : s.status.errCode.toNat ≤ 8
  /-- BUSY is 1 exactly while there is an accepted command that has not completed (R39). -/
  busy : s.status.busy = true ↔ s.engine ≠ .idle
  /-- The sample loop runs only while a row is active (R168, R170). -/
  sampling : s.engine = .sampling → s.status.rowActive = true
  /-- WCOUNT reads at most N (R60). -/
  wCount : s.row.wCount.toNat ≤ s.row.unitBits
  /-- UNIT_IDX lies in 0..NUNITS(N) (R61). -/
  unitIdx : s.row.unitIdx.toNat ≤ numUnits s.par s.row.lUnit32
  /-- With no command running no access races (R91, R240). -/
  quiet : s.engine = .idle → s.raced = [] ∧ s.stored = []
  /-- A command that is not dispatched has stored nothing. -/
  fresh : ∀ w, s.engine = .accepted w → s.stored = []
  /-- What the running command has stored are units of the destination row (R81). -/
  stored : ∀ u ∈ s.stored, u.old.length = s.row.unitBytes ∧ u.new.length = s.row.unitBytes ∧
    ∃ i < numUnits s.par s.row.lUnit32, u.addr = s.row.lDstRow + BitVec.ofNat 32 (i * s.row.unitBytes)
  /-- R70, at every engine step of an active row but one that waits for ever. -/
  row : s.status.rowActive = true → s.engine ≠ .hung → RowInv s.par s.row

end Sys2Proof.Machine
end

