-- ==== Sys2Proof/Certificates/Slice0/Obligations.lean ====
section
/-! DEFINITION. The statements for the provers. Each docstring names the rules it formalises. -/

open Sys2Proof Sys2Proof.Machine

/-! ### Words of the statements, written from the rules and not from the meanings -/

/-- A command that has ended in the lifecycle only: BUSY 0, DONE 1 (R127), engine idle. -/
def Sys2Proof.Spec.done (s : State) : State :=
  { s with
    status := { s.status with busy := false, done := true }
    engine := .idle
    raced := []
    stored := [] }

/-- A command that has ended in an error before it changed anything: the first code is kept, ERR is set, then completion
(R127, R205). -/
def Sys2Proof.Spec.failed (code : BitVec 4) (s : State) : State :=
  Spec.done { s with status := { s.status with errCode := if s.status.err then s.status.errCode else code, err := true } }

/-- A command that has ended in a bus error: ROW_ACTIVE 0, then ERR_BUS (R206). -/
def Sys2Proof.Spec.busFailed (s : State) : State :=
  Spec.failed 8 { s with status := { s.status with rowActive := false } }

/-- The same before its completion: ROW_ACTIVE 0, ERR_BUS recorded, completion next (R205, R206). -/
def Sys2Proof.Spec.busRaised (s : State) : State :=
  { s with
    status := { s.status with
      rowActive := false
      errCode := if s.status.err then s.status.errCode else 8
      err := true }
    engine := .completing none }

/-- The geometry R162 refuses with ERR_GEOM. -/
abbrev Sys2Proof.Spec.GeomBad (c : ConfigRegs) : Prop :=
  c.srcWidth.toNat = 0 ∨ c.srcWidth.toNat % 8 ≠ 0 ∨ c.srcHeight.toNat = 0 ∨ c.srcStride.toNat = 0
    ∨ c.srcStride.toNat < c.srcWidth.toNat / 8

/-- The scale R162 refuses with ERR_SCALE. -/
abbrev Sys2Proof.Spec.ScaleBad (c : ConfigRegs) : Prop := c.scaleFx.toNat = 0 ∨ 0xFFFF0000 < c.scaleFx.toNat

/-- The destination address R162 refuses with ERR_ALIGN. -/
abbrev Sys2Proof.Spec.AlignBad (c : ConfigRegs) : Prop := c.unit32 = true ∧ c.dstBase.toNat % 4 ≠ 0

/-- No check of R162 applies. -/
abbrev Sys2Proof.Spec.ChecksPass (p : Params) (c : ConfigRegs) (y : Nat) : Prop :=
  y < p.rows.toNat ∧ ¬Spec.GeomBad c ∧ ¬Spec.ScaleBad c ∧ ¬Spec.AlignBad c

/-- `(SRC_BASE + ysrc × SRC_STRIDE) mod 2^32` with `ysrc = (VOFF + y) mod SRC_HEIGHT` (R160, R161). -/
def Sys2Proof.Spec.srcRow (c : ConfigRegs) (y : Nat) : Word :=
  BitVec.ofNat 32 (c.srcBase.toNat + (c.vOff.toNat + y) % c.srcHeight.toNat * c.srcStride.toNat)

/-- `(DST_BASE + y × P_ROWSIZE) mod 2^32` (R160). -/
def Sys2Proof.Spec.dstRow (p : Params) (c : ConfigRegs) (y : Nat) : Word :=
  BitVec.ofNat 32 (c.dstBase.toNat + y * rowSize p)

/-- The wrapped offset, `sext_32(OFFSET_FX) mod (SRC_WIDTH × 65536)` (R146). -/
def Sys2Proof.Spec.wrapped (c : ConfigRegs) : Nat := (c.offsetFx.toInt % ((c.srcWidth.toNat * 65536 : Nat) : Int)).toNat

/-- The row registers of R160's write list after the checks pass, SRC_BYTE excepted. -/
def Sys2Proof.Spec.setupRow (p : Params) (c : ConfigRegs) (y : Nat) (r : RowRegs) : RowRegs :=
  { curByte := BitVec.ofNat 16 (Spec.wrapped c / 65536 / 8)
    curBit := BitVec.ofNat 3 (Spec.wrapped c / 65536 % 8)
    curFrac := BitVec.ofNat 32 (Spec.wrapped c % 65536)
    acc := 0
    wCount := 0
    unitIdx := 0
    srcByte := r.srcByte
    rowY := BitVec.ofNat 16 y
    srcRowIdx := BitVec.ofNat 16 ((c.vOff.toNat + y) % c.srcHeight.toNat)
    lSrcRow := Spec.srcRow c y
    lDstRow := Spec.dstRow p c y
    lStride := c.srcStride
    lUnit32 := c.unit32
    lScale := c.scaleFx }

/-- The address of the first source byte of a row, `L_SRC_ROW + CUR_BYTE` after the setup (R160, R164). -/
def Sys2Proof.Spec.firstSrc (c : ConfigRegs) (y : Nat) : Word :=
  Spec.srcRow c y + BitVec.ofNat 32 (Spec.wrapped c / 65536 / 8)

/-- Step 4a's `t = CUR_BIT + (CUR_FRAC >> 16)` (R165). -/
def Sys2Proof.Spec.shiftOf (r : RowRegs) : Nat := r.curBit.toNat + r.curFrac.toNat / 65536

/-- Step 4a's new CUR_BYTE, `(CUR_BYTE + (t >> 3)) mod L_STRIDE` (R165). -/
def Sys2Proof.Spec.nextByte (r : RowRegs) : Half :=
  BitVec.ofNat 16 ((r.curByte.toNat + Spec.shiftOf r / 8) % r.lStride.toNat)

/-- The address step 4a reloads from, `L_SRC_ROW + CUR_BYTE` with the new CUR_BYTE (R165). -/
def Sys2Proof.Spec.reloadAddr (r : RowRegs) : Word := r.lSrcRow + (Spec.nextByte r).setWidth 32

/-- The state after step 4a where no bus error stops it: the cursor moved by `t`, the byte reloaded exactly where
`t ≥ 8`, `CUR_FRAC` reduced to its fraction (R165). -/
def Sys2Proof.Spec.advanced (s : State) : State :=
  let t := Spec.shiftOf s.row
  let f := BitVec.ofNat 32 (s.row.curFrac.toNat % 65536)
  if t < 8 then { s with row := { s.row with curBit := BitVec.ofNat 3 t, curFrac := f } }
  else
    { s.afterRead (Spec.reloadAddr s.row) with
      row := { s.row with
        curByte := Spec.nextByte s.row
        curBit := BitVec.ofNat 3 (t % 8)
        curFrac := f
        srcByte := s.seen (Spec.reloadAddr s.row) } }

/-- Step 4b, 4c: ACC with the source bit `SRC_BYTE[7 − CUR_BIT]` at position `N − 1 − WCOUNT` (R165, R180, R181). -/
def Sys2Proof.Spec.accWith (r : RowRegs) : Word :=
  r.acc ||| BitVec.ofNat 32 (r.srcByte.getLsbD (7 - r.curBit.toNat)).toNat <<< (unitBits r.lUnit32 - 1 - r.wCount.toNat)

/-- Step 4a has an answer that lets it go on. -/
abbrev Sys2Proof.Spec.AdvanceServed (s : State) : Prop :=
  8 ≤ Spec.shiftOf s.row → s.busAnswer .read (Spec.reloadAddr s.row) 1 = .ok

/-- The address of the unit at the write cursor, `(L_DST_ROW + UNIT_IDX × (N/8)) mod 2^32` (R182). -/
def Sys2Proof.Spec.unitAddr (r : RowRegs) : Word := r.lDstRow + BitVec.ofNat 32 (r.unitIdx.toNat * unitBytes r.lUnit32)

/-- The address of unit `i` of a row (R61). -/
def Sys2Proof.Spec.unitAt (r : RowRegs) (i : Nat) : Word := r.lDstRow + BitVec.ofNat 32 (i * unitBytes r.lUnit32)

/-- The bytes of a unit at rising addresses (R182, R183). -/
def Sys2Proof.Spec.unitData (unit32 : Bool) (acc : Word) : List Byte :=
  if unit32 then [acc.extractLsb' 24 8, acc.extractLsb' 16 8, acc.extractLsb' 8 8, acc.extractLsb' 0 8]
  else [acc.extractLsb' 0 8]

/-- The source position of sample `j` of a row, `(Q0 + ((F0 + j × S) >> 16)) mod Ls` (R171). -/
def Sys2Proof.Spec.position (c : ConfigRegs) (j : Nat) : Nat :=
  (Spec.wrapped c / 65536 + (Spec.wrapped c % 65536 + j * c.scaleFx.toNat) / 65536) % (8 * c.srcStride.toNat)

/-- Pixel `q` of a row at `base`: bit `7 − (q mod 8)` of byte `q div 8` (R82). -/
def Sys2Proof.Spec.pixel (m : Memory) (base : Word) (q : Nat) : Bool :=
  (m.read (base + BitVec.ofNat 32 (q / 8))).getLsbD (7 - q % 8)

/-- How many samples the active row has taken, `UNIT_IDX × N + WCOUNT` (R69). -/
def Sys2Proof.Spec.taken (r : RowRegs) : Nat := r.unitIdx.toNat * unitBits r.lUnit32 + r.wCount.toNat

/-- The register window's bus address of an offset (R12). -/
def Sys2Proof.Spec.at (s : State) (off : Nat) : Word := s.par.regBase + BitVec.ofNat 32 off

/-- The registers a row latches and no sample step writes (R63 to R68). -/
abbrev Sys2Proof.Spec.SameLatches (r q : RowRegs) : Prop :=
  r.rowY = q.rowY ∧ r.srcRowIdx = q.srcRowIdx ∧ r.lSrcRow = q.lSrcRow ∧ r.lDstRow = q.lDstRow ∧ r.lStride = q.lStride
    ∧ r.lUnit32 = q.lUnit32 ∧ r.lScale = q.lScale

/-! ### Encoding -/

/-- Decode and encode agree, for every well-formed command with every ROW its field admits (R100, R102, R104). -/
def Obligations.EncodedCommandDecodes : Prop := ∀ i : Instr, i.WellFormed → decode (encode i) = .ok i

/-- A legal word is the encoding of the command it decodes to; the commands that ignore ROW lose it (R102, R104). -/
def Obligations.DecodedWordEncodes : Prop :=
  ∀ (w : Word) (i : Instr), decode w = .ok i →
    i.WellFormed ∧
      encode i = (match i with
        | .rowSetup _ => w
        | .rowRun _ => w
        | .nop => w &&& 0x0000FFFF
        | .cvtScale => w &&& 0x0000FFFF
        | .cvtOffset => w &&& 0x0000FFFF
        | .sample => w &&& 0x0000FFFF
        | .rowFinish => w &&& 0x0000FFFF)

/-- R103: a word with RSVD not 0 or OP in 0x7..0xF is illegal, and accepting it raises ERR_OPCODE with no other effect
than the lifecycle; every other word is one of the seven commands. -/
def Obligations.IllegalWordsRaiseErrOpcode : Prop :=
  ∀ w : Word,
    if rsvdField w ≠ 0 ∨ 7 ≤ (opField w).toNat then
      ∀ s : State, s.engine = .accepted w → s.hostWaits = true → step s = .next (Spec.failed 1 s)
    else ∃ i : Instr, decode w = .ok i

/-- Words written out from R100's fields decode to the commands R102 gives them. -/
def Obligations.WrittenWordsDecode : Prop :=
  decode 0x00000000 = .ok .nop ∧ decode 0xFFFF0000 = .ok .nop ∧ decode 0x00000001 = .ok .cvtScale
    ∧ decode 0x00000002 = .ok .cvtOffset ∧ decode 0xABCD0003 = .ok (.rowSetup 0xABCD)
    ∧ decode 0x00050004 = .ok .sample ∧ decode 0x00000005 = .ok .rowFinish ∧ decode 0x00050006 = .ok (.rowRun 5)
    ∧ decode 0x00000007 = .error .reservedOpcode ∧ decode 0x00000010 = .error .reservedBits

/-! ### Who moves, acceptance, the register window -/

/-- R122: where no host step comes before completion, a step dispatches the accepted word to its command's meaning. -/
def Obligations.StepRunsAcceptedCommand : Prop :=
  ∀ (s : State) (w : Word) (i : Instr),
    s.engine = .accepted w → decode w = .ok i → s.hostWaits = true → step s = exec i s

/-- R128: a host step that is due is taken; while its delay lasts, one engine step passes before it. -/
def Obligations.HostStepsInterleave : Prop :=
  ∀ (s : State) (h : HostStep) (rest : List HostStep), s.host = h :: rest → s.hostWaits = false →
    (h.delay = 0 → step s = .next (hostStep h.act { s with host := rest })) ∧
      ∀ n, h.delay = n + 1 → step s = .next (engineStep { s with host := { delay := n, act := h.act } :: rest })

/-- R120: a CMD write while BUSY = 0 is accepted: BUSY 1, DONE 0, ERR, ERRCODE and OVR unchanged, and the engine's next
step dispatches the word. While BUSY = 1 it is not accepted: the running command goes on. -/
def Obligations.CmdWriteIsAccepted : Prop :=
  ∀ (s : State) (v : Word) (rest : List HostStep),
    s.host = { delay := 0, act := .regWrite (Spec.at s 0x14) .word v } :: rest →
      (s.status.busy = false →
        step s = .next { s with
          status := { s.status with busy := true, done := false }
          engine := .accepted v
          host := rest
          reply := .done } ∧
        ∀ t : State, t.engine = .accepted v → engineStep t = dispatchWord v t) ∧
      (s.status.busy = true →
        step s = .next { s with
          status := { s.status with ovr := true }
          host := rest
          reply := .done })

/-- R124: while BUSY = 1 a write of CMD or of an RW register is ignored and sets OVR; busy or not, a STATUS write clears
and does not set OVR, and writes to read-only or reserved offsets are ignored and do not set OVR. -/
def Obligations.BusyWritesAreLost : Prop :=
  ∀ (s : State) (off : Nat) (v : Word) (rest : List HostStep), off % 4 = 0 → off < 256 →
    s.host = { delay := 0, act := .regWrite (Spec.at s off) .word v } :: rest →
    s.status.busy = true ∨ ¬(off = 0x0C ∨ off = 0x14 ∨ (0x18 ≤ off ∧ off ≤ 0x3C)) →
      step s = .next { s with
        status :=
          (if off = 0x10 then
            { s.status with
              done := s.status.done && !v.getLsbD 1
              err := s.status.err && !v.getLsbD 2
              errCode := if v.getLsbD 2 then 0 else s.status.errCode
              ovr := s.status.ovr && !v.getLsbD 4 }
          else if off = 0x0C ∨ off = 0x14 ∨ (0x18 ≤ off ∧ off ≤ 0x3C) then { s.status with ovr := true }
          else s.status)
        host := rest
        reply := .done }

/-- R207 with R40, R41, R43: a STATUS write clears DONE, ERR with ERRCODE, and OVR where it has a 1, whether or not the
engine is busy, and changes nothing else of the machine. -/
def Obligations.StatusWriteOneClears : Prop :=
  ∀ (s : State) (v : Word) (rest : List HostStep),
    s.host = { delay := 0, act := .regWrite (Spec.at s 0x10) .word v } :: rest →
      step s = .next { s with
        status := { s.status with
          done := s.status.done && !v.getLsbD 1
          err := s.status.err && !v.getLsbD 2
          errCode := if v.getLsbD 2 then 0 else s.status.errCode
          ovr := s.status.ovr && !v.getLsbD 4 }
        host := rest
        reply := .done }

/-- R123, R33: while BUSY = 0 an RW register takes the written value, truncated to its width; every other register
keeps its value, and so do the engine, memory and the active row. -/
def Obligations.IdleWriteTakesEffect : Prop :=
  ∀ (s : State) (r : Reg) (v : Word) (rest : List HostStep), r.access = .rw →
    s.host = { delay := 0, act := .regWrite (Spec.at s r.offset) .word v } :: rest → s.status.busy = false →
      ∃ t : State, step s = .next t ∧ t.regValue r = (v.setWidth r.width).setWidth 32
        ∧ (∀ q : Reg, q ≠ r → t.regValue q = s.regValue q)
        ∧ t.row = s.row ∧ t.status = s.status ∧ t.engine = s.engine ∧ t.mem = s.mem ∧ t.host = rest

/-- R32: a read of a reserved offset gives 0, a write of a reserved offset or of a read-only register is ignored, and
neither sets OVR, busy or not. -/
def Obligations.ReservedOffsetsAreInert : Prop :=
  ∀ (s : State) (off : Nat) (v : Word) (rest : List HostStep), off % 4 = 0 → off < 256 →
    (0x74 ≤ off → s.host = { delay := 0, act := .regRead (Spec.at s off) .word } :: rest →
      step s = .next { s with host := rest, reply := .data 0 }) ∧
    (0x74 ≤ off ∨ off < 0x0C ∨ (0x40 ≤ off ∧ off < 0x74) →
      s.host = { delay := 0, act := .regWrite (Spec.at s off) .word v } :: rest →
      step s = .next { s with host := rest, reply := .done })

/-- R31: an access that is not 32 bits wide, not aligned, or outside 0x00..0xFF of the window is answered with a bus
error and changes no state of the block. -/
def Obligations.BadAccessesAreBusErrors : Prop :=
  ∀ (s : State) (addr : Word) (size : AccessSize) (v : Word) (rest : List HostStep),
    size ≠ .word ∨ (addr - s.par.regBase).toNat % 4 ≠ 0 ∨ 256 ≤ (addr - s.par.regBase).toNat →
    (s.host = { delay := 0, act := .regRead addr size } :: rest →
      step s = .next { s with host := rest, reply := .busError }) ∧
    (s.host = { delay := 0, act := .regWrite addr size v } :: rest →
      step s = .next { s with host := rest, reply := .busError })

/-- R126: while BUSY = 0 a register read returns exactly the register's value and changes nothing. -/
def Obligations.IdleReadsAreExact : Prop :=
  ∀ (s : State) (r : Reg) (rest : List HostStep),
    s.host = { delay := 0, act := .regRead (Spec.at s r.offset) .word } :: rest → s.status.busy = false →
      step s = .next { s with host := rest, reply := .data (s.regValue r) }

/-- SCALE_F32 is one CVT_SCALE accepts (R142). -/
abbrev Sys2Proof.Spec.ScaleAccepted (w : Word) : Prop :=
  (decodeF32 w).cls = .finite ∧ (decodeF32 w).neg = false ∧ (decodeF32 w).mag ≠ 0 ∧
    1 ≤ roundMag (decodeF32 w).mag (decodeF32 w).exp ∧ roundMag (decodeF32 w).mag (decodeF32 w).exp ≤ 0xFFFF0000

/-- The product of OFFSET_F32 truncated toward zero, with its sign (R144). -/
def Sys2Proof.Spec.truncated (w : Word) : Int :=
  if (decodeF32 w).neg then -(truncMag (decodeF32 w).mag (decodeF32 w).exp : Int)
  else truncMag (decodeF32 w).mag (decodeF32 w).exp

/-- OFFSET_F32 is one CVT_OFFSET accepts (R144). -/
abbrev Sys2Proof.Spec.OffsetAccepted (w : Word) : Prop :=
  (decodeF32 w).cls = .finite ∧ -2 ^ 31 ≤ Spec.truncated w ∧ Spec.truncated w ≤ 2 ^ 31 - 1

/-- The value a read shows of two that the next free value chooses between (93 S2). -/
def Sys2Proof.Spec.oneOf (s : State) (v other : Word) : Word := if (Config.draw s.draws).getLsbD 0 then other else v

/-- What a read of SCALE_FX shows while BUSY = 1: after CVT_SCALE's write the new or the old value, before it the old or the
new one, and the one value where CVT_SCALE does not run or will refuse (R125, 93 S2). -/
abbrev Sys2Proof.Spec.ScaleShown (s : State) (x : Word) : Prop :=
  (∀ old, s.engine = .completing (some (.scaleFx, old)) → x = Spec.oneOf s s.cfg.scaleFx old) ∧
  (∀ w, s.engine = .accepted w → decode w = .ok .cvtScale →
    (Spec.ScaleAccepted s.cfg.scaleF32 →
      x = Spec.oneOf s s.cfg.scaleFx
        (BitVec.ofNat 32 (roundMag (decodeF32 s.cfg.scaleF32).mag (decodeF32 s.cfg.scaleF32).exp))) ∧
    (¬Spec.ScaleAccepted s.cfg.scaleF32 → x = s.cfg.scaleFx)) ∧
  ((∀ old, s.engine ≠ .completing (some (.scaleFx, old))) →
    (∀ w, s.engine = .accepted w → decode w ≠ .ok .cvtScale) → x = s.cfg.scaleFx)

/-- What a read of OFFSET_FX shows while BUSY = 1, as `Spec.ScaleShown` says it of SCALE_FX (R125, 93 S2). -/
abbrev Sys2Proof.Spec.OffsetShown (s : State) (x : Word) : Prop :=
  (∀ old, s.engine = .completing (some (.offsetFx, old)) → x = Spec.oneOf s s.cfg.offsetFx old) ∧
  (∀ w, s.engine = .accepted w → decode w = .ok .cvtOffset →
    (Spec.OffsetAccepted s.cfg.offsetF32 →
      x = Spec.oneOf s s.cfg.offsetFx (BitVec.ofInt 32 (Spec.truncated s.cfg.offsetF32))) ∧
    (¬Spec.OffsetAccepted s.cfg.offsetF32 → x = s.cfg.offsetFx)) ∧
  ((∀ old, s.engine ≠ .completing (some (.offsetFx, old))) →
    (∀ w, s.engine = .accepted w → decode w ≠ .ok .cvtOffset) → x = s.cfg.offsetFx)

/-- R125: while BUSY = 1 a row-state register reads as a free value with its reserved bits 0, STATUS as its current bits
with ROW_ACTIVE free, SCALE_FX and OFFSET_FX as their old or their new value while their conversion runs, every other
register as its value. Nothing but the draws and the answer changes. The statement holds for every value of the draws. -/
def Obligations.BusyReadsAreFreeForRowState : Prop :=
  ∀ (s : State) (r : Reg) (rest : List HostStep),
    s.host = { delay := 0, act := .regRead (Spec.at s r.offset) .word } :: rest → s.status.busy = true →
      ∃ (n : Nat) (x : Word), step s = .next { s with draws := n, host := rest, reply := .data x } ∧
        (0x40 ≤ r.offset → x = ((Config.draw s.draws).setWidth r.width).setWidth 32) ∧
        (r = .status → ∃ b : Bool, x = { s.status with rowActive := b }.word) ∧
        (r = .scaleFx → Spec.ScaleShown s x) ∧ (r = .offsetFx → Spec.OffsetShown s x) ∧
        (r.offset < 0x40 → r ≠ .status → r ≠ .scaleFx → r ≠ .offsetFx → x = s.regValue r)

/-- R33, R44: bits above a register's used width read as 0, and so do STATUS bits [7:5]. -/
def Obligations.ReservedBitsReadZero : Prop :=
  (∀ (s : State) (r : Reg), s.regValue r = ((s.regValue r).setWidth r.width).setWidth 32) ∧
    ∀ (s : State) (k : Nat), 5 ≤ k → k ≤ 7 → (s.regValue .status).getLsbD k = false

/-- R34, R35, R36: ID reads 0x1B5C0001, INFO `P_ROWS << 16 | P_COLUMNS`, INFO2 `P_ROWSIZE`, and no step changes them. -/
def Obligations.IdentificationIsConstant : Prop :=
  (∀ s : State, s.regValue .id = 0x1B5C0001
    ∧ s.regValue .info = s.par.rows.setWidth 32 <<< 16 ||| s.par.columns.setWidth 32
    ∧ (s.regValue .info2).toNat = rowSize s.par) ∧
  ∀ s t : State, step s = .next t →
    t.regValue .id = s.regValue .id ∧ t.regValue .info = s.regValue .info ∧ t.regValue .info2 = s.regValue .info2

/-- R210: the output is `CTRL.IRQ_EN ∧ (DONE ∨ ERR)`: an accepted and completed command with IRQ_EN asserts it, it stays
until both DONE and ERR are cleared or IRQ_EN is, and it is 0 at reset. -/
def Obligations.InterruptIsALevel : Prop :=
  (∀ s : State, s.irq = (s.cfg.irqEn && (s.status.done || s.status.err))) ∧
  (∀ (s t : State) (i : Instr), exec i s = .next t → t.engine = .idle → t.irq = t.cfg.irqEn) ∧
  (∀ (s : State) (v : Word), v.getLsbD 1 = true → v.getLsbD 2 = true → (s.clearStatus v).irq = false) ∧
  State.reset.irq = false

/-! ### Reset and soundness -/

/-- The reset table of R230. -/
def Sys2Proof.Spec.resetValue (p : Params) (r : Reg) : Word :=
  if r = .id then 0x1B5C0001
  else if r = .info then p.rows.setWidth 32 <<< 16 ||| p.columns.setWidth 32
  else if r = .info2 then BitVec.ofNat 32 (rowSize p)
  else if r = .ctrl then 1
  else 0

/-- R230: right after power-on and after every reset event, every register reads its reset value, the interrupt output is
0 and the engine is idle. -/
def Obligations.ResetRegisterValues : Prop :=
  ((∀ r : Reg, State.reset.regValue r = Spec.resetValue Config.params r) ∧ State.reset.irq = false
    ∧ State.reset.engine = .idle) ∧
  ∀ (s t : State) (mid : Bool) (rest : List HostStep), s.host = { delay := 0, act := .reset mid } :: rest →
    step s = .next t →
      (∀ r : Reg, t.regValue r = Spec.resetValue s.par r) ∧ t.irq = false ∧ t.engine = .idle

/-- R231, R232, R187: a reset gives every register its reset value and abandons the running command. Memory keeps every
byte, but for the unit at the write cursor where its store is in flight; none is where the reset falls between engine steps
or into an engine step that issues no store, completion included, unless the engine waits for an answer (log 10). -/
def Obligations.ResetAbandonsCommand : Prop :=
  ∀ (s : State) (mid : Bool) (rest : List HostStep), s.host = { delay := 0, act := .reset mid } :: rest →
    ∃ t : State, step s = .next t ∧ t.cfg = ConfigRegs.reset ∧ t.status = Status.reset ∧ t.row = RowRegs.reset
      ∧ t.engine = .idle ∧ t.par = s.par ∧ t.host = rest ∧ t.raced = [] ∧ t.stored = []
      ∧ (s.engine ≠ .hung → mid = false ∨ (∀ u, (engineStep s).stored ≠ u :: s.stored) → t.mem = s.mem)
      ∧ (s.engine = .hung → s.row.wCount.toNat ≠ unitBits s.row.lUnit32 → t.mem = s.mem)
      ∧ ∀ a : Word, (∀ k < unitBytes s.row.lUnit32, a ≠ Spec.unitAddr s.row + BitVec.ofNat 32 k) →
          t.mem.read a = s.mem.read a

/-- The invariants hold right after reset. -/
def Obligations.SoundAtReset : Prop := Inv State.reset

/-- Every step keeps the invariants (R39, R44, R60, R61, R70, R85, and the canonical form of memory). -/
def Obligations.StepKeepsSoundness : Prop := ∀ s t : State, Inv s → step s = .next t → Inv t

/-! ### NOP and the conversions -/

/-- R127: completion clears BUSY, sets DONE and leaves the engine idle, whatever the command did before; so every command
that has ended shows BUSY 0 and DONE 1. -/
def Obligations.CompletionSetsDone : Prop :=
  (∀ (s : State) (c : Option (CvtTarget × Word)), s.engine = .completing c → engineStep s = Spec.done s) ∧
  ∀ (s t : State) (i : Instr), exec i s = .next t → t.engine = .idle → t.status.busy = false ∧ t.status.done = true

/-- R121: NOP does nothing but the lifecycle; its words are those with OP and RSVD 0, whatever ROW. -/
def Obligations.NopOnlyCompletes : Prop :=
  (∀ s : State, exec .nop s = .next (Spec.done s)) ∧ ∀ w : Word, decode w = .ok .nop ↔ w &&& 0x0000FFFF = 0

/-- R142: a finite positive scale whose product rounds into 1..0xFFFF0000 is written to SCALE_FX and nothing else changes;
NaN, an infinity, a set sign bit, zero, or a product that rounds outside that range raises ERR_SCALE and leaves SCALE_FX. -/
def Obligations.CvtScaleFollowsRule : Prop :=
  (∀ s : State,
    let p := decodeF32 s.cfg.scaleF32
    (p.cls = .finite → p.neg = false → p.mag ≠ 0 → 1 ≤ roundMag p.mag p.exp → roundMag p.mag p.exp ≤ 0xFFFF0000 →
      exec .cvtScale s = .next (Spec.done { s with
        cfg := { s.cfg with scaleFx := BitVec.ofNat 32 (roundMag p.mag p.exp) } })) ∧
    (p.cls ≠ .finite ∨ p.neg = true ∨ p.mag = 0 ∨ roundMag p.mag p.exp < 1 ∨ 0xFFFF0000 < roundMag p.mag p.exp →
      exec .cvtScale s = .next (Spec.failed 4 s))) ∧
  ∀ w : Word, decode w = .ok .cvtScale ↔ w &&& 0x0000FFFF = 1

/-- R144: the product truncated toward zero is written to OFFSET_FX in two's complement where it fits and nothing else
changes; NaN, an infinity or a truncated product outside the signed 32-bit range raises ERR_RANGE and leaves OFFSET_FX. -/
def Obligations.CvtOffsetFollowsRule : Prop :=
  (∀ s : State,
    let p := decodeF32 s.cfg.offsetF32
    let t : Int := if p.neg then -(truncMag p.mag p.exp : Int) else truncMag p.mag p.exp
    (p.cls = .finite → -2 ^ 31 ≤ t → t ≤ 2 ^ 31 - 1 →
      exec .cvtOffset s = .next (Spec.done { s with cfg := { s.cfg with offsetFx := BitVec.ofInt 32 t } })) ∧
    (p.cls ≠ .finite ∨ t < -2 ^ 31 ∨ 2 ^ 31 - 1 < t → exec .cvtOffset s = .next (Spec.failed 6 s))) ∧
  ∀ w : Word, decode w = .ok .cvtOffset ↔ w &&& 0x0000FFFF = 2

/-- R141: TruncMag is the floor of `M × 2^k`, RoundMag the nearest integer with ties away from zero. -/
def Obligations.MagnitudesRoundAsStated : Prop :=
  ∀ (m : Nat) (k : Int),
    (0 ≤ k → truncMag m k = m * 2 ^ k.toNat ∧ roundMag m k = m * 2 ^ k.toNat) ∧
    (k < 0 →
      truncMag m k * 2 ^ (-k).toNat ≤ m ∧ m < (truncMag m k + 1) * 2 ^ (-k).toNat ∧
      2 * roundMag m k * 2 ^ (-k).toNat ≤ 2 * m + 2 ^ (-k).toNat ∧
      2 * m + 2 ^ (-k).toNat < 2 * (roundMag m k + 1) * 2 ^ (-k).toNat)

/-- R107, R140: DecodeF32's answer for every pattern; `M × 2^k` is the magnitude of the binary32 value times 2^16,
exactly. -/
def Obligations.DecodedF32IsExact : Prop :=
  ∀ w : Word,
    let e := (w.extractLsb' 23 8).toNat
    let f := (w.extractLsb' 0 23).toNat
    let p := decodeF32 w
    p.neg = w.getLsbD 31 ∧
    (1 ≤ e → e ≤ 254 →
      p.cls = .finite ∧ p.mag = 2 ^ 23 + f ∧ p.exp = (e : Int) - 134 ∧
        (p.mag : ℚ) * 2 ^ p.exp = ((2 ^ 23 + f : Nat) : ℚ) * 2 ^ ((e : Int) - 150) * 2 ^ 16) ∧
    (e = 0 →
      p.cls = .finite ∧ p.mag = f ∧ p.exp = -133 ∧
        (p.mag : ℚ) * 2 ^ p.exp = (f : ℚ) * 2 ^ (-149 : Int) * 2 ^ 16) ∧
    (e = 255 → p.cls = (if f = 0 then .infinite else .nan) ∧ p.mag = 0 ∧ p.exp = 0)

/-- R146: WrapSplit's position is the signed 16.16 offset reduced modulo the row width, and lies in the row. -/
def Obligations.WrapSplitLandsInRow : Prop :=
  ∀ (x : Word) (width : Nat), 0 < width →
    let c := wrapSplit x width
    c.byteOffset * 8 + c.bitOffset < width ∧ c.bitOffset < 8 ∧ c.fracFixed < 65536 ∧
      ∃ q : Int, x.toInt = q * (width * 65536) + ((c.byteOffset * 8 + c.bitOffset) * 65536 + c.fracFixed)

/-! ### ROW_SETUP -/

/-- R160: with the checks passed and the first read answered, ROW_SETUP latches the row, sets the cursor, loads the first
byte and sets ROW_ACTIVE; nothing else changes. -/
def Obligations.RowSetupLatchesRow : Prop :=
  ∀ (s : State) (y : Nat), Spec.ChecksPass s.par s.cfg y → s.busAnswer .read (Spec.firstSrc s.cfg y) 1 = .ok →
    exec (.rowSetup y) s = .next (Spec.done { s.afterRead (Spec.firstSrc s.cfg y) with
      row := { Spec.setupRow s.par s.cfg y s.row with srcByte := s.seen (Spec.firstSrc s.cfg y) }
      status := { s.status with rowActive := true } })

/-- R161: the selected source row lies in the source bitmap, and is the one the rule gives. -/
def Obligations.SelectedRowIsInBitmap : Prop :=
  ∀ (s t : State) (y : Nat), Spec.ChecksPass s.par s.cfg y → exec (.rowSetup y) s = .next t →
    t.row.srcRowIdx.toNat = (s.cfg.vOff.toNat + y) % s.cfg.srcHeight.toNat ∧
      t.row.srcRowIdx.toNat < s.cfg.srcHeight.toNat

/-- R162, R163, R202: the first check that applies raises its code, in ROW_SETUP and in ROW_RUN, and nothing but STATUS
changes: an active row stays active. -/
def Obligations.FailedChecksChangeNothing : Prop :=
  ∀ (s : State) (y : Nat) (i : Instr), i = .rowSetup y ∨ i = .rowRun y →
    (s.par.rows.toNat ≤ y → exec i s = .next (Spec.failed 2 s)) ∧
    (y < s.par.rows.toNat → Spec.GeomBad s.cfg → exec i s = .next (Spec.failed 3 s)) ∧
    (y < s.par.rows.toNat → ¬Spec.GeomBad s.cfg → Spec.ScaleBad s.cfg → exec i s = .next (Spec.failed 4 s)) ∧
    (y < s.par.rows.toNat → ¬Spec.GeomBad s.cfg → ¬Spec.ScaleBad s.cfg → Spec.AlignBad s.cfg →
      exec i s = .next (Spec.failed 5 s))

/-- R164: a bus error on the first read leaves the registers written before it, SRC_BYTE as it was, ROW_ACTIVE 0 and
ERR_BUS, in ROW_SETUP and in ROW_RUN. -/
def Obligations.SetupReadBusError : Prop :=
  ∀ (s : State) (y : Nat) (i : Instr), i = .rowSetup y ∨ i = .rowRun y → Spec.ChecksPass s.par s.cfg y →
    s.busAnswer .read (Spec.firstSrc s.cfg y) 1 = .error →
      exec i s = .next (Spec.busFailed { s with row := Spec.setupRow s.par s.cfg y s.row })

/-! ### SAMPLE -/

/-- R166, R168: without an active row SAMPLE and ROW_FINISH raise ERR_NOROW and nothing else changes. -/
def Obligations.NoActiveRowIsRefused : Prop :=
  ∀ (s : State) (i : Instr), s.par.wf → i = .sample ∨ i = .rowFinish → s.status.rowActive = false →
    exec i s = .next (Spec.failed 7 s)

/-- R165, R166, R167, R181: a sample that does not fill its unit moves the cursor, appends one bit, counts it and adds
the scale; memory and the latches are untouched. -/
def Obligations.SampleAppendsOneBit : Prop :=
  ∀ s : State, s.status.rowActive = true → Spec.AdvanceServed s →
    s.row.wCount.toNat + 1 ≠ unitBits s.row.lUnit32 →
      exec .sample s = .next (Spec.done { Spec.advanced s with
        row := { (Spec.advanced s).row with
          acc := Spec.accWith (Spec.advanced s).row
          wCount := s.row.wCount + 1
          curFrac := (Spec.advanced s).row.curFrac + s.row.lScale } })

/-- R165, R181 to R184: the sample that fills its unit stores it at the write cursor, byte-order corrected, advances the
cursor, clears the accumulator, and ends the row exactly on its last unit. -/
def Obligations.SampleFlushesFullUnit : Prop :=
  ∀ s : State, s.status.rowActive = true → Spec.AdvanceServed s →
    s.row.wCount.toNat + 1 = unitBits s.row.lUnit32 →
    s.busAnswer .write (Spec.unitAddr s.row) (unitBytes s.row.lUnit32) = .ok →
      exec .sample s = .next (Spec.done {
        (Spec.advanced s).storeBytes (Spec.unitAddr s.row)
          (Spec.unitData s.row.lUnit32 (Spec.accWith (Spec.advanced s).row)) with
        row := { (Spec.advanced s).row with
          acc := 0
          wCount := 0
          unitIdx := s.row.unitIdx + 1
          curFrac := (Spec.advanced s).row.curFrac + s.row.lScale }
        status := { s.status with
          rowActive := !decide ((s.row.unitIdx + 1).toNat = numUnits s.par s.row.lUnit32) } })

/-- R206: a reload that answers with a bus error leaves the cursor as step 4a gave it, SRC_BYTE as it was, and performs
no later sub-step, in SAMPLE, in ROW_FINISH and in every later step of the loop of ROW_FINISH and ROW_RUN. -/
def Obligations.SampleReloadBusError : Prop :=
  ∀ s : State, s.par.wf → s.status.rowActive = true → 8 ≤ Spec.shiftOf s.row →
    s.busAnswer .read (Spec.reloadAddr s.row) 1 = .error →
      let x := { s with
        row := { s.row with
          curByte := Spec.nextByte s.row
          curBit := BitVec.ofNat 3 (Spec.shiftOf s.row % 8)
          curFrac := BitVec.ofNat 32 (s.row.curFrac.toNat % 65536) } }
      exec .sample s = .next (Spec.busFailed x) ∧ exec .rowFinish s = .next (Spec.busFailed x) ∧
        (s.engine = .sampling → engineStep s = Spec.busRaised x)

/-- R206, R182: a store that answers with a bus error leaves the full unit in ACC, WCOUNT = N and UNIT_IDX, performs no
step e, and changes no byte of memory outside the unit, in SAMPLE, in ROW_FINISH and in every later step of the loop of
ROW_FINISH and ROW_RUN. -/
def Obligations.SampleStoreBusError : Prop :=
  ∀ s : State, s.par.wf → s.status.rowActive = true → Spec.AdvanceServed s →
    s.row.wCount.toNat + 1 = unitBits s.row.lUnit32 →
    s.busAnswer .write (Spec.unitAddr s.row) (unitBytes s.row.lUnit32) = .error →
      ∃ t : State, exec .sample s = .next (Spec.done t) ∧ exec .rowFinish s = .next (Spec.done t)
        ∧ (s.engine = .sampling → engineStep s = t)
        ∧ t.row = { (Spec.advanced s).row with
            acc := Spec.accWith (Spec.advanced s).row
            wCount := s.row.wCount + 1 }
        ∧ t.status = (Spec.busRaised s).status ∧ t.engine = .completing none ∧ t.cfg = s.cfg
        ∧ ∀ a : Word, (∀ k < unitBytes s.row.lUnit32, a ≠ Spec.unitAddr s.row + BitVec.ofNat 32 k) →
            t.mem.read a = s.mem.read a

/-- R129, 93 S6: a transaction that is never answered holds the engine with BUSY as it was: the command does not complete
and no further engine step changes anything. For a reload and for a store, in SAMPLE, in ROW_FINISH and in every later step
of the loop; for the first read of ROW_SETUP and ROW_RUN. Whether the store has changed its unit is a free choice of the
model's (log 19). -/
def Obligations.UnansweredTransactionStalls : Prop :=
  (∀ s : State, s.status.rowActive = true → 8 ≤ Spec.shiftOf s.row →
    s.busAnswer .read (Spec.reloadAddr s.row) 1 = .never →
      let x := { s with
        row := { s.row with
          curByte := Spec.nextByte s.row
          curBit := BitVec.ofNat 3 (Spec.shiftOf s.row % 8)
          curFrac := BitVec.ofNat 32 (s.row.curFrac.toNat % 65536) }
        engine := .hung }
      exec .sample s = .next x ∧ exec .rowFinish s = .next x ∧ (s.engine = .sampling → engineStep s = x)) ∧
  (∀ s : State, s.status.rowActive = true → Spec.AdvanceServed s →
    s.row.wCount.toNat + 1 = unitBits s.row.lUnit32 →
    s.busAnswer .write (Spec.unitAddr s.row) (unitBytes s.row.lUnit32) = .never →
      ∃ t : State, exec .sample s = .next t ∧ exec .rowFinish s = .next t ∧ (s.engine = .sampling → engineStep s = t)
        ∧ t.engine = .hung ∧ t.status = s.status ∧ t.cfg = s.cfg
        ∧ t.row = { (Spec.advanced s).row with
            acc := Spec.accWith (Spec.advanced s).row
            wCount := s.row.wCount + 1 }
        ∧ (s.raced = [] → t.mem = s.mem ∨
            t.mem = s.mem.writeList (Spec.unitAddr s.row)
              (Spec.unitData s.row.lUnit32 (Spec.accWith (Spec.advanced s).row)))
        ∧ ∀ a : Word, (∀ k < unitBytes s.row.lUnit32, a ≠ Spec.unitAddr s.row + BitVec.ofNat 32 k) →
            t.mem.read a = s.mem.read a) ∧
  (∀ (s : State) (y : Nat) (i : Instr), i = .rowSetup y ∨ i = .rowRun y → Spec.ChecksPass s.par s.cfg y →
    s.busAnswer .read (Spec.firstSrc s.cfg y) 1 = .never →
      exec i s = .next { s with row := Spec.setupRow s.par s.cfg y s.row, engine := .hung }) ∧
  ∀ (s : State) (n : Nat), s.engine = .hung → engineSteps n s = s

/-- R81, R182, R241: whatever SAMPLE ends in, it changes no configuration register, no latch and no byte outside the unit
at the write cursor. -/
def Obligations.SampleFrame : Prop :=
  ∀ s t : State, exec .sample s = .next t →
    t.par = s.par ∧ t.cfg = s.cfg ∧ t.platform = s.platform ∧ t.host = s.host ∧ t.reply = s.reply
      ∧ Spec.SameLatches t.row s.row ∧ t.status.ovr = s.status.ovr
      ∧ ∀ a : Word, (∀ k < unitBytes s.row.lUnit32, a ≠ Spec.unitAddr s.row + BitVec.ofNat 32 k) →
          t.mem.read a = s.mem.read a

/-- R81, R160: whatever ROW_SETUP ends in, it changes no configuration register and no byte of memory. -/
def Obligations.RowSetupFrame : Prop :=
  ∀ (s t : State) (y : Nat), exec (.rowSetup y) s = .next t →
    t.par = s.par ∧ t.cfg = s.cfg ∧ t.platform = s.platform ∧ t.host = s.host ∧ t.reply = s.reply
      ∧ t.status.ovr = s.status.ovr ∧ t.mem = s.mem

/-! ### Whole rows -/

/-- R168, R169: on a sound active row whose accesses are all performed, ROW_FINISH ends the row with all its units
stored, without an error, and changes no configuration register and no latch. -/
def Obligations.RowFinishCompletesRow : Prop :=
  ∀ s : State, s.status.rowActive = true → RowInv s.par s.row → s.RowServed s.row →
    ∃ t : State, exec .rowFinish s = .next t
      ∧ t.status = { s.status with busy := false, done := true, rowActive := false } ∧ t.engine = .idle
      ∧ t.row.unitIdx.toNat = numUnits s.par s.row.lUnit32 ∧ t.row.wCount = 0 ∧ t.row.acc = 0
      ∧ Spec.SameLatches t.row s.row ∧ t.cfg = s.cfg

/-- R170: with the checks passed and all accesses performed, ROW_RUN latches its row, stores all its units and ends with
ROW_ACTIVE = 0, without an error. -/
def Obligations.RowRunCompletesRow : Prop :=
  ∀ (s : State) (y : Nat), s.par.wf → Spec.ChecksPass s.par s.cfg y →
    s.RowServed (Spec.setupRow s.par s.cfg y s.row) →
    ∃ t : State, exec (.rowRun y) s = .next t
      ∧ t.status = { s.status with busy := false, done := true, rowActive := false } ∧ t.engine = .idle
      ∧ t.row.unitIdx.toNat = numUnits s.par s.cfg.unit32 ∧ t.row.wCount = 0 ∧ t.row.acc = 0
      ∧ Spec.SameLatches t.row (Spec.setupRow s.par s.cfg y s.row) ∧ t.cfg = s.cfg

/-- R171: sample `j` of a row is the source pixel at `(Q0 + ((F0 + j × S) >> 16)) mod Ls`, and it is destination pixel
`j`, for both unit widths: what ROW_RUN writes, where no host write races and the two rows have no byte in common. -/
def Obligations.RowRunFollowsPositionLaw : Prop :=
  ∀ (s t : State) (y j : Nat), s.par.wf → s.mem.wf → s.raced = [] → Spec.ChecksPass s.par s.cfg y →
    s.RowServed (Spec.setupRow s.par s.cfg y s.row) → RowsApart s.par (Spec.setupRow s.par s.cfg y s.row) →
    exec (.rowRun y) s = .next t → j < numSamples s.par →
      Spec.pixel t.mem (Spec.dstRow s.par s.cfg y) j = Spec.pixel s.mem (Spec.srcRow s.cfg y) (Spec.position s.cfg j)

/-- R172: at scale 1.0 and an offset of `8m` whole pixels, destination byte `k` is source byte `(m + k) mod L_STRIDE` of
the row, for `m` inside the row's width, and for every `m` where the row has no padding bytes. -/
def Obligations.ScaleOneCopiesBytes : Prop :=
  ∀ (s t : State) (y k : Nat) (m : Int), s.par.wf → s.mem.wf → s.raced = [] → Spec.ChecksPass s.par s.cfg y →
    s.RowServed (Spec.setupRow s.par s.cfg y s.row) → RowsApart s.par (Spec.setupRow s.par s.cfg y s.row) →
    s.cfg.scaleFx = 0x00010000 → s.cfg.offsetFx.toInt = 8 * m * 65536 →
    (0 ≤ m ∧ m < (s.cfg.srcWidth.toNat / 8 : Nat)) ∨ s.cfg.srcStride.toNat = s.cfg.srcWidth.toNat / 8 →
    exec (.rowRun y) s = .next t → k < rowSize s.par →
      t.mem.read (Spec.dstRow s.par s.cfg y + BitVec.ofNat 32 k) =
        s.mem.read (Spec.srcRow s.cfg y + BitVec.ofNat 32 ((m + k) % (s.cfg.srcStride.toNat : Int)).toNat)

/-- R84, R185: ROW_RUN with N = 8 and with N = 32 leaves the same bytes, where no host write races and the rows have no
byte in common. -/
def Obligations.UnitWidthsWriteSameBytes : Prop :=
  ∀ (s t u : State) (y : Nat) (a : Word), s.par.wf → s.mem.wf → s.raced = [] → s.cfg.unit32 = true →
    Spec.ChecksPass s.par s.cfg y →
    s.RowServed (Spec.setupRow s.par s.cfg y s.row) →
    s.RowServed (Spec.setupRow s.par { s.cfg with unit32 := false } y s.row) →
    RowsApart s.par (Spec.setupRow s.par s.cfg y s.row) →
    exec (.rowRun y) s = .next t → exec (.rowRun y) { s with cfg := { s.cfg with unit32 := false } } = .next u →
      t.mem.read a = u.mem.read a

/-- R168, R171, R186: ROW_SETUP, then `k` SAMPLEs, then ROW_FINISH is the same as ROW_RUN, and so are ROW_SETUP and
NSAMPLES SAMPLEs, where every access is performed and no host step comes between. -/
def Obligations.SteppedRowEqualsRowRun : Prop :=
  ∀ (s : State) (y : Nat), s.par.wf → Spec.ChecksPass s.par s.cfg y → s.raced = [] →
    s.RowServed (Spec.setupRow s.par s.cfg y s.row) →
    (∀ k < numSamples s.par,
      runCommands (.rowSetup y :: List.replicate k .sample ++ [.rowFinish]) s = runCommands [.rowRun y] s) ∧
    runCommands (.rowSetup y :: List.replicate (numSamples s.par) .sample) s = runCommands [.rowRun y] s

/-- R69, R169: from a sound active row whose accesses are performed, each SAMPLE takes exactly one sample more, and
ROW_ACTIVE falls to 0 exactly with the NSAMPLES-th. -/
def Obligations.EachSampleIsCounted : Prop :=
  ∀ s : State, s.status.rowActive = true → RowInv s.par s.row → s.RowServed s.row →
    ∃ t : State, exec .sample s = .next t ∧ Spec.taken t.row = Spec.taken s.row + 1
      ∧ (t.status.rowActive = false ↔ Spec.taken t.row = numSamples s.par)

/-- R81, R170: ROW_RUN changes no byte outside its destination row, and no configuration register, whatever it ends in. -/
def Obligations.RowRunFrame : Prop :=
  ∀ (s t : State) (y : Nat), exec (.rowRun y) s = .next t →
    t.par = s.par ∧ t.cfg = s.cfg ∧ t.platform = s.platform ∧ t.host = s.host ∧ t.reply = s.reply
      ∧ t.status.ovr = s.status.ovr
      ∧ (s.par.wf → ∀ a : Word, (∀ j < rowSize s.par, a ≠ Spec.dstRow s.par s.cfg y + BitVec.ofNat 32 j) →
          t.mem.read a = s.mem.read a)

/-- R81, R168: ROW_FINISH changes no byte outside the active row's destination row, no latch and no configuration
register, whatever it ends in. -/
def Obligations.RowFinishFrame : Prop :=
  ∀ s t : State, exec .rowFinish s = .next t →
    t.par = s.par ∧ t.cfg = s.cfg ∧ t.platform = s.platform ∧ t.host = s.host ∧ t.reply = s.reply
      ∧ t.status.ovr = s.status.ovr ∧ Spec.SameLatches t.row s.row
      ∧ ((s.status.rowActive = true → RowInv s.par s.row) →
          ∀ a : Word, (∀ j < rowSize s.par, a ≠ s.row.lDstRow + BitVec.ofNat 32 j) → t.mem.read a = s.mem.read a)

/-- R123, R241, R68: what SAMPLE and ROW_FINISH do to an active row does not depend on the configuration registers. -/
def Obligations.ActiveRowIgnoresConfiguration : Prop :=
  ∀ (s t : State) (c : ConfigRegs) (i : Instr), i = .sample ∨ i = .rowFinish → exec i s = .next t →
    exec i { s with cfg := c } = .next { t with cfg := c }

/-- R237: what ROW_RUN leaves in memory depends on the configuration, the source and the platform only, not on an older
row's state, STATUS or the host. -/
def Obligations.RowsAreIndependent : Prop :=
  ∀ (s u t v : State) (y : Nat), s.par = u.par → s.cfg = u.cfg → s.mem = u.mem → s.platform = u.platform →
    s.raced = u.raced → s.draws = u.draws →
    exec (.rowRun y) s = .next t → exec (.rowRun y) u = .next v → t.mem = v.mem

/-! ### Rules of the whole machine -/

/-- R128: a command run as one step is the sequence of its atomic engine steps, within the bound of R129. -/
def Obligations.CommandIsItsEngineSteps : Prop :=
  ∀ (s : State) (w : Word) (i : Instr), s.engine = .accepted w → decode w = .ok i →
    exec i s = .next (engineSteps (stepBound s.par i) s)

/-- R129: in a sound state, where every transaction is answered, every accepted command completes within its bound. -/
def Obligations.AcceptedCommandsTerminate : Prop :=
  ∀ (s : State) (w : Word) (i : Instr), Inv s → s.Answered → s.engine = .accepted w → decode w = .ok i →
    (engineSteps (stepBound s.par i) s).engine = .idle ∧
      (engineSteps (stepBound s.par i) s).status.busy = false ∧
      (engineSteps (stepBound s.par i) s).status.done = true

/-- R41, R205, R208: while ERR = 1 no command changes ERR or ERRCODE, whatever it raises. -/
def Obligations.FirstErrorIsKept : Prop :=
  ∀ (s t : State) (i : Instr), s.status.err = true → exec i s = .next t →
    t.status.err = true ∧ t.status.errCode = s.status.errCode

/-- R124, R142, R144: a command changes no configuration register but SCALE_FX, which only CVT_SCALE writes, and
OFFSET_FX, which only CVT_OFFSET writes. -/
def Obligations.CommandsKeepConfiguration : Prop :=
  ∀ (s t : State) (i : Instr), exec i s = .next t →
    t.cfg = { s.cfg with scaleFx := t.cfg.scaleFx, offsetFx := t.cfg.offsetFx } ∧
      (i ≠ .cvtScale → t.cfg.scaleFx = s.cfg.scaleFx) ∧ (i ≠ .cvtOffset → t.cfg.offsetFx = s.cfg.offsetFx)

/-- R240, 93 S5: an engine read returns the byte memory holds or one it held before a host write that raced with the
command. The statement holds for every value of the draws. -/
def Obligations.RacedReadSeesOldOrNew : Prop :=
  ∀ (s : State) (a : Word), s.seen a = s.mem.read a ∨ ∃ c ∈ s.raced, c.1 = a.toNat ∧ s.seen a = c.2

/-- R240, 93 S5: a store's byte ends as the engine's value, or, where the host raced it, as the host's. -/
def Obligations.RacedStoreLeavesEitherValue : Prop :=
  ∀ (s : State) (a : Word) (v : Byte), s.mem.wf →
    ((s.storeByte a v).mem.read a = v ∨ (s.isRaced a = true ∧ (s.storeByte a v).mem.read a = s.mem.read a)) ∧
      ∀ b : Word, b ≠ a → (s.storeByte a v).mem.read b = s.mem.read b

/-! ### Register words, and the host's accesses to memory -/

/-- R37 to R44, R46 to R68: what each register's word shows of the state, bit by bit where it has fields. -/
def Obligations.RegisterWordsShowFields : Prop :=
  ∀ s : State,
    (∀ k, (s.regValue .ctrl).getLsbD k =
      (if k = 0 then s.cfg.unit32 else if k = 1 then s.cfg.irqEn else false)) ∧
    (∀ k, (s.regValue .status).getLsbD k =
      (if k = 0 then s.status.busy
      else if k = 1 then s.status.done
      else if k = 2 then s.status.err
      else if k = 3 then s.status.rowActive
      else if k = 4 then s.status.ovr
      else if 8 ≤ k ∧ k ≤ 11 then s.status.errCode.getLsbD (k - 8)
      else false)) ∧
    (∀ k, (s.regValue .lCfg).getLsbD k =
      (if k < 16 then s.row.lStride.getLsbD k else if k = 16 then s.row.lUnit32 else false)) ∧
    s.regValue .cmd = 0 ∧
    (s.regValue .srcBase = s.cfg.srcBase ∧ (s.regValue .srcWidth).toNat = s.cfg.srcWidth.toNat ∧
      (s.regValue .srcHeight).toNat = s.cfg.srcHeight.toNat ∧ (s.regValue .srcStride).toNat = s.cfg.srcStride.toNat ∧
      (s.regValue .vOff).toNat = s.cfg.vOff.toNat ∧ s.regValue .dstBase = s.cfg.dstBase ∧
      s.regValue .scaleFx = s.cfg.scaleFx ∧ s.regValue .offsetFx = s.cfg.offsetFx ∧
      s.regValue .scaleF32 = s.cfg.scaleF32 ∧ s.regValue .offsetF32 = s.cfg.offsetF32) ∧
    (s.regValue .curByte).toNat = s.row.curByte.toNat ∧ (s.regValue .curBit).toNat = s.row.curBit.toNat ∧
      s.regValue .curFrac = s.row.curFrac ∧ s.regValue .acc = s.row.acc ∧
      (s.regValue .wCount).toNat = s.row.wCount.toNat ∧ (s.regValue .unitIdx).toNat = s.row.unitIdx.toNat ∧
      (s.regValue .srcByte).toNat = s.row.srcByte.toNat ∧ (s.regValue .rowY).toNat = s.row.rowY.toNat ∧
      (s.regValue .srcRowIdx).toNat = s.row.srcRowIdx.toNat ∧ s.regValue .lSrcRow = s.row.lSrcRow ∧
      s.regValue .lDstRow = s.row.lDstRow ∧ s.regValue .lScale = s.row.lScale

/-- R91, R239, R240, 93 S5: a byte the host writes to memory takes the host's value while BUSY = 0, and while BUSY = 1
unless the running command has issued a store of it, when it may keep that store's value; the engine's later accesses may
still see the byte before. No other byte and no register changes. The statement holds for every value of the draws (log 8,
log 20). -/
def Obligations.HostWritesStandOrRace : Prop :=
  ∀ (s : State) (a : Word) (vs : List Byte) (rest : List HostStep), s.mem.wf → vs.length ≤ 2 ^ 32 →
    s.host = { delay := 0, act := .memWrite a vs } :: rest →
      ∃ t : State, step s = .next t
        ∧ t = { s with mem := t.mem, raced := t.raced, draws := t.draws, host := rest, reply := .done }
        ∧ (s.status.busy = false → t.raced = s.raced ∧ t.draws = s.draws ∧ t.mem = s.mem.writeList a vs)
        ∧ (∀ b : Word, (∀ k < vs.length, b ≠ a + BitVec.ofNat 32 k) → t.mem.read b = s.mem.read b)
        ∧ ∀ k < vs.length,
          (some (t.mem.read (a + BitVec.ofNat 32 k)) = vs[k]? ∨
            (s.status.busy = true ∧ ∃ u ∈ s.stored, ∃ j < u.new.length,
              a + BitVec.ofNat 32 k = u.addr + BitVec.ofNat 32 j ∧
                some (t.mem.read (a + BitVec.ofNat 32 k)) = u.new[j]?)) ∧
          (s.status.busy = true →
            ((a + BitVec.ofNat 32 k).toNat, s.mem.read (a + BitVec.ofNat 32 k)) ∈ t.raced ∧ ∀ c ∈ s.raced, c ∈ t.raced)

/-- R87, R91, 93 S4: a host read of memory returns what memory holds while BUSY = 0, and while BUSY = 1 outside the units
the running command has issued a store of; of each such unit it returns, whole, what memory holds, the unit's old bytes or
its new bytes. Nothing but the draws changes. The statement holds for every value of the draws (log 9). -/
def Obligations.HostReadsSeeOldOrNewUnits : Prop :=
  ∀ (s : State) (a : Word) (n : Nat) (rest : List HostStep), Inv s →
    s.host = { delay := 0, act := .memRead a n } :: rest →
      ∃ (d : Nat) (bs : List Byte), step s = .next { s with draws := d, host := rest, reply := .bytes bs }
        ∧ bs.length = n
        ∧ (s.status.busy = false → d = s.draws ∧ bs = s.mem.readList a n)
        ∧ (∀ k < n, (∀ u ∈ s.stored, ∀ j < u.new.length, a + BitVec.ofNat 32 k ≠ u.addr + BitVec.ofNat 32 j) →
            bs[k]? = some (s.mem.read (a + BitVec.ofNat 32 k)))
        ∧ ∀ i < numUnits s.par s.row.lUnit32,
          (∀ k < n, ∀ j < unitBytes s.row.lUnit32,
            a + BitVec.ofNat 32 k = Spec.unitAt s.row i + BitVec.ofNat 32 j →
              bs[k]? = some (s.mem.read (a + BitVec.ofNat 32 k))) ∨
          ∃ u ∈ s.stored, u.addr = Spec.unitAt s.row i ∧ ∃ old : Bool,
            ∀ k < n, ∀ j < unitBytes s.row.lUnit32,
              a + BitVec.ofNat 32 k = Spec.unitAt s.row i + BitVec.ofNat 32 j →
                bs[k]? = if old then u.old[j]? else u.new[j]?
end

