-- ==== Sys2Proof/Laws/Memory.lean ====
section
/-! SUPPORT. The laws of memory: a read after a write, and that every memory operation keeps the canonical form. -/

namespace Sys2Proof.Machine

@[simp] theorem Memory.readCells_nil (a : Nat) : Memory.readCells [] a = Memory.unwritten := rfl

theorem Memory.readCells_cons (c : Host.Cell) (cs : List Host.Cell) (a : Nat) :
    Memory.readCells (c :: cs) a = if a = c.1 then c.2 else Memory.readCells cs a := rfl

theorem Memory.writeCells_cons (c : Host.Cell) (cs : List Host.Cell) (a : Nat) (v : Byte) :
    Memory.writeCells (c :: cs) a v =
      if a < c.1 then if v = Memory.unwritten then c :: cs else (a, v) :: c :: cs
      else if a = c.1 then if v = Memory.unwritten then cs else (a, v) :: cs
      else c :: Memory.writeCells cs a v := rfl

/-- An address below every listed one reads as unwritten. -/
theorem Memory.readCells_of_lt {cs : List Host.Cell} {a : Nat} (h : ∀ c ∈ cs, a < c.1) :
    Memory.readCells cs a = Memory.unwritten := by
  induction cs with
  | nil => rfl
  | cons c cs ih =>
    have := h c (by simp)
    rw [Memory.readCells_cons, if_neg (by omega), ih fun d hd => h d (by simp [hd])]

/-- A read of another address is untouched by a write. -/
theorem Memory.readCells_writeCells_ne (cs : List Host.Cell) {a b : Nat} (v : Byte) (h : b ≠ a) :
    Memory.readCells (Memory.writeCells cs a v) b = Memory.readCells cs b := by
  induction cs with
  | nil => by_cases hv : v = Memory.unwritten <;> simp [Memory.writeCells, hv, Memory.readCells_cons, h]
  | cons c cs ih =>
    rw [Memory.writeCells_cons]
    by_cases h1 : a < c.1
    · by_cases hv : v = Memory.unwritten <;> simp [h1, hv, Memory.readCells_cons, h]
    · by_cases h2 : a = c.1
      · have h3 : b ≠ c.1 := by omega
        by_cases hv : v = Memory.unwritten <;> simp [h2, hv, Memory.readCells_cons, h3]
      · simp only [h1, h2, if_false, Memory.readCells_cons, ih]

/-- A read of a written address gives the value written. -/
theorem Memory.readCells_writeCells_same {cs : List Host.Cell} {a : Nat} (v : Byte)
    (hs : cs.Pairwise fun c d => c.1 < d.1) : Memory.readCells (Memory.writeCells cs a v) a = v := by
  induction cs with
  | nil => by_cases hv : v = Memory.unwritten <;> simp [Memory.writeCells, hv, Memory.readCells_cons]
  | cons c cs ih =>
    rw [List.pairwise_cons] at hs
    rw [Memory.writeCells_cons]
    by_cases h1 : a < c.1
    · by_cases hv : v = Memory.unwritten
      · simp only [h1, if_true, hv]
        apply Memory.readCells_of_lt
        intro d hd
        rcases List.mem_cons.1 hd with rfl | hd
        · exact h1
        · exact h1.trans (hs.1 d hd)
      · simp [h1, hv, Memory.readCells_cons]
    · by_cases h2 : a = c.1
      · by_cases hv : v = Memory.unwritten
        · simp only [h2, if_true, if_false, hv, lt_irrefl]
          exact Memory.readCells_of_lt fun d hd => hs.1 d hd
        · simp [h2, hv, Memory.readCells_cons]
      · simp only [h1, h2, if_false, Memory.readCells_cons, ih hs.2]

/-- A write lists no address but the written one beside those listed before. -/
theorem Memory.mem_writeCells {cs : List Host.Cell} {a : Nat} {v : Byte} {d : Host.Cell}
    (h : d ∈ Memory.writeCells cs a v) : d ∈ cs ∨ (d = (a, v) ∧ v ≠ Memory.unwritten) := by
  induction cs with
  | nil =>
    by_cases hv : v = Memory.unwritten
    · simp [Memory.writeCells, hv] at h
    · simp only [Memory.writeCells, hv, if_false, List.mem_singleton] at h
      exact .inr ⟨h, hv⟩
  | cons c cs ih =>
    rw [Memory.writeCells_cons] at h
    split_ifs at h with h1 hv h2 hv
    · exact .inl h
    · rcases List.mem_cons.1 h with h | h
      · exact .inr ⟨h, hv⟩
      · exact .inl h
    · exact .inl (List.mem_cons_of_mem _ h)
    · rcases List.mem_cons.1 h with h | h
      · exact .inr ⟨h, hv⟩
      · exact .inl (List.mem_cons_of_mem _ h)
    · rcases List.mem_cons.1 h with h | h
      · exact .inl (by simp [h])
      · rcases ih h with h | h
        · exact .inl (List.mem_cons_of_mem _ h)
        · exact .inr h

theorem Memory.writeCells_sorted {cs : List Host.Cell} (a : Nat) (v : Byte)
    (hs : cs.Pairwise fun c d => c.1 < d.1) : (Memory.writeCells cs a v).Pairwise fun c d => c.1 < d.1 := by
  induction cs with
  | nil => by_cases hv : v = Memory.unwritten <;> simp [Memory.writeCells, hv]
  | cons c cs ih =>
    rw [List.pairwise_cons] at hs
    rw [Memory.writeCells_cons]
    split_ifs with h1 hv h2 hv
    · exact List.pairwise_cons.2 hs
    · refine List.pairwise_cons.2 ⟨fun d hd => ?_, List.pairwise_cons.2 hs⟩
      rcases List.mem_cons.1 hd with rfl | hd
      · exact h1
      · exact h1.trans (hs.1 d hd)
    · exact hs.2
    · exact List.pairwise_cons.2 ⟨fun d hd => by have := hs.1 d hd; simp only; omega, hs.2⟩
    · refine List.pairwise_cons.2 ⟨fun d hd => ?_, ih hs.2⟩
      rcases Memory.mem_writeCells hd with hd | ⟨rfl, -⟩
      · exact hs.1 d hd
      · simp only; omega

/-- A write keeps the canonical form. -/
theorem Memory.write_wf {m : Memory} (h : m.wf) (a : Word) (v : Byte) : (m.write a v).wf := by
  refine ⟨Memory.writeCells_sorted _ _ h.1, fun c hc => ?_⟩
  rcases Memory.mem_writeCells hc with hc | ⟨rfl, hv⟩
  · exact h.2 c hc
  · exact ⟨a.isLt, hv⟩

theorem Memory.writeList_wf {m : Memory} (h : m.wf) (a : Word) (vs : List Byte) : (m.writeList a vs).wf := by
  induction vs generalizing m a with
  | nil => exact h
  | cons v vs ih => exact ih (Memory.write_wf h a v) (a + 1)

theorem Memory.read_write_same {m : Memory} (h : m.wf) (a : Word) (v : Byte) : (m.write a v).read a = v :=
  Memory.readCells_writeCells_same v h.1

theorem Memory.read_write_ne (m : Memory) {a b : Word} (v : Byte) (h : b ≠ a) :
    (m.write a v).read b = m.read b :=
  Memory.readCells_writeCells_ne _ _ fun e => h (BitVec.eq_of_toNat_eq e)

/-- A read outside the written addresses is untouched. -/
theorem Memory.read_writeList_of_ne (m : Memory) (a b : Word) (vs : List Byte)
    (h : ∀ k < vs.length, b ≠ a + BitVec.ofNat 32 k) : (m.writeList a vs).read b = m.read b := by
  induction vs generalizing m a with
  | nil => rfl
  | cons v vs ih =>
    rw [Memory.writeList, ih]
    · exact Memory.read_write_ne _ _ (by simpa using h 0 (by simp))
    · intro k hk
      have := h (k + 1) (by simpa using hk)
      rwa [BitVec.add_assoc, show (1 : Word) + BitVec.ofNat 32 k = BitVec.ofNat 32 (k + 1) by
        rw [BitVec.ofNat_add, BitVec.add_comm]; rfl]

@[simp] theorem Memory.readList_length (m : Memory) (a : Word) (n : Nat) : (m.readList a n).length = n := by
  induction n generalizing a with
  | zero => rfl
  | succ n ih => rw [Memory.readList, List.length_cons, ih]

/-- The bytes of a read of several, one by one. -/
theorem Memory.readList_getElem (m : Memory) (a : Word) {n k : Nat} (h : k < n) :
    (m.readList a n)[k]? = some (m.read (a + BitVec.ofNat 32 k)) := by
  induction n generalizing a k with
  | zero => omega
  | succ n ih =>
    cases k with
    | zero => simp [Memory.readList]
    | succ k =>
      rw [Memory.readList, List.getElem?_cons_succ, ih (a + 1) (by omega), BitVec.add_assoc,
        show (1 : Word) + BitVec.ofNat 32 k = BitVec.ofNat 32 (k + 1) by
          rw [BitVec.ofNat_add, BitVec.add_comm]; rfl]

/-- A written byte reads as written. -/
theorem Memory.read_writeList_same {m : Memory} (h : m.wf) (a : Word) {vs : List Byte} (hl : vs.length ≤ 2 ^ 32)
    {k : Nat} (hk : k < vs.length) : some ((m.writeList a vs).read (a + BitVec.ofNat 32 k)) = vs[k]? := by
  induction vs generalizing m a k with
  | nil => simp at hk
  | cons v vs ih =>
    cases k with
    | zero =>
      rw [Memory.writeList, Memory.read_writeList_of_ne]
      · simp [Memory.read_write_same h]
      · intro j hj he
        have := congrArg BitVec.toNat he
        simp only [List.length_cons] at hl
        have ha := a.isLt
        rw [BitVec.toNat_add, BitVec.toNat_add, BitVec.toNat_add, BitVec.toNat_ofNat, BitVec.toNat_ofNat,
          show (1 : Word).toNat = 1 from rfl] at this
        omega
    | succ k =>
      rw [List.getElem?_cons_succ, ← ih (Memory.write_wf h a v) (a + 1) (by simp at hl; omega) (by simpa using hk),
        Memory.writeList, BitVec.add_assoc, show (1 : Word) + BitVec.ofNat 32 k = BitVec.ofNat 32 (k + 1) by
          rw [BitVec.ofNat_add, BitVec.add_comm]; rfl]

/-- Two memories in canonical form that read the same everywhere are the same data. -/
theorem Memory.ext_read {m n : Memory} (hm : m.wf) (hn : n.wf) (h : ∀ a : Word, m.read a = n.read a) : m = n := by
  obtain ⟨cs⟩ := m
  obtain ⟨ds⟩ := n
  have h' : ∀ a < 2 ^ 32, Memory.readCells cs a = Memory.readCells ds a := fun a ha => by
    simpa only [Memory.read, BitVec.toNat_ofNat, Nat.mod_eq_of_lt ha] using h (BitVec.ofNat 32 a)
  clear h
  congr 1
  induction cs generalizing ds with
  | nil =>
    cases ds with
    | nil => rfl
    | cons d ds =>
      have hd := hn.2 d (by simp)
      have := h' d.1 hd.1
      rw [Memory.readCells_nil, Memory.readCells_cons, if_pos rfl] at this
      exact absurd this.symm hd.2
  | cons c cs ih =>
    have hc := hm.2 c (by simp)
    cases ds with
    | nil =>
      have := h' c.1 hc.1
      rw [Memory.readCells_nil, Memory.readCells_cons, if_pos rfl] at this
      exact absurd this hc.2
    | cons d ds =>
      have hd := hn.2 d (by simp)
      have hcs := List.pairwise_cons.1 hm.1
      have hds := List.pairwise_cons.1 hn.1
      have hcd : c = d := by
        have h1 := h' c.1 hc.1
        have h2 := h' d.1 hd.1
        rw [Memory.readCells_cons, if_pos rfl, Memory.readCells_cons] at h1
        rw [Memory.readCells_cons, Memory.readCells_cons, if_pos rfl] at h2
        rcases lt_trichotomy c.1 d.1 with hlt | heq | hgt
        · rw [if_neg (by omega), Memory.readCells_of_lt fun e he => hlt.trans (hds.1 e he)] at h1
          exact absurd h1 hc.2
        · rw [if_pos heq] at h1
          exact Prod.ext heq h1
        · rw [if_neg (by omega), Memory.readCells_of_lt fun e he => hgt.trans (hcs.1 e he)] at h2
          exact absurd h2.symm hd.2
      subst hcd
      rw [ih ⟨hcs.2, fun e he => hm.2 e (List.mem_cons_of_mem _ he)⟩ ds
        ⟨hds.2, fun e he => hn.2 e (List.mem_cons_of_mem _ he)⟩ fun a ha => ?_]
      by_cases hac : a = c.1
      · rw [hac, Memory.readCells_of_lt fun e he => hcs.1 e he, Memory.readCells_of_lt fun e he => hds.1 e he]
      · simpa [Memory.readCells_cons, hac] using h' a ha

end Sys2Proof.Machine
end

