-- ==== Sys2Proof/Laws/State.lean ====
section
/-! SUPPORT. One lemma per field per update of the state, so that no later proof unfolds a record update. -/

namespace Sys2Proof.Machine

/-! ### Acceptance, the end of a body, completion -/

@[simp] theorem State.accept_par (s : State) (w : Word) : (s.accept w).par = s.par := rfl
@[simp] theorem State.accept_cfg (s : State) (w : Word) : (s.accept w).cfg = s.cfg := rfl
@[simp] theorem State.accept_status (s : State) (w : Word) : (s.accept w).status = { s.status with busy := true, done := false } := rfl
@[simp] theorem State.accept_row (s : State) (w : Word) : (s.accept w).row = s.row := rfl
@[simp] theorem State.accept_engine (s : State) (w : Word) : (s.accept w).engine = .accepted w := rfl
@[simp] theorem State.accept_mem (s : State) (w : Word) : (s.accept w).mem = s.mem := rfl
@[simp] theorem State.accept_platform (s : State) (w : Word) : (s.accept w).platform = s.platform := rfl
@[simp] theorem State.accept_raced (s : State) (w : Word) : (s.accept w).raced = s.raced := rfl
@[simp] theorem State.accept_stored (s : State) (w : Word) : (s.accept w).stored = s.stored := rfl
@[simp] theorem State.accept_draws (s : State) (w : Word) : (s.accept w).draws = s.draws := rfl
@[simp] theorem State.accept_host (s : State) (w : Word) : (s.accept w).host = s.host := rfl
@[simp] theorem State.accept_reply (s : State) (w : Word) : (s.accept w).reply = s.reply := rfl
@[simp] theorem State.endBody_par (s : State) : (s.endBody).par = s.par := rfl
@[simp] theorem State.endBody_cfg (s : State) : (s.endBody).cfg = s.cfg := rfl
@[simp] theorem State.endBody_status (s : State) : (s.endBody).status = s.status := rfl
@[simp] theorem State.endBody_row (s : State) : (s.endBody).row = s.row := rfl
@[simp] theorem State.endBody_engine (s : State) : (s.endBody).engine = .completing none := rfl
@[simp] theorem State.endBody_mem (s : State) : (s.endBody).mem = s.mem := rfl
@[simp] theorem State.endBody_platform (s : State) : (s.endBody).platform = s.platform := rfl
@[simp] theorem State.endBody_raced (s : State) : (s.endBody).raced = s.raced := rfl
@[simp] theorem State.endBody_stored (s : State) : (s.endBody).stored = s.stored := rfl
@[simp] theorem State.endBody_draws (s : State) : (s.endBody).draws = s.draws := rfl
@[simp] theorem State.endBody_host (s : State) : (s.endBody).host = s.host := rfl
@[simp] theorem State.endBody_reply (s : State) : (s.endBody).reply = s.reply := rfl
@[simp] theorem State.complete_par (s : State) : (s.complete).par = s.par := rfl
@[simp] theorem State.complete_cfg (s : State) : (s.complete).cfg = s.cfg := rfl
@[simp] theorem State.complete_status (s : State) : (s.complete).status = { s.status with busy := false, done := true } := rfl
@[simp] theorem State.complete_row (s : State) : (s.complete).row = s.row := rfl
@[simp] theorem State.complete_engine (s : State) : (s.complete).engine = .idle := rfl
@[simp] theorem State.complete_mem (s : State) : (s.complete).mem = s.mem := rfl
@[simp] theorem State.complete_platform (s : State) : (s.complete).platform = s.platform := rfl
@[simp] theorem State.complete_raced (s : State) : (s.complete).raced = [] := rfl
@[simp] theorem State.complete_stored (s : State) : (s.complete).stored = [] := rfl
@[simp] theorem State.complete_draws (s : State) : (s.complete).draws = s.draws := rfl
@[simp] theorem State.complete_host (s : State) : (s.complete).host = s.host := rfl
@[simp] theorem State.complete_reply (s : State) : (s.complete).reply = s.reply := rfl
@[simp] theorem State.withAccepted_par (s : State) (w : Word) : (s.withAccepted w).par = s.par := rfl
@[simp] theorem State.withAccepted_cfg (s : State) (w : Word) : (s.withAccepted w).cfg = s.cfg := rfl
@[simp] theorem State.withAccepted_status (s : State) (w : Word) : (s.withAccepted w).status = { s.status with busy := true, done := false } := rfl
@[simp] theorem State.withAccepted_row (s : State) (w : Word) : (s.withAccepted w).row = s.row := rfl
@[simp] theorem State.withAccepted_engine (s : State) (w : Word) : (s.withAccepted w).engine = .accepted w := rfl
@[simp] theorem State.withAccepted_mem (s : State) (w : Word) : (s.withAccepted w).mem = s.mem := rfl
@[simp] theorem State.withAccepted_platform (s : State) (w : Word) : (s.withAccepted w).platform = s.platform := rfl
@[simp] theorem State.withAccepted_raced (s : State) (w : Word) : (s.withAccepted w).raced = s.raced := rfl
@[simp] theorem State.withAccepted_stored (s : State) (w : Word) : (s.withAccepted w).stored = s.stored := rfl
@[simp] theorem State.withAccepted_draws (s : State) (w : Word) : (s.withAccepted w).draws = s.draws := rfl
@[simp] theorem State.withAccepted_host (s : State) (w : Word) : (s.withAccepted w).host = [] := rfl
@[simp] theorem State.withAccepted_reply (s : State) (w : Word) : (s.withAccepted w).reply = s.reply := rfl

/-! ### Errors -/

@[simp] theorem State.raiseError_par (s : State) (code : ErrCode) : (s.raiseError code).par = s.par := rfl
@[simp] theorem State.raiseError_cfg (s : State) (code : ErrCode) : (s.raiseError code).cfg = s.cfg := rfl
@[simp] theorem State.raiseError_status (s : State) (code : ErrCode) : (s.raiseError code).status = s.status.raise code := rfl
@[simp] theorem State.raiseError_row (s : State) (code : ErrCode) : (s.raiseError code).row = s.row := rfl
@[simp] theorem State.raiseError_engine (s : State) (code : ErrCode) : (s.raiseError code).engine = .completing none := rfl
@[simp] theorem State.raiseError_mem (s : State) (code : ErrCode) : (s.raiseError code).mem = s.mem := rfl
@[simp] theorem State.raiseError_platform (s : State) (code : ErrCode) : (s.raiseError code).platform = s.platform := rfl
@[simp] theorem State.raiseError_raced (s : State) (code : ErrCode) : (s.raiseError code).raced = s.raced := rfl
@[simp] theorem State.raiseError_stored (s : State) (code : ErrCode) : (s.raiseError code).stored = s.stored := rfl
@[simp] theorem State.raiseError_draws (s : State) (code : ErrCode) : (s.raiseError code).draws = s.draws := rfl
@[simp] theorem State.raiseError_host (s : State) (code : ErrCode) : (s.raiseError code).host = s.host := rfl
@[simp] theorem State.raiseError_reply (s : State) (code : ErrCode) : (s.raiseError code).reply = s.reply := rfl
@[simp] theorem State.raiseBusError_par (s : State) : (s.raiseBusError).par = s.par := rfl
@[simp] theorem State.raiseBusError_cfg (s : State) : (s.raiseBusError).cfg = s.cfg := rfl
@[simp] theorem State.raiseBusError_status (s : State) : (s.raiseBusError).status = Status.raise { s.status with rowActive := false } .bus := rfl
@[simp] theorem State.raiseBusError_row (s : State) : (s.raiseBusError).row = s.row := rfl
@[simp] theorem State.raiseBusError_engine (s : State) : (s.raiseBusError).engine = .completing none := rfl
@[simp] theorem State.raiseBusError_mem (s : State) : (s.raiseBusError).mem = s.mem := rfl
@[simp] theorem State.raiseBusError_platform (s : State) : (s.raiseBusError).platform = s.platform := rfl
@[simp] theorem State.raiseBusError_raced (s : State) : (s.raiseBusError).raced = s.raced := rfl
@[simp] theorem State.raiseBusError_stored (s : State) : (s.raiseBusError).stored = s.stored := rfl
@[simp] theorem State.raiseBusError_draws (s : State) : (s.raiseBusError).draws = s.draws := rfl
@[simp] theorem State.raiseBusError_host (s : State) : (s.raiseBusError).host = s.host := rfl
@[simp] theorem State.raiseBusError_reply (s : State) : (s.raiseBusError).reply = s.reply := rfl
@[simp] theorem State.clearStatus_par (s : State) (v : Word) : (s.clearStatus v).par = s.par := rfl
@[simp] theorem State.clearStatus_cfg (s : State) (v : Word) : (s.clearStatus v).cfg = s.cfg := rfl
@[simp] theorem State.clearStatus_status (s : State) (v : Word) : (s.clearStatus v).status = s.status.clear v := rfl
@[simp] theorem State.clearStatus_row (s : State) (v : Word) : (s.clearStatus v).row = s.row := rfl
@[simp] theorem State.clearStatus_engine (s : State) (v : Word) : (s.clearStatus v).engine = s.engine := rfl
@[simp] theorem State.clearStatus_mem (s : State) (v : Word) : (s.clearStatus v).mem = s.mem := rfl
@[simp] theorem State.clearStatus_platform (s : State) (v : Word) : (s.clearStatus v).platform = s.platform := rfl
@[simp] theorem State.clearStatus_raced (s : State) (v : Word) : (s.clearStatus v).raced = s.raced := rfl
@[simp] theorem State.clearStatus_stored (s : State) (v : Word) : (s.clearStatus v).stored = s.stored := rfl
@[simp] theorem State.clearStatus_draws (s : State) (v : Word) : (s.clearStatus v).draws = s.draws := rfl
@[simp] theorem State.clearStatus_host (s : State) (v : Word) : (s.clearStatus v).host = s.host := rfl
@[simp] theorem State.clearStatus_reply (s : State) (v : Word) : (s.clearStatus v).reply = s.reply := rfl
@[simp] theorem State.hang_par (s : State) : (s.hang).par = s.par := rfl
@[simp] theorem State.hang_cfg (s : State) : (s.hang).cfg = s.cfg := rfl
@[simp] theorem State.hang_status (s : State) : (s.hang).status = s.status := rfl
@[simp] theorem State.hang_row (s : State) : (s.hang).row = s.row := rfl
@[simp] theorem State.hang_engine (s : State) : (s.hang).engine = .hung := rfl
@[simp] theorem State.hang_mem (s : State) : (s.hang).mem = s.mem := rfl
@[simp] theorem State.hang_platform (s : State) : (s.hang).platform = s.platform := rfl
@[simp] theorem State.hang_raced (s : State) : (s.hang).raced = s.raced := rfl
@[simp] theorem State.hang_stored (s : State) : (s.hang).stored = s.stored := rfl
@[simp] theorem State.hang_draws (s : State) : (s.hang).draws = s.draws := rfl
@[simp] theorem State.hang_host (s : State) : (s.hang).host = s.host := rfl
@[simp] theorem State.hang_reply (s : State) : (s.hang).reply = s.reply := rfl

/-! ### Free values and reads -/

@[simp] theorem State.drawn_par (s : State) : (s.drawn).par = s.par := rfl
@[simp] theorem State.drawn_cfg (s : State) : (s.drawn).cfg = s.cfg := rfl
@[simp] theorem State.drawn_status (s : State) : (s.drawn).status = s.status := rfl
@[simp] theorem State.drawn_row (s : State) : (s.drawn).row = s.row := rfl
@[simp] theorem State.drawn_engine (s : State) : (s.drawn).engine = s.engine := rfl
@[simp] theorem State.drawn_mem (s : State) : (s.drawn).mem = s.mem := rfl
@[simp] theorem State.drawn_platform (s : State) : (s.drawn).platform = s.platform := rfl
@[simp] theorem State.drawn_raced (s : State) : (s.drawn).raced = s.raced := rfl
@[simp] theorem State.drawn_stored (s : State) : (s.drawn).stored = s.stored := rfl
@[simp] theorem State.drawn_draws (s : State) : (s.drawn).draws = s.draws + 1 := rfl
@[simp] theorem State.drawn_host (s : State) : (s.drawn).host = s.host := rfl
@[simp] theorem State.drawn_reply (s : State) : (s.drawn).reply = s.reply := rfl
@[simp] theorem State.afterRead_par (s : State) (a : Word) : (s.afterRead a).par = s.par := rfl
@[simp] theorem State.afterRead_cfg (s : State) (a : Word) : (s.afterRead a).cfg = s.cfg := rfl
@[simp] theorem State.afterRead_status (s : State) (a : Word) : (s.afterRead a).status = s.status := rfl
@[simp] theorem State.afterRead_row (s : State) (a : Word) : (s.afterRead a).row = s.row := rfl
@[simp] theorem State.afterRead_engine (s : State) (a : Word) : (s.afterRead a).engine = s.engine := rfl
@[simp] theorem State.afterRead_mem (s : State) (a : Word) : (s.afterRead a).mem = s.mem := rfl
@[simp] theorem State.afterRead_platform (s : State) (a : Word) : (s.afterRead a).platform = s.platform := rfl
@[simp] theorem State.afterRead_raced (s : State) (a : Word) : (s.afterRead a).raced = s.raced := rfl
@[simp] theorem State.afterRead_stored (s : State) (a : Word) : (s.afterRead a).stored = s.stored := rfl
@[simp] theorem State.afterRead_draws (s : State) (a : Word) : (s.afterRead a).draws = (seenByte (s.mem.read a) s.draws a.toNat s.raced).2 := rfl
@[simp] theorem State.afterRead_host (s : State) (a : Word) : (s.afterRead a).host = s.host := rfl
@[simp] theorem State.afterRead_reply (s : State) (a : Word) : (s.afterRead a).reply = s.reply := rfl
@[simp] theorem State.noteUnit_par (s : State) (u : StoredUnit) : (s.noteUnit u).par = s.par := rfl
@[simp] theorem State.noteUnit_cfg (s : State) (u : StoredUnit) : (s.noteUnit u).cfg = s.cfg := rfl
@[simp] theorem State.noteUnit_status (s : State) (u : StoredUnit) : (s.noteUnit u).status = s.status := rfl
@[simp] theorem State.noteUnit_row (s : State) (u : StoredUnit) : (s.noteUnit u).row = s.row := rfl
@[simp] theorem State.noteUnit_engine (s : State) (u : StoredUnit) : (s.noteUnit u).engine = s.engine := rfl
@[simp] theorem State.noteUnit_mem (s : State) (u : StoredUnit) : (s.noteUnit u).mem = s.mem := rfl
@[simp] theorem State.noteUnit_platform (s : State) (u : StoredUnit) : (s.noteUnit u).platform = s.platform := rfl
@[simp] theorem State.noteUnit_raced (s : State) (u : StoredUnit) : (s.noteUnit u).raced = s.raced := rfl
@[simp] theorem State.noteUnit_stored (s : State) (u : StoredUnit) : (s.noteUnit u).stored = u :: s.stored := rfl
@[simp] theorem State.noteUnit_draws (s : State) (u : StoredUnit) : (s.noteUnit u).draws = s.draws := rfl
@[simp] theorem State.noteUnit_host (s : State) (u : StoredUnit) : (s.noteUnit u).host = s.host := rfl
@[simp] theorem State.noteUnit_reply (s : State) (u : StoredUnit) : (s.noteUnit u).reply = s.reply := rfl

/-! ### The sample step's updates -/

@[simp] theorem addScale_par (s : State) : (addScale s).par = s.par := rfl
@[simp] theorem addScale_cfg (s : State) : (addScale s).cfg = s.cfg := rfl
@[simp] theorem addScale_status (s : State) : (addScale s).status = s.status := rfl
@[simp] theorem addScale_row (s : State) : (addScale s).row = { s.row with curFrac := s.row.curFrac + s.row.lScale } := rfl
@[simp] theorem addScale_engine (s : State) : (addScale s).engine = s.engine := rfl
@[simp] theorem addScale_mem (s : State) : (addScale s).mem = s.mem := rfl
@[simp] theorem addScale_platform (s : State) : (addScale s).platform = s.platform := rfl
@[simp] theorem addScale_raced (s : State) : (addScale s).raced = s.raced := rfl
@[simp] theorem addScale_stored (s : State) : (addScale s).stored = s.stored := rfl
@[simp] theorem addScale_draws (s : State) : (addScale s).draws = s.draws := rfl
@[simp] theorem addScale_host (s : State) : (addScale s).host = s.host := rfl
@[simp] theorem addScale_reply (s : State) : (addScale s).reply = s.reply := rfl
@[simp] theorem loadDone_par (s : State) : (loadDone s).par = s.par := rfl
@[simp] theorem loadDone_cfg (s : State) : (loadDone s).cfg = s.cfg := rfl
@[simp] theorem loadDone_status (s : State) : (loadDone s).status = s.status := rfl
@[simp] theorem loadDone_row (s : State) : (loadDone s).row = { s.row with srcByte := s.seen s.row.srcAddr } := rfl
@[simp] theorem loadDone_engine (s : State) : (loadDone s).engine = s.engine := rfl
@[simp] theorem loadDone_mem (s : State) : (loadDone s).mem = s.mem := rfl
@[simp] theorem loadDone_platform (s : State) : (loadDone s).platform = s.platform := rfl
@[simp] theorem loadDone_raced (s : State) : (loadDone s).raced = s.raced := rfl
@[simp] theorem loadDone_stored (s : State) : (loadDone s).stored = s.stored := rfl
@[simp] theorem loadDone_draws (s : State) : (loadDone s).draws = (seenByte (s.mem.read s.row.srcAddr) s.draws s.row.srcAddr.toNat s.raced).2 := rfl
@[simp] theorem loadDone_host (s : State) : (loadDone s).host = s.host := rfl
@[simp] theorem loadDone_reply (s : State) : (loadDone s).reply = s.reply := rfl

/-! ### STATUS -/

@[simp] theorem Status.clear_busy (t : Status) (v : Word) : (t.clear v).busy = t.busy := rfl
@[simp] theorem Status.clear_done (t : Status) (v : Word) : (t.clear v).done = (t.done && !v.getLsbD 1) := rfl
@[simp] theorem Status.clear_err (t : Status) (v : Word) : (t.clear v).err = (t.err && !v.getLsbD 2) := rfl
@[simp] theorem Status.clear_rowActive (t : Status) (v : Word) : (t.clear v).rowActive = t.rowActive := rfl
@[simp] theorem Status.clear_ovr (t : Status) (v : Word) : (t.clear v).ovr = (t.ovr && !v.getLsbD 4) := rfl
@[simp] theorem Status.clear_errCode (t : Status) (v : Word) : (t.clear v).errCode = (if v.getLsbD 2 then 0 else t.errCode) := rfl
@[simp] theorem Status.raise_busy (t : Status) (code : ErrCode) : (t.raise code).busy = t.busy := rfl
@[simp] theorem Status.raise_done (t : Status) (code : ErrCode) : (t.raise code).done = t.done := rfl
@[simp] theorem Status.raise_err (t : Status) (code : ErrCode) : (t.raise code).err = true := rfl
@[simp] theorem Status.raise_rowActive (t : Status) (code : ErrCode) : (t.raise code).rowActive = t.rowActive := rfl
@[simp] theorem Status.raise_ovr (t : Status) (code : ErrCode) : (t.raise code).ovr = t.ovr := rfl
@[simp] theorem Status.raise_errCode (t : Status) (code : ErrCode) : (t.raise code).errCode = (if t.err then t.errCode else code.number) := rfl

/-! ### The row registers -/

@[simp] theorem RowRegs.append_curByte (r : RowRegs) (bit : Bool) : (r.append bit).curByte = r.curByte := rfl
@[simp] theorem RowRegs.append_curBit (r : RowRegs) (bit : Bool) : (r.append bit).curBit = r.curBit := rfl
@[simp] theorem RowRegs.append_curFrac (r : RowRegs) (bit : Bool) : (r.append bit).curFrac = r.curFrac := rfl
@[simp] theorem RowRegs.append_acc (r : RowRegs) (bit : Bool) : (r.append bit).acc = r.acc ||| BitVec.ofNat 32 bit.toNat <<< (r.unitBits - 1 - r.wCount.toNat) := rfl
@[simp] theorem RowRegs.append_wCount (r : RowRegs) (bit : Bool) : (r.append bit).wCount = r.wCount + 1 := rfl
@[simp] theorem RowRegs.append_unitIdx (r : RowRegs) (bit : Bool) : (r.append bit).unitIdx = r.unitIdx := rfl
@[simp] theorem RowRegs.append_srcByte (r : RowRegs) (bit : Bool) : (r.append bit).srcByte = r.srcByte := rfl
@[simp] theorem RowRegs.append_rowY (r : RowRegs) (bit : Bool) : (r.append bit).rowY = r.rowY := rfl
@[simp] theorem RowRegs.append_srcRowIdx (r : RowRegs) (bit : Bool) : (r.append bit).srcRowIdx = r.srcRowIdx := rfl
@[simp] theorem RowRegs.append_lSrcRow (r : RowRegs) (bit : Bool) : (r.append bit).lSrcRow = r.lSrcRow := rfl
@[simp] theorem RowRegs.append_lDstRow (r : RowRegs) (bit : Bool) : (r.append bit).lDstRow = r.lDstRow := rfl
@[simp] theorem RowRegs.append_lStride (r : RowRegs) (bit : Bool) : (r.append bit).lStride = r.lStride := rfl
@[simp] theorem RowRegs.append_lUnit32 (r : RowRegs) (bit : Bool) : (r.append bit).lUnit32 = r.lUnit32 := rfl
@[simp] theorem RowRegs.append_lScale (r : RowRegs) (bit : Bool) : (r.append bit).lScale = r.lScale := rfl
@[simp] theorem RowRegs.flushed_curByte (r : RowRegs) : (r.flushed).curByte = r.curByte := rfl
@[simp] theorem RowRegs.flushed_curBit (r : RowRegs) : (r.flushed).curBit = r.curBit := rfl
@[simp] theorem RowRegs.flushed_curFrac (r : RowRegs) : (r.flushed).curFrac = r.curFrac := rfl
@[simp] theorem RowRegs.flushed_acc (r : RowRegs) : (r.flushed).acc = 0 := rfl
@[simp] theorem RowRegs.flushed_wCount (r : RowRegs) : (r.flushed).wCount = 0 := rfl
@[simp] theorem RowRegs.flushed_unitIdx (r : RowRegs) : (r.flushed).unitIdx = r.unitIdx + 1 := rfl
@[simp] theorem RowRegs.flushed_srcByte (r : RowRegs) : (r.flushed).srcByte = r.srcByte := rfl
@[simp] theorem RowRegs.flushed_rowY (r : RowRegs) : (r.flushed).rowY = r.rowY := rfl
@[simp] theorem RowRegs.flushed_srcRowIdx (r : RowRegs) : (r.flushed).srcRowIdx = r.srcRowIdx := rfl
@[simp] theorem RowRegs.flushed_lSrcRow (r : RowRegs) : (r.flushed).lSrcRow = r.lSrcRow := rfl
@[simp] theorem RowRegs.flushed_lDstRow (r : RowRegs) : (r.flushed).lDstRow = r.lDstRow := rfl
@[simp] theorem RowRegs.flushed_lStride (r : RowRegs) : (r.flushed).lStride = r.lStride := rfl
@[simp] theorem RowRegs.flushed_lUnit32 (r : RowRegs) : (r.flushed).lUnit32 = r.lUnit32 := rfl
@[simp] theorem RowRegs.flushed_lScale (r : RowRegs) : (r.flushed).lScale = r.lScale := rfl
@[simp] theorem latchRow_curByte (p : Params) (c : ConfigRegs) (y : Nat) (r : RowRegs) :
    (latchRow p c y r).curByte = BitVec.ofNat 16 (wrapSplit c.offsetFx c.srcWidth.toNat).byteOffset := rfl
@[simp] theorem latchRow_curBit (p : Params) (c : ConfigRegs) (y : Nat) (r : RowRegs) :
    (latchRow p c y r).curBit = BitVec.ofNat 3 (wrapSplit c.offsetFx c.srcWidth.toNat).bitOffset := rfl
@[simp] theorem latchRow_curFrac (p : Params) (c : ConfigRegs) (y : Nat) (r : RowRegs) :
    (latchRow p c y r).curFrac = BitVec.ofNat 32 (wrapSplit c.offsetFx c.srcWidth.toNat).fracFixed := rfl
@[simp] theorem latchRow_acc (p : Params) (c : ConfigRegs) (y : Nat) (r : RowRegs) :
    (latchRow p c y r).acc = 0 := rfl
@[simp] theorem latchRow_wCount (p : Params) (c : ConfigRegs) (y : Nat) (r : RowRegs) :
    (latchRow p c y r).wCount = 0 := rfl
@[simp] theorem latchRow_unitIdx (p : Params) (c : ConfigRegs) (y : Nat) (r : RowRegs) :
    (latchRow p c y r).unitIdx = 0 := rfl
@[simp] theorem latchRow_srcByte (p : Params) (c : ConfigRegs) (y : Nat) (r : RowRegs) :
    (latchRow p c y r).srcByte = r.srcByte := rfl
@[simp] theorem latchRow_rowY (p : Params) (c : ConfigRegs) (y : Nat) (r : RowRegs) :
    (latchRow p c y r).rowY = BitVec.ofNat 16 y := rfl
@[simp] theorem latchRow_srcRowIdx (p : Params) (c : ConfigRegs) (y : Nat) (r : RowRegs) :
    (latchRow p c y r).srcRowIdx = BitVec.ofNat 16 (sourceRow c y) := rfl
@[simp] theorem latchRow_lSrcRow (p : Params) (c : ConfigRegs) (y : Nat) (r : RowRegs) :
    (latchRow p c y r).lSrcRow = BitVec.ofNat 32 (c.srcBase.toNat + sourceRow c y * c.srcStride.toNat) := rfl
@[simp] theorem latchRow_lDstRow (p : Params) (c : ConfigRegs) (y : Nat) (r : RowRegs) :
    (latchRow p c y r).lDstRow = BitVec.ofNat 32 (c.dstBase.toNat + y * rowSize p) := rfl
@[simp] theorem latchRow_lStride (p : Params) (c : ConfigRegs) (y : Nat) (r : RowRegs) :
    (latchRow p c y r).lStride = c.srcStride := rfl
@[simp] theorem latchRow_lUnit32 (p : Params) (c : ConfigRegs) (y : Nat) (r : RowRegs) :
    (latchRow p c y r).lUnit32 = c.unit32 := rfl
@[simp] theorem latchRow_lScale (p : Params) (c : ConfigRegs) (y : Nat) (r : RowRegs) :
    (latchRow p c y r).lScale = c.scaleFx := rfl
@[simp] theorem RowRegs.moved_acc (r : RowRegs) : r.moved.acc = r.acc := by
  unfold RowRegs.moved; split <;> rfl
@[simp] theorem RowRegs.moved_wCount (r : RowRegs) : r.moved.wCount = r.wCount := by
  unfold RowRegs.moved; split <;> rfl
@[simp] theorem RowRegs.moved_unitIdx (r : RowRegs) : r.moved.unitIdx = r.unitIdx := by
  unfold RowRegs.moved; split <;> rfl
@[simp] theorem RowRegs.moved_srcByte (r : RowRegs) : r.moved.srcByte = r.srcByte := by
  unfold RowRegs.moved; split <;> rfl
@[simp] theorem RowRegs.moved_rowY (r : RowRegs) : r.moved.rowY = r.rowY := by
  unfold RowRegs.moved; split <;> rfl
@[simp] theorem RowRegs.moved_srcRowIdx (r : RowRegs) : r.moved.srcRowIdx = r.srcRowIdx := by
  unfold RowRegs.moved; split <;> rfl
@[simp] theorem RowRegs.moved_lSrcRow (r : RowRegs) : r.moved.lSrcRow = r.lSrcRow := by
  unfold RowRegs.moved; split <;> rfl
@[simp] theorem RowRegs.moved_lDstRow (r : RowRegs) : r.moved.lDstRow = r.lDstRow := by
  unfold RowRegs.moved; split <;> rfl
@[simp] theorem RowRegs.moved_lStride (r : RowRegs) : r.moved.lStride = r.lStride := by
  unfold RowRegs.moved; split <;> rfl
@[simp] theorem RowRegs.moved_lUnit32 (r : RowRegs) : r.moved.lUnit32 = r.lUnit32 := by
  unfold RowRegs.moved; split <;> rfl
@[simp] theorem RowRegs.moved_lScale (r : RowRegs) : r.moved.lScale = r.lScale := by
  unfold RowRegs.moved; split <;> rfl
@[simp] theorem RowRegs.moved_curFrac (r : RowRegs) :
    r.moved.curFrac = BitVec.ofNat 32 (r.curFrac.toNat % 65536) := by
  unfold RowRegs.moved; split <;> rfl

end Sys2Proof.Machine
end

