-- ==== Sys2Proof/Laws/Ops.lean ====
section
/-! SUPPORT. One lemma per shared operation that says what it can do: the bus transactions, the races, the parts of a
command body. -/

namespace Sys2Proof.Machine

/-! ### Stores and failed stores change memory and use free values, nothing else -/

@[simp] theorem State.storeByte_par (s : State) (a : Word) (v : Byte) : (s.storeByte a v).par = s.par := by
  unfold State.storeByte; split <;> rfl
@[simp] theorem State.storeByte_cfg (s : State) (a : Word) (v : Byte) : (s.storeByte a v).cfg = s.cfg := by
  unfold State.storeByte; split <;> rfl
@[simp] theorem State.storeByte_status (s : State) (a : Word) (v : Byte) : (s.storeByte a v).status = s.status := by
  unfold State.storeByte; split <;> rfl
@[simp] theorem State.storeByte_row (s : State) (a : Word) (v : Byte) : (s.storeByte a v).row = s.row := by
  unfold State.storeByte; split <;> rfl
@[simp] theorem State.storeByte_engine (s : State) (a : Word) (v : Byte) : (s.storeByte a v).engine = s.engine := by
  unfold State.storeByte; split <;> rfl
@[simp] theorem State.storeByte_platform (s : State) (a : Word) (v : Byte) : (s.storeByte a v).platform = s.platform := by
  unfold State.storeByte; split <;> rfl
@[simp] theorem State.storeByte_raced (s : State) (a : Word) (v : Byte) : (s.storeByte a v).raced = s.raced := by
  unfold State.storeByte; split <;> rfl
@[simp] theorem State.storeByte_stored (s : State) (a : Word) (v : Byte) : (s.storeByte a v).stored = s.stored := by
  unfold State.storeByte; split <;> rfl
@[simp] theorem State.storeByte_host (s : State) (a : Word) (v : Byte) : (s.storeByte a v).host = s.host := by
  unfold State.storeByte; split <;> rfl
@[simp] theorem State.storeByte_reply (s : State) (a : Word) (v : Byte) : (s.storeByte a v).reply = s.reply := by
  unfold State.storeByte; split <;> rfl
@[simp] theorem State.storeBytes_par (s : State) (a : Word) (vs : List Byte) :
    (s.storeBytes a vs).par = s.par := by
  induction vs generalizing s a with
  | nil => rfl
  | cons v vs ih => rw [State.storeBytes, ih, State.storeByte_par]
@[simp] theorem State.storeBytes_cfg (s : State) (a : Word) (vs : List Byte) :
    (s.storeBytes a vs).cfg = s.cfg := by
  induction vs generalizing s a with
  | nil => rfl
  | cons v vs ih => rw [State.storeBytes, ih, State.storeByte_cfg]
@[simp] theorem State.storeBytes_status (s : State) (a : Word) (vs : List Byte) :
    (s.storeBytes a vs).status = s.status := by
  induction vs generalizing s a with
  | nil => rfl
  | cons v vs ih => rw [State.storeBytes, ih, State.storeByte_status]
@[simp] theorem State.storeBytes_row (s : State) (a : Word) (vs : List Byte) :
    (s.storeBytes a vs).row = s.row := by
  induction vs generalizing s a with
  | nil => rfl
  | cons v vs ih => rw [State.storeBytes, ih, State.storeByte_row]
@[simp] theorem State.storeBytes_engine (s : State) (a : Word) (vs : List Byte) :
    (s.storeBytes a vs).engine = s.engine := by
  induction vs generalizing s a with
  | nil => rfl
  | cons v vs ih => rw [State.storeBytes, ih, State.storeByte_engine]
@[simp] theorem State.storeBytes_platform (s : State) (a : Word) (vs : List Byte) :
    (s.storeBytes a vs).platform = s.platform := by
  induction vs generalizing s a with
  | nil => rfl
  | cons v vs ih => rw [State.storeBytes, ih, State.storeByte_platform]
@[simp] theorem State.storeBytes_raced (s : State) (a : Word) (vs : List Byte) :
    (s.storeBytes a vs).raced = s.raced := by
  induction vs generalizing s a with
  | nil => rfl
  | cons v vs ih => rw [State.storeBytes, ih, State.storeByte_raced]
@[simp] theorem State.storeBytes_stored (s : State) (a : Word) (vs : List Byte) :
    (s.storeBytes a vs).stored = s.stored := by
  induction vs generalizing s a with
  | nil => rfl
  | cons v vs ih => rw [State.storeBytes, ih, State.storeByte_stored]
@[simp] theorem State.storeBytes_host (s : State) (a : Word) (vs : List Byte) :
    (s.storeBytes a vs).host = s.host := by
  induction vs generalizing s a with
  | nil => rfl
  | cons v vs ih => rw [State.storeBytes, ih, State.storeByte_host]
@[simp] theorem State.storeBytes_reply (s : State) (a : Word) (vs : List Byte) :
    (s.storeBytes a vs).reply = s.reply := by
  induction vs generalizing s a with
  | nil => rfl
  | cons v vs ih => rw [State.storeBytes, ih, State.storeByte_reply]
@[simp] theorem State.scramble_par (s : State) (a : Word) (n : Nat) : (s.scramble a n).par = s.par := by
  induction n generalizing s a with
  | zero => rfl
  | succ n ih => rw [State.scramble, ih]
@[simp] theorem State.scramble_cfg (s : State) (a : Word) (n : Nat) : (s.scramble a n).cfg = s.cfg := by
  induction n generalizing s a with
  | zero => rfl
  | succ n ih => rw [State.scramble, ih]
@[simp] theorem State.scramble_status (s : State) (a : Word) (n : Nat) : (s.scramble a n).status = s.status := by
  induction n generalizing s a with
  | zero => rfl
  | succ n ih => rw [State.scramble, ih]
@[simp] theorem State.scramble_row (s : State) (a : Word) (n : Nat) : (s.scramble a n).row = s.row := by
  induction n generalizing s a with
  | zero => rfl
  | succ n ih => rw [State.scramble, ih]
@[simp] theorem State.scramble_engine (s : State) (a : Word) (n : Nat) : (s.scramble a n).engine = s.engine := by
  induction n generalizing s a with
  | zero => rfl
  | succ n ih => rw [State.scramble, ih]
@[simp] theorem State.scramble_platform (s : State) (a : Word) (n : Nat) : (s.scramble a n).platform = s.platform := by
  induction n generalizing s a with
  | zero => rfl
  | succ n ih => rw [State.scramble, ih]
@[simp] theorem State.scramble_raced (s : State) (a : Word) (n : Nat) : (s.scramble a n).raced = s.raced := by
  induction n generalizing s a with
  | zero => rfl
  | succ n ih => rw [State.scramble, ih]
@[simp] theorem State.scramble_stored (s : State) (a : Word) (n : Nat) : (s.scramble a n).stored = s.stored := by
  induction n generalizing s a with
  | zero => rfl
  | succ n ih => rw [State.scramble, ih]
@[simp] theorem State.scramble_host (s : State) (a : Word) (n : Nat) : (s.scramble a n).host = s.host := by
  induction n generalizing s a with
  | zero => rfl
  | succ n ih => rw [State.scramble, ih]
@[simp] theorem State.scramble_reply (s : State) (a : Word) (n : Nat) : (s.scramble a n).reply = s.reply := by
  induction n generalizing s a with
  | zero => rfl
  | succ n ih => rw [State.scramble, ih]

theorem State.storeByte_mem_wf {s : State} (h : s.mem.wf) (a : Word) (v : Byte) : (s.storeByte a v).mem.wf := by
  unfold State.storeByte
  split
  · dsimp only; split
    · exact h
    · exact Memory.write_wf h a v
  · exact Memory.write_wf h a v

theorem State.storeBytes_mem_wf {s : State} (h : s.mem.wf) (a : Word) (vs : List Byte) :
    (s.storeBytes a vs).mem.wf := by
  induction vs generalizing s a with
  | nil => exact h
  | cons v vs ih => exact ih (State.storeByte_mem_wf h a v) (a + 1)

theorem State.scramble_mem_wf {s : State} (h : s.mem.wf) (a : Word) (n : Nat) : (s.scramble a n).mem.wf := by
  induction n generalizing s a with
  | zero => exact h
  | succ n ih => exact ih (Memory.write_wf h a _) (a + 1)

theorem State.storeByte_read_ne (s : State) {a b : Word} (v : Byte) (h : b ≠ a) :
    (s.storeByte a v).mem.read b = s.mem.read b := by
  unfold State.storeByte
  split
  · dsimp only; split
    · rfl
    · exact Memory.read_write_ne _ v h
  · exact Memory.read_write_ne _ v h

/-- The offset form of "not one of the addresses from `a` on". -/
theorem add_one_add_ofNat (a : Word) (k : Nat) : a + 1 + BitVec.ofNat 32 k = a + BitVec.ofNat 32 (k + 1) := by
  rw [BitVec.add_assoc, BitVec.ofNat_add, BitVec.add_comm (BitVec.ofNat 32 k)]; rfl

/-- A store leaves every byte outside its own as it was. -/
theorem State.storeBytes_read_ne (s : State) (a b : Word) (vs : List Byte)
    (h : ∀ k < vs.length, b ≠ a + BitVec.ofNat 32 k) : (s.storeBytes a vs).mem.read b = s.mem.read b := by
  induction vs generalizing s a with
  | nil => rfl
  | cons v vs ih =>
    rw [State.storeBytes, ih]
    · exact State.storeByte_read_ne s v (by simpa using h 0 (by simp))
    · intro k hk
      rw [add_one_add_ofNat]
      exact h (k + 1) (by simpa using hk)

/-- A failed store leaves every byte outside its own as it was. -/
theorem State.scramble_read_ne (s : State) (a b : Word) (n : Nat)
    (h : ∀ k < n, b ≠ a + BitVec.ofNat 32 k) : (s.scramble a n).mem.read b = s.mem.read b := by
  induction n generalizing s a with
  | zero => rfl
  | succ n ih =>
    rw [State.scramble, ih]
    · exact Memory.read_write_ne _ _ (by simpa using h 0 (by simp))
    · intro k hk
      rw [add_one_add_ofNat]
      exact h (k + 1) (by omega)

/-! ### The end of a flush -/

@[simp] theorem rowDoneCheck_par (s : State) : (rowDoneCheck s).par = s.par := by
  unfold rowDoneCheck; split <;> rfl
@[simp] theorem rowDoneCheck_cfg (s : State) : (rowDoneCheck s).cfg = s.cfg := by
  unfold rowDoneCheck; split <;> rfl
@[simp] theorem rowDoneCheck_row (s : State) : (rowDoneCheck s).row = s.row := by
  unfold rowDoneCheck; split <;> rfl
@[simp] theorem rowDoneCheck_engine (s : State) : (rowDoneCheck s).engine = s.engine := by
  unfold rowDoneCheck; split <;> rfl
@[simp] theorem rowDoneCheck_mem (s : State) : (rowDoneCheck s).mem = s.mem := by
  unfold rowDoneCheck; split <;> rfl
@[simp] theorem rowDoneCheck_platform (s : State) : (rowDoneCheck s).platform = s.platform := by
  unfold rowDoneCheck; split <;> rfl
@[simp] theorem rowDoneCheck_raced (s : State) : (rowDoneCheck s).raced = s.raced := by
  unfold rowDoneCheck; split <;> rfl
@[simp] theorem rowDoneCheck_stored (s : State) : (rowDoneCheck s).stored = s.stored := by
  unfold rowDoneCheck; split <;> rfl
@[simp] theorem rowDoneCheck_draws (s : State) : (rowDoneCheck s).draws = s.draws := by
  unfold rowDoneCheck; split <;> rfl
@[simp] theorem rowDoneCheck_host (s : State) : (rowDoneCheck s).host = s.host := by
  unfold rowDoneCheck; split <;> rfl
@[simp] theorem rowDoneCheck_reply (s : State) : (rowDoneCheck s).reply = s.reply := by
  unfold rowDoneCheck; split <;> rfl
@[simp] theorem flushDone_par (s : State) : (flushDone s).par = s.par := by simp [flushDone]
@[simp] theorem flushDone_cfg (s : State) : (flushDone s).cfg = s.cfg := by simp [flushDone]
@[simp] theorem flushDone_engine (s : State) : (flushDone s).engine = s.engine := by simp [flushDone]
@[simp] theorem flushDone_platform (s : State) : (flushDone s).platform = s.platform := by simp [flushDone]
@[simp] theorem flushDone_raced (s : State) : (flushDone s).raced = s.raced := by simp [flushDone]
@[simp] theorem flushDone_host (s : State) : (flushDone s).host = s.host := by simp [flushDone]
@[simp] theorem flushDone_reply (s : State) : (flushDone s).reply = s.reply := by simp [flushDone]
@[simp] theorem flushDone_row (s : State) : (flushDone s).row = s.row.flushed := by simp [flushDone]
/-- A store does not look at what the command has stored before. -/
theorem State.storeBytes_noteUnit (s : State) (u : StoredUnit) (a : Word) (vs : List Byte) :
    (s.noteUnit u).storeBytes a vs = (s.storeBytes a vs).noteUnit u := by
  induction vs generalizing s a with
  | nil => rfl
  | cons v vs ih =>
    rw [State.storeBytes, State.storeBytes, ← ih]
    congr 1
    unfold State.storeByte
    rw [show (s.noteUnit u).isRaced a = s.isRaced a from rfl]
    split <;> rfl
@[simp] theorem flushDone_mem (s : State) :
    (flushDone s).mem = (s.storeBytes s.row.unitAddr s.row.unitData).mem := by
  simp [flushDone, State.storeBytes_noteUnit]
@[simp] theorem flushDone_stored (s : State) : (flushDone s).stored = s.cursorUnit :: s.stored := by simp [flushDone]
@[simp] theorem flushFailed_par (s : State) : (flushFailed s).par = s.par := by simp [flushFailed]
@[simp] theorem flushFailed_cfg (s : State) : (flushFailed s).cfg = s.cfg := by simp [flushFailed]
@[simp] theorem flushFailed_row (s : State) : (flushFailed s).row = s.row := by simp [flushFailed]
@[simp] theorem flushFailed_platform (s : State) : (flushFailed s).platform = s.platform := by simp [flushFailed]
@[simp] theorem flushFailed_raced (s : State) : (flushFailed s).raced = s.raced := by simp [flushFailed]
@[simp] theorem flushFailed_host (s : State) : (flushFailed s).host = s.host := by simp [flushFailed]
@[simp] theorem flushFailed_reply (s : State) : (flushFailed s).reply = s.reply := by simp [flushFailed]
@[simp] theorem flushFailed_status (s : State) :
    (flushFailed s).status = Status.raise { s.status with rowActive := false } .bus := by simp [flushFailed]
@[simp] theorem flushFailed_engine (s : State) : (flushFailed s).engine = .completing none := rfl
@[simp] theorem flushFailed_mem (s : State) :
    (flushFailed s).mem = (s.scramble s.row.unitAddr s.row.unitBytes).mem := rfl
@[simp] theorem flushFailed_stored (s : State) : ∃ u, (flushFailed s).stored = u :: s.stored :=
  ⟨_, by rw [flushFailed, State.raiseBusError_stored, State.noteUnit_stored, State.scramble_stored]⟩
@[simp] theorem flushHung_par (s : State) : (flushHung s).par = s.par := by
  unfold flushHung; dsimp only; split <;> simp
@[simp] theorem flushHung_cfg (s : State) : (flushHung s).cfg = s.cfg := by
  unfold flushHung; dsimp only; split <;> simp
@[simp] theorem flushHung_status (s : State) : (flushHung s).status = s.status := by
  unfold flushHung; dsimp only; split <;> simp
@[simp] theorem flushHung_row (s : State) : (flushHung s).row = s.row := by
  unfold flushHung; dsimp only; split <;> simp
@[simp] theorem flushHung_platform (s : State) : (flushHung s).platform = s.platform := by
  unfold flushHung; dsimp only; split <;> simp
@[simp] theorem flushHung_raced (s : State) : (flushHung s).raced = s.raced := by
  unfold flushHung; dsimp only; split <;> simp
@[simp] theorem flushHung_host (s : State) : (flushHung s).host = s.host := by
  unfold flushHung; dsimp only; split <;> simp
@[simp] theorem flushHung_reply (s : State) : (flushHung s).reply = s.reply := by
  unfold flushHung; dsimp only; split <;> simp
@[simp] theorem flushHung_engine (s : State) : (flushHung s).engine = .hung := rfl
@[simp] theorem flushHung_stored (s : State) : (flushHung s).stored = s.cursorUnit :: s.stored := by
  unfold flushHung; dsimp only; split <;> simp
/-- A store that is never answered has changed its unit or has not (log 19). -/
theorem flushHung_mem (s : State) :
    (flushHung s).mem = s.mem ∨
      (flushHung s).mem = (s.drawn.storeBytes s.row.unitAddr s.row.unitData).mem := by
  unfold flushHung
  dsimp only
  split
  · right
    rw [State.hang_mem, show (s.noteUnit s.cursorUnit).drawn = s.drawn.noteUnit s.cursorUnit from rfl,
      State.storeBytes_noteUnit, State.noteUnit_mem]
  · exact .inl rfl
/-- ROW_ACTIVE falls exactly with the row's last unit (R184). -/
theorem flushDone_status (s : State) :
    (flushDone s).status =
      if (s.row.unitIdx + 1).toNat = numUnits s.par s.row.lUnit32 then { s.status with rowActive := false }
      else s.status := by
  unfold flushDone rowDoneCheck
  simp only [RowRegs.flushed_unitIdx, RowRegs.flushed_lUnit32, State.storeBytes_par, State.noteUnit_par]
  split <;> simp

/-! ### Without a race the engine sees and writes memory as it is -/

theorem State.seen_of_not_raced {s : State} (h : s.raced = []) (a : Word) : s.seen a = s.mem.read a := by
  simp [State.seen, h, seenByte]

theorem State.afterRead_of_not_raced {s : State} (h : s.raced = []) (a : Word) : s.afterRead a = s := by
  cases s
  simp only at h
  subst h
  rfl

theorem State.storeByte_of_not_raced {s : State} (h : s.raced = []) (a : Word) (v : Byte) :
    s.storeByte a v = { s with mem := s.mem.write a v } := by
  simp [State.storeByte, State.isRaced, h]

theorem State.storeBytes_of_not_raced {s : State} (h : s.raced = []) (a : Word) (vs : List Byte) :
    s.storeBytes a vs = { s with mem := s.mem.writeList a vs } := by
  induction vs generalizing s a with
  | nil => rfl
  | cons v vs ih =>
    rw [State.storeBytes, State.storeByte_of_not_raced h, ih (by exact h)]
    rfl

/-! ### The parts of a command body -/

@[simp] theorem Body.andThen_goes (s : State) (f : State → Body) : (Body.goes s).andThen f = f s := rfl
@[simp] theorem Body.andThen_ends (s : State) (f : State → Body) : (Body.ends s).andThen f = .ends s := rfl

/-- A composed body goes on exactly where both parts do. -/
theorem Body.andThen_eq_goes {b : Body} {f : State → Body} {t : State} :
    b.andThen f = .goes t ↔ ∃ m, b = .goes m ∧ f m = .goes t := by
  cases b <;> simp

/-- A composed body has ended where its first part has, or where the second does after the first went on. -/
theorem Body.andThen_eq_ends {b : Body} {f : State → Body} {t : State} :
    b.andThen f = .ends t ↔ b = .ends t ∨ ∃ m, b = .goes m ∧ f m = .ends t := by
  cases b <;> simp

/-- Everything a load of the source byte can do. -/
theorem loadSrcByte_cases (s : State) :
    (s.busAnswer .read s.row.srcAddr 1 = .ok ∧ loadSrcByte s = .goes (loadDone s)) ∨
    (s.busAnswer .read s.row.srcAddr 1 = .error ∧ loadSrcByte s = .ends s.raiseBusError) ∨
    (s.busAnswer .read s.row.srcAddr 1 = .never ∧ loadSrcByte s = .ends s.hang) := by
  unfold loadSrcByte
  cases s.busAnswer .read s.row.srcAddr 1 <;> simp

/-- Everything a flush can do. -/
theorem flushUnit_cases (s : State) :
    (s.busAnswer .write s.row.unitAddr s.row.unitBytes = .ok ∧ flushUnit s = .goes (flushDone s)) ∨
    (s.busAnswer .write s.row.unitAddr s.row.unitBytes = .error ∧
      flushUnit s = .ends (flushFailed s)) ∨
    (s.busAnswer .write s.row.unitAddr s.row.unitBytes = .never ∧ flushUnit s = .ends (flushHung s)) := by
  unfold flushUnit
  cases s.busAnswer .write s.row.unitAddr s.row.unitBytes <;> simp

/-- Everything `PackBit` can do. -/
theorem packBit_cases (bit : Bool) (s : State) :
    ((s.row.append bit).wCount.toNat = s.row.unitBits ∧
      packBit bit s = flushUnit { s with row := s.row.append bit }) ∨
    ((s.row.append bit).wCount.toNat ≠ s.row.unitBits ∧
      packBit bit s = .goes { s with row := s.row.append bit }) := by
  unfold packBit
  by_cases h : (s.row.append bit).wCount.toNat = s.row.unitBits
  · exact .inl ⟨h, if_pos h⟩
  · exact .inr ⟨h, if_neg h⟩

/-- Everything step 4a can do. -/
theorem advanceCursor_cases (s : State) :
    (s.row.curFrac.toNat < 65536 ∧ advanceCursor s = .goes s) ∨
    (65536 ≤ s.row.curFrac.toNat ∧ s.row.advance < 8 ∧
      advanceCursor s = .goes { s with row := s.row.moved }) ∨
    (65536 ≤ s.row.curFrac.toNat ∧ 8 ≤ s.row.advance ∧
      advanceCursor s = loadSrcByte { s with row := s.row.moved }) := by
  unfold advanceCursor
  by_cases h : s.row.curFrac.toNat < 65536
  · exact .inl ⟨h, if_pos h⟩
  · by_cases h2 : s.row.advance < 8
    · exact .inr (.inl ⟨by omega, h2, by rw [if_neg h, if_pos h2]⟩)
    · exact .inr (.inr ⟨by omega, by omega, by rw [if_neg h, if_neg h2]⟩)

/-- A sample step goes on exactly where its cursor and its packer do. -/
theorem sampleStep_eq_goes {s t : State} :
    sampleStep s = .goes t ↔
      ∃ a b, advanceCursor s = .goes a ∧ packBit a.row.srcBit a = .goes b ∧ t = addScale b := by
  unfold sampleStep
  simp only [Body.andThen_eq_goes, Body.goes.injEq]
  constructor
  · rintro ⟨a, ha, b, hb, rfl⟩; exact ⟨a, b, ha, hb, rfl⟩
  · rintro ⟨a, b, ha, hb, rfl⟩; exact ⟨a, ha, b, hb, rfl⟩

/-- A sample step has ended where its cursor move or its packing has. -/
theorem sampleStep_eq_ends {s t : State} :
    sampleStep s = .ends t ↔
      advanceCursor s = .ends t ∨ ∃ a, advanceCursor s = .goes a ∧ packBit a.row.srcBit a = .ends t := by
  unfold sampleStep
  simp only [Body.andThen_eq_ends]
  constructor
  · rintro (h | ⟨a, ha, h | ⟨b, -, hb⟩⟩)
    · exact .inl h
    · exact .inr ⟨a, ha, h⟩
    · exact absurd hb (by simp)
  · rintro (h | ⟨a, ha, h⟩)
    · exact .inl h
    · exact .inr ⟨a, ha, .inl h⟩

/-! ### Steps of a begun command -/

@[simp] theorem continueFor_zero (s : State) : continueFor 0 s = s := rfl

theorem continueFor_succ (n : Nat) (s : State) : continueFor (n + 1) s = continueFor n (continueStep s) := rfl

theorem continueStep_sampling {s : State} (h : s.engine = .sampling) : continueStep s = loopStep s := by
  simp [continueStep, h]

theorem continueStep_completing {s : State} {c : Option (CvtTarget × Word)} (h : s.engine = .completing c) :
    continueStep s = s.complete := by
  simp [continueStep, h]

theorem continueStep_idle {s : State} (h : s.engine = .idle) : continueStep s = s := by simp [continueStep, h]

theorem continueStep_hung {s : State} (h : s.engine = .hung) : continueStep s = s := by simp [continueStep, h]

/-- An idle engine stays as it is. -/
theorem continueFor_idle (n : Nat) {s : State} (h : s.engine = .idle) : continueFor n s = s := by
  induction n with
  | zero => rfl
  | succ n ih => rw [continueFor_succ, continueStep_idle h, ih]

/-- An engine that waits for ever stays as it is. -/
theorem continueFor_hung (n : Nat) {s : State} (h : s.engine = .hung) : continueFor n s = s := by
  induction n with
  | zero => rfl
  | succ n ih => rw [continueFor_succ, continueStep_hung h, ih]

/-- A body that has ended is completed by the next step. -/
theorem continueFor_completing (n : Nat) {s : State} {c : Option (CvtTarget × Word)}
    (h : s.engine = .completing c) : continueFor (n + 1) s = s.complete := by
  rw [continueFor_succ, continueStep_completing h]
  exact continueFor_idle n rfl

/-- Steps compose. -/
theorem continueFor_add (m n : Nat) (s : State) : continueFor (m + n) s = continueFor n (continueFor m s) := by
  induction m generalizing s with
  | zero => simp
  | succ m ih => rw [Nat.succ_add, continueFor_succ, ih, continueFor_succ]

end Sys2Proof.Machine
end

