-- ==== Sys2Proof/Laws/Row.lean ====
section
/-! SUPPORT. What a sample step does to the registers of a sound active row (R70): the parts of the step, the step, and
one step of the loop. -/

namespace Sys2Proof.Machine

/-! ### Sizes -/

theorem unitBits_cases (b : Bool) : (b = true ∧ unitBits b = 32) ∨ (b = false ∧ unitBits b = 8) := by
  cases b <;> simp [unitBits]

theorem rowSize_le (p : Params) : rowSize p ≤ 8192 := by
  have := p.columns.isLt
  unfold rowSize
  omega

theorem rowSize_mod_four (p : Params) : rowSize p % 4 = 0 := by unfold rowSize; omega

theorem rowSize_pos {p : Params} (h : p.wf) : 4 ≤ rowSize p := by
  have := h.1
  unfold rowSize
  omega

/-- The units of a row hold its samples exactly (R11). -/
theorem numUnits_mul_unitBits (p : Params) (b : Bool) : numUnits p b * unitBits b = numSamples p := by
  have := rowSize_mod_four p
  cases b <;> (simp [numUnits, unitBytes, unitBits, numSamples]; omega)

theorem numUnits_mul_unitBytes (p : Params) (b : Bool) : numUnits p b * unitBytes b = rowSize p := by
  have := rowSize_mod_four p
  cases b
  · simp [numUnits, unitBytes, unitBits]
  · simp [numUnits, unitBytes, unitBits]; omega

theorem numUnits_le (p : Params) (b : Bool) : numUnits p b ≤ 8192 :=
  (Nat.div_le_self _ _).trans (rowSize_le p)

theorem numUnits_pos {p : Params} (h : p.wf) (b : Bool) : 0 < numUnits p b := by
  have := rowSize_pos h
  cases b <;> (simp [numUnits, unitBytes, unitBits]; omega)

/-! ### What a step leaves alone -/

/-- Everything but the row's cursor, the packer, memory, the draws and ROW_ACTIVE. -/
structure SameButRow (s t : State) : Prop where
  par : t.par = s.par
  cfg : t.cfg = s.cfg
  platform : t.platform = s.platform
  raced : t.raced = s.raced
  host : t.host = s.host
  reply : t.reply = s.reply
  rowY : t.row.rowY = s.row.rowY
  srcRowIdx : t.row.srcRowIdx = s.row.srcRowIdx
  lSrcRow : t.row.lSrcRow = s.row.lSrcRow
  lDstRow : t.row.lDstRow = s.row.lDstRow
  lStride : t.row.lStride = s.row.lStride
  lUnit32 : t.row.lUnit32 = s.row.lUnit32
  lScale : t.row.lScale = s.row.lScale

theorem SameButRow.refl (s : State) : SameButRow s s := by constructor <;> rfl

theorem SameButRow.trans {s t u : State} (h : SameButRow s t) (k : SameButRow t u) : SameButRow s u :=
  ⟨k.par.trans h.par, k.cfg.trans h.cfg, k.platform.trans h.platform, k.raced.trans h.raced, k.host.trans h.host,
    k.reply.trans h.reply, k.rowY.trans h.rowY, k.srcRowIdx.trans h.srcRowIdx, k.lSrcRow.trans h.lSrcRow,
    k.lDstRow.trans h.lDstRow, k.lStride.trans h.lStride, k.lUnit32.trans h.lUnit32, k.lScale.trans h.lScale⟩

/-! ### Step 4a -/

theorem RowRegs.advance_lt (r : RowRegs) : r.advance < 65544 := by
  have := r.curBit.isLt
  have := r.curFrac.isLt
  unfold RowRegs.advance
  omega

/-- The cursor stays in the row (R70). -/
theorem RowRegs.moved_curByte_lt {r : RowRegs} (h : r.curByte.toNat < r.lStride.toNat) :
    r.moved.curByte.toNat < r.lStride.toNat := by
  unfold RowRegs.moved
  split
  · exact h
  · have := Nat.mod_lt (r.curByte.toNat + r.advance / 8) (show r.lStride.toNat > 0 by omega)
    have := r.lStride.isLt
    simp only [BitVec.toNat_ofNat]
    rw [Nat.mod_eq_of_lt (by omega)]
    assumption

theorem RowRegs.moved_curFrac_lt (r : RowRegs) : r.moved.curFrac.toNat < 65536 := by
  have := Nat.mod_lt r.curFrac.toNat (show 65536 > 0 by omega)
  rw [RowRegs.moved_curFrac, BitVec.toNat_ofNat]
  omega

theorem RowInv.moved {p : Params} {r : RowRegs} (h : RowInv p r) : RowInv p r.moved where
  curByte := by rw [RowRegs.moved_lStride]; exact RowRegs.moved_curByte_lt h.curByte
  scalePos := by simpa using h.scalePos
  scaleMax := by simpa using h.scaleMax
  curFrac := by have := r.moved_curFrac_lt; simp only [RowRegs.moved_lScale]; omega
  wCount := by simpa [RowRegs.unitBits] using h.wCount
  unitIdx := by simpa using h.unitIdx
  accLow := by simpa [RowRegs.unitBits] using h.accLow
  accHigh := by simpa [RowRegs.unitBits] using h.accHigh
  aligned := by simpa using h.aligned

theorem RowInv.withSrcByte {p : Params} {r : RowRegs} (h : RowInv p r) (b : Byte) : RowInv p { r with srcByte := b } :=
  ⟨h.curByte, h.scalePos, h.scaleMax, h.curFrac, h.wCount, h.unitIdx, h.accLow, h.accHigh, h.aligned⟩

/-- What step 4a leaves of the state where it goes on. -/
structure Advanced (s a : State) : Prop where
  same : SameButRow s a
  status : a.status = s.status
  engine : a.engine = s.engine
  mem : a.mem = s.mem
  inv : RowInv a.par a.row
  frac : a.row.curFrac.toNat < 65536
  acc : a.row.acc = s.row.acc
  wCount : a.row.wCount = s.row.wCount
  unitIdx : a.row.unitIdx = s.row.unitIdx

theorem advanceCursor_goes {s a : State} (h : RowInv s.par s.row) (hg : advanceCursor s = .goes a) : Advanced s a := by
  have hm : Advanced s { s with row := s.row.moved } :=
    { same := by constructor <;> simp
      status := rfl
      engine := rfl
      mem := rfl
      inv := h.moved
      frac := s.row.moved_curFrac_lt
      acc := by simp
      wCount := by simp
      unitIdx := by simp }
  rcases advanceCursor_cases s with ⟨hf, he⟩ | ⟨-, -, he⟩ | ⟨-, -, he⟩
  · obtain rfl : s = a := by simpa [he] using hg
    exact ⟨SameButRow.refl s, rfl, rfl, rfl, h, hf, rfl, rfl, rfl⟩
  · obtain rfl : { s with row := s.row.moved } = a := by simpa [he] using hg
    exact hm
  · rw [he] at hg
    rcases loadSrcByte_cases { s with row := s.row.moved } with ⟨-, hl⟩ | ⟨-, hl⟩ | ⟨-, hl⟩
    · obtain rfl : loadDone { s with row := s.row.moved } = a := by simpa [hl] using hg
      exact
        { same := by constructor <;> simp
          status := by simp
          engine := by simp
          mem := by simp
          inv := by simpa using h.moved.withSrcByte _
          frac := by simpa using hm.frac
          acc := by simp
          wCount := by simp
          unitIdx := by simp }
    · simp [hl] at hg
    · simp [hl] at hg

/-! ### Steps 4c to 4e -/

/-- The accumulator after an appended bit: one position fewer is unwritten (R70, R180). -/
theorem append_acc_inv {acc : Word} {n w : Nat} (bit : Bool) (hn : n ≤ 32) (hw : w < n)
    (hlow : acc.toNat % 2 ^ (n - w) = 0) (hhigh : acc.toNat < 2 ^ n) :
    (acc ||| BitVec.ofNat 32 bit.toNat <<< (n - 1 - w)).toNat % 2 ^ (n - (w + 1)) = 0 ∧
      (acc ||| BitVec.ofNat 32 bit.toNat <<< (n - 1 - w)).toNat < 2 ^ n := by
  have hb : (BitVec.ofNat 32 bit.toNat <<< (n - 1 - w)).toNat = bit.toNat * 2 ^ (n - 1 - w) := by
    have : bit.toNat ≤ 1 := by cases bit <;> simp
    have h1 : 2 ^ (n - 1 - w) ≤ 2 ^ 31 := Nat.pow_le_pow_right (by omega) (by omega)
    have h2 : bit.toNat * 2 ^ (n - 1 - w) ≤ 1 * 2 ^ (n - 1 - w) := Nat.mul_le_mul_right _ this
    rw [BitVec.toNat_shiftLeft, BitVec.toNat_ofNat, Nat.shiftLeft_eq, Nat.mod_eq_of_lt (a := bit.toNat) (by omega),
      Nat.mod_eq_of_lt (by omega)]
  rw [BitVec.toNat_or, hb]
  constructor
  · rw [Nat.or_mod_two_pow, show n - (w + 1) = n - 1 - w by omega, Nat.mul_mod_left]
    have : acc.toNat % 2 ^ (n - 1 - w) = 0 :=
      Nat.mod_eq_zero_of_dvd ((pow_dvd_pow 2 (by omega)).trans (Nat.dvd_of_mod_eq_zero hlow))
    simp [this]
  · refine Nat.or_lt_two_pow hhigh ?_
    have : bit.toNat ≤ 1 := by cases bit <;> simp
    calc bit.toNat * 2 ^ (n - 1 - w) ≤ 1 * 2 ^ (n - 1 - w) := Nat.mul_le_mul_right _ this
      _ < 2 ^ n := by rw [Nat.one_mul]; exact Nat.pow_lt_pow_right (by omega) (by omega)

/-- A sample count below N does not overflow WCOUNT. -/
theorem RowInv.wCount_succ {p : Params} {r : RowRegs} (h : RowInv p r) :
    (r.wCount + 1).toNat = r.wCount.toNat + 1 := by
  have := h.wCount
  rcases unitBits_cases r.lUnit32 with ⟨-, hb⟩ | ⟨-, hb⟩ <;>
    simp only [RowRegs.unitBits, hb] at this <;>
    rw [BitVec.toNat_add, show (1 : BitVec 6).toNat = 1 from rfl, Nat.mod_eq_of_lt (by omega)]

/-- A unit count below NUNITS does not overflow UNIT_IDX. -/
theorem RowInv.unitIdx_succ {p : Params} {r : RowRegs} (h : RowInv p r) :
    (r.unitIdx + 1).toNat = r.unitIdx.toNat + 1 := by
  have := h.unitIdx
  have := numUnits_le p r.lUnit32
  rw [BitVec.toNat_add, show (1 : BitVec 16).toNat = 1 from rfl, Nat.mod_eq_of_lt (by omega)]

/-- Adding the scale to a fraction does not overflow CUR_FRAC (R58, R143). -/
theorem RowInv.curFrac_add {p : Params} {r : RowRegs} (h : RowInv p r) (hf : r.curFrac.toNat < 65536) :
    (r.curFrac + r.lScale).toNat = r.curFrac.toNat + r.lScale.toNat := by
  have := h.scaleMax
  unfold maxScale at this
  rw [BitVec.toNat_add, Nat.mod_eq_of_lt (by omega)]

/-- A sound row after a sample that does not fill its unit (R165, R181). -/
theorem RowInv.appended {p : Params} {r : RowRegs} (h : RowInv p r) (hf : r.curFrac.toNat < 65536) (bit : Bool)
    (hw : r.wCount.toNat + 1 ≠ r.unitBits) :
    RowInv p { r.append bit with curFrac := r.curFrac + r.lScale } := by
  have h1 := h.wCount
  have hb : r.unitBits ≤ 32 := by
    unfold RowRegs.unitBits
    rcases unitBits_cases r.lUnit32 with ⟨-, hb⟩ | ⟨-, hb⟩ <;> omega
  have ha := append_acc_inv bit hb h1 h.accLow h.accHigh
  refine ⟨h.curByte, h.scalePos, h.scaleMax, ?_, ?_, h.unitIdx, ?_, ?_, h.aligned⟩
  · change (r.curFrac + r.lScale).toNat ≤ 0xFFFF + r.lScale.toNat
    rw [h.curFrac_add hf]; omega
  · change (r.wCount + 1).toNat < r.unitBits
    rw [h.wCount_succ]; omega
  · change (r.acc ||| _).toNat % 2 ^ (r.unitBits - (r.wCount + 1).toNat) = 0
    rw [h.wCount_succ]; exact ha.1
  · exact ha.2

/-- A sound row after the flush of a unit that is not its last (R182, R184). -/
theorem RowInv.afterFlush {p : Params} {r : RowRegs} (h : RowInv p r) (hf : r.curFrac.toNat < 65536) (bit : Bool)
    (hu : r.unitIdx.toNat + 1 ≠ numUnits p r.lUnit32) :
    RowInv p { (r.append bit).flushed with curFrac := r.curFrac + r.lScale } := by
  have h1 := h.wCount
  have h2 := h.unitIdx
  have hpos : 0 < r.unitBits := by omega
  refine ⟨h.curByte, h.scalePos, h.scaleMax, ?_, hpos, ?_, Nat.zero_mod _, Nat.two_pow_pos _, h.aligned⟩
  · change (r.curFrac + r.lScale).toNat ≤ 0xFFFF + r.lScale.toNat
    rw [h.curFrac_add hf]; omega
  · change (r.unitIdx + 1).toNat < numUnits p r.lUnit32
    rw [h.unitIdx_succ]; omega

/-! ### The sample step -/

/-- The samples taken of the active row (R69). -/
def RowRegs.taken (r : RowRegs) : Nat := r.unitIdx.toNat * r.unitBits + r.wCount.toNat

/-- A sound row has a sample left to take. -/
theorem RowInv.taken_lt {p : Params} {r : RowRegs} (h : RowInv p r) : r.taken < numSamples p := by
  rw [← numUnits_mul_unitBits p r.lUnit32]
  have h1 := h.wCount
  have h2 := h.unitIdx
  have h3 : (r.unitIdx.toNat + 1) * r.unitBits ≤ numUnits p r.lUnit32 * r.unitBits := Nat.mul_le_mul_right _ h2
  rw [Nat.succ_mul] at h3
  unfold RowRegs.taken
  change _ < numUnits p r.lUnit32 * r.unitBits
  omega

/-- What a sample step of a sound active row does where it goes on: one sample more, and the row is sound and active or
has ended on its last unit (R165, R184). -/
theorem sampleStep_goes {s t : State} (h : RowInv s.par s.row) (hg : sampleStep s = .goes t) :
    SameButRow s t ∧ t.engine = s.engine ∧ t.row.taken = s.row.taken + 1 ∧
      ((t.status = s.status ∧ RowInv t.par t.row) ∨
        (t.status = { s.status with rowActive := false } ∧ s.row.taken + 1 = numSamples s.par ∧ t.row.acc = 0
          ∧ t.row.wCount = 0 ∧ t.row.unitIdx.toNat = numUnits s.par s.row.lUnit32)) := by
  obtain ⟨a, b, hadv, hpack, rfl⟩ := sampleStep_eq_goes.1 hg
  have A := advanceCursor_goes h hadv
  have hw := A.inv.wCount_succ
  have hu := A.inv.unitIdx_succ
  have hub : a.row.unitBits = s.row.unitBits := by simp [RowRegs.unitBits, A.same.lUnit32]
  rcases packBit_cases a.row.srcBit a with ⟨hc, hp⟩ | ⟨hc, hp⟩
  · rw [hp] at hpack
    have hc' : a.row.wCount.toNat + 1 = a.row.unitBits := by rw [← hw]; exact hc
    rcases flushUnit_cases { a with row := a.row.append a.row.srcBit } with ⟨-, hl⟩ | ⟨-, hl⟩ | ⟨-, hl⟩
    · obtain rfl : flushDone { a with row := a.row.append a.row.srcBit } = b := by simpa [hl] using hpack
      have htaken : (a.row.unitIdx.toNat + 1) * a.row.unitBits = s.row.taken + 1 := by
        simp only [RowRegs.taken, ← hub, ← A.wCount, ← A.unitIdx]
        rw [Nat.succ_mul]; omega
      have hrow : (addScale (flushDone { a with row := a.row.append a.row.srcBit })).row =
          { (a.row.append a.row.srcBit).flushed with curFrac := a.row.curFrac + a.row.lScale } := by
        rw [addScale_row, flushDone_row]; rfl
      have hsame : SameButRow a (addScale (flushDone { a with row := a.row.append a.row.srcBit })) := by
        constructor <;> simp
      have hst : (addScale (flushDone { a with row := a.row.append a.row.srcBit })).status =
          if (a.row.unitIdx + 1).toNat = numUnits a.par a.row.lUnit32 then { a.status with rowActive := false }
          else a.status := by
        rw [addScale_status, flushDone_status]; rfl
      refine ⟨A.same.trans hsame, by simp [A.engine], ?_, ?_⟩
      · rw [hrow, ← htaken]
        change (a.row.unitIdx + 1).toNat * a.row.unitBits + 0 = _
        rw [hu, Nat.add_zero]
      · by_cases hd : a.row.unitIdx.toNat + 1 = numUnits a.par a.row.lUnit32
        · right
          refine ⟨?_, ?_, by rw [hrow]; rfl, by rw [hrow]; rfl, ?_⟩
          · rw [hst, if_pos (by rw [hu]; exact hd), A.status]
          · rw [← htaken, hd, ← A.same.par]
            exact numUnits_mul_unitBits _ _
          · rw [hrow, ← A.same.par, ← A.same.lUnit32, ← hd]; exact hu
        · left
          refine ⟨by rw [hst, if_neg (by rw [hu]; exact hd), A.status], ?_⟩
          rw [hrow, show (addScale (flushDone { a with row := a.row.append a.row.srcBit })).par = a.par by simp]
          exact A.inv.afterFlush A.frac _ hd
    · simp [hl] at hpack
    · simp [hl] at hpack
  · obtain rfl : { a with row := a.row.append a.row.srcBit } = b := by simpa [hp] using hpack
    have hc' : a.row.wCount.toNat + 1 ≠ a.row.unitBits := by rw [← hw]; exact hc
    have hsame : SameButRow a (addScale { a with row := a.row.append a.row.srcBit }) := by constructor <;> rfl
    refine ⟨A.same.trans hsame, A.engine, ?_, .inl ⟨A.status, A.inv.appended A.frac _ hc'⟩⟩
    change a.row.unitIdx.toNat * a.row.unitBits + (a.row.wCount + 1).toNat = _
    rw [hw, hub, A.unitIdx, A.wCount]
    rfl

end Sys2Proof.Machine
end

