-- ==== Sys2Proof/Laws/Loop.lean ====
section
/-! SUPPORT. What a sample step leaves alone whatever it ends in, when it goes on, and the sample loop as one induction. -/

namespace Sys2Proof.Machine

/-- The state a body has reached, whether it goes on or has ended. -/
def Body.state : Body → State
  | .goes s => s
  | .ends s => s

@[simp] theorem Body.state_goes (s : State) : (Body.goes s).state = s := rfl
@[simp] theorem Body.state_ends (s : State) : (Body.ends s).state = s := rfl

theorem RowRegs.unitData_length (r : RowRegs) : r.unitData.length = r.unitBytes := by
  unfold RowRegs.unitData RowRegs.unitBytes
  cases h : r.lUnit32 <;> simp [Machine.unitBytes, Machine.unitBits]

/-! ### Whatever happens: latches, configuration, memory outside the unit -/

theorem SameButRow.unitAddr {s t : State} (h : SameButRow s t) (hu : t.row.unitIdx = s.row.unitIdx) :
    t.row.unitAddr = s.row.unitAddr ∧ t.row.unitBytes = s.row.unitBytes := by
  simp [RowRegs.unitAddr, RowRegs.unitBytes, h.lDstRow, h.lUnit32, hu]

/-- Step 4a, whatever it ends in. -/
theorem advanceCursor_confined (s : State) :
    SameButRow s (advanceCursor s).state ∧ (advanceCursor s).state.row.unitIdx = s.row.unitIdx ∧
      (advanceCursor s).state.mem = s.mem ∧ (advanceCursor s).state.row.wCount = s.row.wCount ∧
      (advanceCursor s).state.row.acc = s.row.acc ∧
      (((∃ a, advanceCursor s = .goes a ∧ a.status = s.status ∧ a.engine = s.engine)) ∨
        (∃ a, advanceCursor s = .ends a ∧ a.engine = .hung ∧ a.status = s.status) ∨
        ∃ a, advanceCursor s = .ends a ∧ a.engine = .completing none ∧
          a.status = Status.raise { s.status with rowActive := false } .bus) := by
  rcases advanceCursor_cases s with ⟨-, he⟩ | ⟨-, -, he⟩ | ⟨-, -, he⟩
  · rw [he]; exact ⟨SameButRow.refl s, rfl, rfl, rfl, rfl, .inl ⟨_, rfl, rfl, rfl⟩⟩
  · rw [he]; exact ⟨by constructor <;> simp, by simp, rfl, by simp, by simp, .inl ⟨_, rfl, rfl, rfl⟩⟩
  · rw [he]
    rcases loadSrcByte_cases { s with row := s.row.moved } with ⟨-, hl⟩ | ⟨-, hl⟩ | ⟨-, hl⟩ <;> rw [hl]
    · exact ⟨by constructor <;> simp, by simp, by simp, by simp, by simp, .inl ⟨_, rfl, by simp, by simp⟩⟩
    · exact ⟨by constructor <;> simp, by simp, by simp, by simp, by simp, .inr (.inr ⟨_, rfl, by simp, by simp⟩)⟩
    · exact ⟨by constructor <;> simp, by simp, by simp, by simp, by simp, .inr (.inl ⟨_, rfl, by simp, by simp⟩)⟩

/-- `PackBit`, whatever it ends in. -/
theorem packBit_confined (bit : Bool) (s : State) :
    SameButRow s (packBit bit s).state ∧
      (s.mem.wf → (packBit bit s).state.mem.wf) ∧
      (∀ a : Word, (∀ k < s.row.unitBytes, a ≠ s.row.unitAddr + BitVec.ofNat 32 k) →
        (packBit bit s).state.mem.read a = s.mem.read a) ∧
      ((∃ t, packBit bit s = .goes t ∧ t.engine = s.engine ∧
          (t.status = s.status ∨ t.status = { s.status with rowActive := false })) ∨
        (∃ t, packBit bit s = .ends t ∧ t.engine = .hung ∧ t.status = s.status ∧
          t.row.unitIdx = s.row.unitIdx ∧ t.row.wCount.toNat = t.row.unitBits) ∨
        ∃ t, packBit bit s = .ends t ∧ t.engine = .completing none ∧
          t.status = Status.raise { s.status with rowActive := false } .bus ∧
          t.row.unitIdx = s.row.unitIdx ∧ t.row.wCount.toNat = t.row.unitBits) := by
  rcases packBit_cases bit s with ⟨hc, hp⟩ | ⟨-, hp⟩
  · rw [hp]
    rcases flushUnit_cases { s with row := s.row.append bit } with ⟨-, hl⟩ | ⟨-, hl⟩ | ⟨-, hl⟩ <;> rw [hl]
    · refine ⟨by constructor <;> simp, fun h => ?_, fun a h => ?_, .inl ⟨_, rfl, by simp, ?_⟩⟩
      · rw [Body.state_goes, flushDone_mem]
        exact State.storeBytes_mem_wf (s := { s with row := s.row.append bit }) h _ _
      · rw [Body.state_goes, flushDone_mem]
        refine State.storeBytes_read_ne _ _ _ _ fun k hk => ?_
        rw [RowRegs.unitData_length] at hk
        exact h k hk
      · rw [flushDone_status]
        split
        · exact .inr rfl
        · exact .inl rfl
    · refine ⟨by constructor <;> simp, fun h => ?_, fun a h => ?_,
        .inr (.inr ⟨_, rfl, by simp, by simp, by simp, by simpa [RowRegs.unitBits] using hc⟩)⟩
      · rw [Body.state_ends, flushFailed_mem]
        exact State.scramble_mem_wf (s := { s with row := s.row.append bit }) h _ _
      · rw [Body.state_ends, flushFailed_mem]
        exact State.scramble_read_ne _ _ _ _ h
    · refine ⟨by constructor <;> simp, fun h => ?_, fun a h => ?_,
        .inr (.inl ⟨_, rfl, by simp, by simp, by simp, by simpa [RowRegs.unitBits] using hc⟩)⟩
      · rw [Body.state_ends]
        rcases flushHung_mem { s with row := s.row.append bit } with hm | hm <;> rw [hm]
        · exact h
        · exact State.storeBytes_mem_wf (s := State.drawn { s with row := s.row.append bit }) h _ _
      · rw [Body.state_ends]
        rcases flushHung_mem { s with row := s.row.append bit } with hm | hm <;> rw [hm]
        refine State.storeBytes_read_ne _ _ _ _ fun k hk => ?_
        rw [RowRegs.unitData_length] at hk
        exact h k hk
  · rw [hp]
    exact ⟨by constructor <;> simp, fun h => h, fun a h => rfl, .inl ⟨_, rfl, rfl, .inl rfl⟩⟩

/-- How a sample step ends and what it leaves alone, in every state. -/
theorem sampleStep_confined (s : State) :
    SameButRow s (sampleStep s).state ∧
      (s.mem.wf → (sampleStep s).state.mem.wf) ∧
      (∀ a : Word, (∀ k < s.row.unitBytes, a ≠ s.row.unitAddr + BitVec.ofNat 32 k) →
        (sampleStep s).state.mem.read a = s.mem.read a) ∧
      ((∃ t, sampleStep s = .goes t ∧ t.engine = s.engine ∧
          (t.status = s.status ∨ t.status = { s.status with rowActive := false })) ∨
        (∃ t, sampleStep s = .ends t ∧ t.engine = .hung ∧ t.status = s.status ∧
          t.row.unitIdx = s.row.unitIdx ∧ (t.row.wCount = s.row.wCount ∨ t.row.wCount.toNat = t.row.unitBits)) ∨
        ∃ t, sampleStep s = .ends t ∧ t.engine = .completing none ∧
          t.status = Status.raise { s.status with rowActive := false } .bus ∧
          t.row.unitIdx = s.row.unitIdx ∧ (t.row.wCount = s.row.wCount ∨ t.row.wCount.toNat = t.row.unitBits)) := by
  obtain ⟨hs, hu, hm, hw, -, h⟩ := advanceCursor_confined s
  rcases h with ⟨a, ha, hst, hen⟩ | ⟨a, ha, hen, hst⟩ | ⟨a, ha, hen, hst⟩
  · rw [ha] at hs hu hm hw
    simp only [Body.state_goes] at hs hu hm hw
    obtain ⟨hs', hwf, hfr, h'⟩ := packBit_confined a.row.srcBit a
    obtain ⟨hua, hub⟩ := hs.unitAddr hu
    rcases h' with ⟨b, hb, hen', hst'⟩ | ⟨b, hb, hen', hst', hu', hw'⟩ | ⟨b, hb, hen', hst', hu', hw'⟩
    · have hg : sampleStep s = .goes (addScale b) := sampleStep_eq_goes.2 ⟨a, b, ha, hb, rfl⟩
      rw [hb] at hs' hwf hfr
      simp only [Body.state_goes] at hs' hwf hfr
      rw [hg]
      refine ⟨?_, ?_, ?_, .inl ⟨_, rfl, ?_, ?_⟩⟩
      · exact (hs.trans hs').trans (by constructor <;> rfl)
      · intro h; rw [← hm] at h; exact hwf h
      · intro x hx
        rw [← hm]
        exact hfr x (by rw [hua, hub]; exact hx)
      · rw [addScale_engine, hen', hen]
      · rw [addScale_status, ← hst]; exact hst'
    all_goals
      have hg : sampleStep s = .ends b := sampleStep_eq_ends.2 (.inr ⟨a, ha, hb⟩)
      rw [hb] at hs' hwf hfr
      simp only [Body.state_ends] at hs' hwf hfr
      rw [hg]
      refine ⟨hs.trans hs', fun h => hwf (by rw [hm]; exact h), fun x hx => ?_, ?_⟩
      · rw [← hm]; exact hfr x (by rw [hua, hub]; exact hx)
    · exact .inr (.inl ⟨b, rfl, hen', hst'.trans hst, hu'.trans hu, .inr hw'⟩)
    · exact .inr (.inr ⟨b, rfl, hen', by rw [hst', hst], hu'.trans hu, .inr hw'⟩)
  all_goals
    have hg : sampleStep s = .ends a := sampleStep_eq_ends.2 (.inl ha)
    rw [ha] at hs hu hm hw
    simp only [Body.state_ends] at hs hu hm hw
    rw [hg]
    refine ⟨hs, fun h => by rw [Body.state_ends, hm]; exact h, fun x _ => by rw [Body.state_ends, hm], ?_⟩
  · exact .inr (.inl ⟨a, rfl, hen, hst, hu, .inl hw⟩)
  · exact .inr (.inr ⟨a, rfl, hen, hst, hu, .inl hw⟩)

/-! ### When the platform performs the row's accesses a sample step goes on -/

theorem busAnswer_congr {s t : State} (h : t.platform = s.platform) (kind : BusKind) (a : Word) (n : Nat) :
    t.busAnswer kind a n = s.busAnswer kind a n := by
  simp [State.busAnswer, h]

theorem sampleStep_served {s : State} (h : RowInv s.par s.row) (hv : s.RowServed s.row) :
    ∃ t, sampleStep s = .goes t := by
  have hadv : ∃ a, advanceCursor s = .goes a := by
    rcases advanceCursor_cases s with ⟨-, he⟩ | ⟨-, -, he⟩ | ⟨-, -, he⟩
    · exact ⟨_, he⟩
    · exact ⟨_, he⟩
    · have hok : State.busAnswer { s with row := s.row.moved } .read s.row.moved.srcAddr 1 = .ok := by
        have hlt := RowRegs.moved_curByte_lt h.curByte
        have := hv.1 s.row.moved.curByte.toNat hlt
        change s.busAnswer .read s.row.moved.srcAddr 1 = .ok
        convert this using 1
        simp [RowRegs.srcAddr, BitVec.ofNat_toNat]
      rcases loadSrcByte_cases { s with row := s.row.moved } with ⟨-, hl⟩ | ⟨hx, -⟩ | ⟨hx, -⟩
      · exact ⟨_, by rw [he, hl]⟩
      · rw [hok] at hx; exact absurd hx (by simp)
      · rw [hok] at hx; exact absurd hx (by simp)
  obtain ⟨a, ha⟩ := hadv
  have A := advanceCursor_goes h ha
  have hpack : ∃ b, packBit a.row.srcBit a = .goes b := by
    rcases packBit_cases a.row.srcBit a with ⟨-, hp⟩ | ⟨-, hp⟩
    · have hok : State.busAnswer { a with row := a.row.append a.row.srcBit } .write
          (a.row.append a.row.srcBit).unitAddr (a.row.append a.row.srcBit).unitBytes = .ok := by
        change a.busAnswer .write (a.row.append a.row.srcBit).unitAddr (a.row.append a.row.srcBit).unitBytes = .ok
        rw [busAnswer_congr A.same.platform]
        have := hv.2 s.row.unitIdx.toNat h.unitIdx
        simpa [RowRegs.unitAddr, RowRegs.unitBytes, A.same.lDstRow, A.unitIdx, A.same.lUnit32] using this
      rcases flushUnit_cases { a with row := a.row.append a.row.srcBit } with ⟨-, hl⟩ | ⟨hx, -⟩ | ⟨hx, -⟩
      · exact ⟨_, by rw [hp, hl]⟩
      · simp only at hx; rw [hok] at hx; exact absurd hx (by simp)
      · simp only at hx; rw [hok] at hx; exact absurd hx (by simp)
    · exact ⟨_, hp⟩
  obtain ⟨b, hb⟩ := hpack
  exact ⟨_, sampleStep_eq_goes.2 ⟨a, b, ha, hb, rfl⟩⟩

/-! ### The loop as one induction -/

/-- One step of the loop: the loop goes on, the row has ended, or the command body has. -/
theorem loopStep_cases (s : State) :
    (∃ t, sampleStep s = .goes t ∧ t.status.rowActive = true ∧ loopStep s = { t with engine := .sampling }) ∨
    (∃ t, sampleStep s = .goes t ∧ t.status.rowActive = false ∧ loopStep s = t.endBody) ∨
    ∃ t, sampleStep s = .ends t ∧ loopStep s = t := by
  unfold loopStep
  cases h : sampleStep s with
  | goes t =>
    cases ha : t.status.rowActive
    · exact .inr (.inl ⟨t, rfl, ha, by simp [loopOrEnd, ha]⟩)
    · exact .inl ⟨t, rfl, ha, by simp [loopOrEnd, ha]⟩
  | ends t => exact .inr (.inr ⟨t, rfl, rfl⟩)

/-- A body that has ended: only completion, or nothing, can follow. -/
abbrev Engine.Ended (e : Engine) : Prop := (∃ c, e = .completing c) ∨ e = .hung

/-- After the end of a body, more steps complete it or leave it. -/
theorem continueFor_ended (n : Nat) {s : State} (h : s.engine.Ended) :
    continueFor n s = s ∨ continueFor n s = s.complete := by
  cases n with
  | zero => exact .inl rfl
  | succ n =>
    rcases h with ⟨c, h⟩ | h
    · exact .inr (continueFor_completing n h)
    · exact .inl (continueFor_hung _ h)

/-- The rule of the sample loop. `I` holds while the loop runs and every step keeps it; `J` holds where a step ends the
body. Then after any number of steps the loop still runs with `I`, or it has ended with `J` and was completed or not. -/
theorem loop_rule {I J : State → Prop}
    (hgo : ∀ s t, I s → sampleStep s = .goes t → t.status.rowActive = true → I { t with engine := .sampling })
    (hend : ∀ s t, I s → sampleStep s = .goes t → t.status.rowActive = false → J t.endBody)
    (hstop : ∀ s t, I s → sampleStep s = .ends t → J t) (hJ : ∀ s, J s → s.engine.Ended)
    (n : Nat) {s : State} (hI : I s) (he : s.engine = .sampling) :
    (I (continueFor n s) ∧ (continueFor n s).engine = .sampling) ∨
      ∃ u, J u ∧ (continueFor n s = u ∨ continueFor n s = u.complete) := by
  induction n generalizing s with
  | zero => exact .inl ⟨hI, he⟩
  | succ n ih =>
    rw [continueFor_succ, continueStep_sampling he]
    rcases loopStep_cases s with ⟨t, hg, ha, hl⟩ | ⟨t, hg, ha, hl⟩ | ⟨t, hg, hl⟩
    · rw [hl]; exact ih (hgo s t hI hg ha) rfl
    · rw [hl]; exact .inr ⟨_, hend s t hI hg ha, continueFor_ended n (hJ _ (hend s t hI hg ha))⟩
    · rw [hl]; exact .inr ⟨_, hstop s t hI hg, continueFor_ended n (hJ _ (hstop s t hI hg))⟩

/-- A served sound row ends after exactly the samples it has left (R169), and the next step completes the command. -/
theorem loop_served (n : Nat) {s : State} (hinv : RowInv s.par s.row) (ha : s.status.rowActive = true)
    (hv : s.RowServed s.row) (he : s.engine = .sampling) (hn : s.row.taken + n = numSamples s.par) :
    SameButRow s (continueFor n s) ∧ (continueFor n s).engine = .completing none ∧
      (continueFor n s).status = { s.status with rowActive := false } ∧ (continueFor n s).row.acc = 0 ∧
      (continueFor n s).row.wCount = 0 ∧ (continueFor n s).row.unitIdx.toNat = numUnits s.par s.row.lUnit32 := by
  induction n generalizing s with
  | zero => have := hinv.taken_lt; omega
  | succ n ih =>
    obtain ⟨t, hg⟩ := sampleStep_served hinv hv
    obtain ⟨hsame, hen, htk, hcase⟩ := sampleStep_goes hinv hg
    rw [continueFor_succ, continueStep_sampling he]
    rcases hcase with ⟨hst, hinv'⟩ | ⟨hst, hlast, hacc, hw, hu⟩
    · have hl : loopStep s = { t with engine := .sampling } := by
        unfold loopStep
        rw [hg]
        change loopOrEnd t = _
        rw [loopOrEnd, if_pos (by rw [hst]; exact ha)]
      rw [hl]
      have hsv : State.RowServed { t with engine := .sampling } t.row := by
        constructor
        · intro k hk
          rw [hsame.lStride] at hk
          have := hv.1 k hk
          rw [← hsame.lSrcRow] at this
          exact (busAnswer_congr hsame.platform ..).trans this
        · intro u hu
          rw [show State.par { t with engine := .sampling } = s.par from hsame.par, hsame.lUnit32] at hu
          have := hv.2 u hu
          rw [← hsame.lDstRow, show s.row.unitBytes = t.row.unitBytes by
            simp [RowRegs.unitBytes, hsame.lUnit32]] at this
          exact (busAnswer_congr hsame.platform ..).trans this
      obtain ⟨h1, h2, h3, h4, h5, h6⟩ := ih (s := { t with engine := .sampling }) hinv' (by rw [hst]; exact ha) hsv rfl
        (by rw [show State.row { t with engine := .sampling } = t.row from rfl, htk, hsame.par]; omega)
      refine ⟨hsame.trans ⟨h1.par, h1.cfg, h1.platform, h1.raced, h1.host, h1.reply, h1.rowY, h1.srcRowIdx, h1.lSrcRow,
        h1.lDstRow, h1.lStride, h1.lUnit32, h1.lScale⟩, h2, by rw [h3, hst], h4, h5, ?_⟩
      rw [h6]
      change numUnits t.par t.row.lUnit32 = _
      rw [hsame.par, hsame.lUnit32]
    · have hl : loopStep s = t.endBody := by
        unfold loopStep
        rw [hg]
        change loopOrEnd t = _
        rw [loopOrEnd, if_neg (by rw [hst]; simp)]
      have hn0 : n = 0 := by omega
      subst hn0
      rw [hl, continueFor_zero]
      exact ⟨⟨hsame.par, hsame.cfg, hsame.platform, hsame.raced, hsame.host, hsame.reply, hsame.rowY, hsame.srcRowIdx,
        hsame.lSrcRow, hsame.lDstRow, hsame.lStride, hsame.lUnit32, hsame.lScale⟩, rfl, hst, hacc, hw, hu⟩

end Sys2Proof.Machine
end

