-- ==== Sys2Proof/Laws/Engine.lean ====
section
/-! SUPPORT. A command that has begun goes on by `continueStep` alone: no engine step accepts a word. -/

namespace Sys2Proof.Machine

theorem engineSteps_succ (n : Nat) (s : State) : engineSteps (n + 1) s = engineSteps n (engineStep s) := rfl

/-- How a step of the loop leaves the engine. -/
theorem loopStep_engine (s : State) :
    (loopStep s).engine = .sampling ∨ (loopStep s).engine = .completing none ∨ (loopStep s).engine = .hung := by
  rcases loopStep_cases s with ⟨t, -, -, hl⟩ | ⟨t, -, -, hl⟩ | ⟨t, hg, hl⟩
  · rw [hl]; exact .inl rfl
  · rw [hl]; exact .inr (.inl rfl)
  · rw [hl]
    rcases (sampleStep_confined s).2.2.2 with ⟨u, hu, -⟩ | ⟨u, hu, he, -⟩ | ⟨u, hu, he, -⟩
    · rw [hu] at hg; cases hg
    · obtain rfl : u = t := by rw [hu] at hg; injection hg
      exact .inr (.inr he)
    · obtain rfl : u = t := by rw [hu] at hg; injection hg
      exact .inr (.inl he)

theorem continueStep_not_accepted {s : State} (h : ∀ w, s.engine ≠ .accepted w) (w : Word) :
    (continueStep s).engine ≠ .accepted w := by
  cases he : s.engine with
  | idle => rw [continueStep_idle he]; exact h w
  | accepted v => exact absurd he (h v)
  | sampling =>
    rw [continueStep_sampling he]
    rcases loopStep_engine s with h' | h' | h' <;> rw [h'] <;> simp
  | completing c => rw [continueStep_completing he]; simp [State.complete]
  | hung => rw [continueStep_hung he]; exact h w

/-- Where no word waits for its dispatch, engine steps are the steps of the command that runs (R128). -/
theorem engineSteps_eq_continueFor (n : Nat) {s : State} (h : ∀ w, s.engine ≠ .accepted w) :
    engineSteps n s = continueFor n s := by
  induction n generalizing s with
  | zero => rfl
  | succ n ih =>
    have hs : engineStep s = continueStep s := by
      cases he : s.engine with
      | accepted v => exact absurd he (h v)
      | idle => simp [engineStep, he]
      | sampling => simp [engineStep, he]
      | completing c => simp [engineStep, he]
      | hung => simp [engineStep, he]
    rw [engineSteps_succ, hs, continueFor_succ]
    exact ih (continueStep_not_accepted h)

end Sys2Proof.Machine
end

