-- ==== Sys2Proof/Laws/Host.lean ====
section
/-! SUPPORT. What a host access to memory can do, raced or not. -/

namespace Sys2Proof.Machine

@[simp] theorem State.hostWriteByte_par (s : State) (a : Word) (v : Byte) : (s.hostWriteByte a v).par = s.par := by
  unfold State.hostWriteByte; split
  · dsimp only; split <;> rfl
  · rfl
@[simp] theorem State.hostWriteByte_cfg (s : State) (a : Word) (v : Byte) : (s.hostWriteByte a v).cfg = s.cfg := by
  unfold State.hostWriteByte; split
  · dsimp only; split <;> rfl
  · rfl
@[simp] theorem State.hostWriteByte_status (s : State) (a : Word) (v : Byte) : (s.hostWriteByte a v).status = s.status := by
  unfold State.hostWriteByte; split
  · dsimp only; split <;> rfl
  · rfl
@[simp] theorem State.hostWriteByte_row (s : State) (a : Word) (v : Byte) : (s.hostWriteByte a v).row = s.row := by
  unfold State.hostWriteByte; split
  · dsimp only; split <;> rfl
  · rfl
@[simp] theorem State.hostWriteByte_engine (s : State) (a : Word) (v : Byte) : (s.hostWriteByte a v).engine = s.engine := by
  unfold State.hostWriteByte; split
  · dsimp only; split <;> rfl
  · rfl
@[simp] theorem State.hostWriteByte_platform (s : State) (a : Word) (v : Byte) : (s.hostWriteByte a v).platform = s.platform := by
  unfold State.hostWriteByte; split
  · dsimp only; split <;> rfl
  · rfl
@[simp] theorem State.hostWriteByte_stored (s : State) (a : Word) (v : Byte) : (s.hostWriteByte a v).stored = s.stored := by
  unfold State.hostWriteByte; split
  · dsimp only; split <;> rfl
  · rfl
@[simp] theorem State.hostWriteByte_host (s : State) (a : Word) (v : Byte) : (s.hostWriteByte a v).host = s.host := by
  unfold State.hostWriteByte; split
  · dsimp only; split <;> rfl
  · rfl
@[simp] theorem State.hostWriteByte_reply (s : State) (a : Word) (v : Byte) : (s.hostWriteByte a v).reply = s.reply := by
  unfold State.hostWriteByte; split
  · dsimp only; split <;> rfl
  · rfl
@[simp] theorem State.hostMemWrite_par (s : State) (a : Word) (vs : List Byte) :
    (s.hostMemWrite a vs).par = s.par := by
  induction vs generalizing s a with
  | nil => rfl
  | cons v vs ih => rw [State.hostMemWrite, ih, State.hostWriteByte_par]
@[simp] theorem State.hostMemWrite_cfg (s : State) (a : Word) (vs : List Byte) :
    (s.hostMemWrite a vs).cfg = s.cfg := by
  induction vs generalizing s a with
  | nil => rfl
  | cons v vs ih => rw [State.hostMemWrite, ih, State.hostWriteByte_cfg]
@[simp] theorem State.hostMemWrite_status (s : State) (a : Word) (vs : List Byte) :
    (s.hostMemWrite a vs).status = s.status := by
  induction vs generalizing s a with
  | nil => rfl
  | cons v vs ih => rw [State.hostMemWrite, ih, State.hostWriteByte_status]
@[simp] theorem State.hostMemWrite_row (s : State) (a : Word) (vs : List Byte) :
    (s.hostMemWrite a vs).row = s.row := by
  induction vs generalizing s a with
  | nil => rfl
  | cons v vs ih => rw [State.hostMemWrite, ih, State.hostWriteByte_row]
@[simp] theorem State.hostMemWrite_engine (s : State) (a : Word) (vs : List Byte) :
    (s.hostMemWrite a vs).engine = s.engine := by
  induction vs generalizing s a with
  | nil => rfl
  | cons v vs ih => rw [State.hostMemWrite, ih, State.hostWriteByte_engine]
@[simp] theorem State.hostMemWrite_platform (s : State) (a : Word) (vs : List Byte) :
    (s.hostMemWrite a vs).platform = s.platform := by
  induction vs generalizing s a with
  | nil => rfl
  | cons v vs ih => rw [State.hostMemWrite, ih, State.hostWriteByte_platform]
@[simp] theorem State.hostMemWrite_stored (s : State) (a : Word) (vs : List Byte) :
    (s.hostMemWrite a vs).stored = s.stored := by
  induction vs generalizing s a with
  | nil => rfl
  | cons v vs ih => rw [State.hostMemWrite, ih, State.hostWriteByte_stored]
@[simp] theorem State.hostMemWrite_host (s : State) (a : Word) (vs : List Byte) :
    (s.hostMemWrite a vs).host = s.host := by
  induction vs generalizing s a with
  | nil => rfl
  | cons v vs ih => rw [State.hostMemWrite, ih, State.hostWriteByte_host]
@[simp] theorem State.hostMemWrite_reply (s : State) (a : Word) (vs : List Byte) :
    (s.hostMemWrite a vs).reply = s.reply := by
  induction vs generalizing s a with
  | nil => rfl
  | cons v vs ih => rw [State.hostMemWrite, ih, State.hostWriteByte_reply]

/-- Everything a host write of a byte can do to memory: the host's value, or the value of the running command's store. -/
theorem State.hostWriteByte_mem (s : State) (a : Word) (v : Byte) :
    (s.hostWriteByte a v).mem = s.mem.write a v ∨
      ∃ e, s.status.busy = true ∧ s.engineByte a = some e ∧ (s.hostWriteByte a v).mem = s.mem.write a e := by
  unfold State.hostWriteByte
  split
  · rename_i hb
    cases he : s.engineByte a with
    | none => exact .inl rfl
    | some e =>
      dsimp only
      cases drawBit s.draws
      · exact .inl rfl
      · exact .inr ⟨e, hb, rfl, rfl⟩
  · exact .inl rfl

theorem State.hostWriteByte_mem_wf {s : State} (h : s.mem.wf) (a : Word) (v : Byte) :
    (s.hostWriteByte a v).mem.wf := by
  rcases s.hostWriteByte_mem a v with hm | ⟨e, -, -, hm⟩ <;> rw [hm] <;> exact Memory.write_wf h a _

theorem State.hostWriteByte_read_ne (s : State) {a b : Word} (v : Byte) (h : b ≠ a) :
    (s.hostWriteByte a v).mem.read b = s.mem.read b := by
  rcases s.hostWriteByte_mem a v with hm | ⟨e, -, -, hm⟩ <;> rw [hm] <;> exact Memory.read_write_ne _ _ h

theorem State.hostMemWrite_mem_wf {s : State} (h : s.mem.wf) (a : Word) (vs : List Byte) :
    (s.hostMemWrite a vs).mem.wf := by
  induction vs generalizing s a with
  | nil => exact h
  | cons v vs ih => exact ih (State.hostWriteByte_mem_wf h a v) (a + 1)

/-- The value a store of the running command gave a byte is a byte of a unit it stored. -/
theorem State.engineByte_some {s : State} {a : Word} {e : Byte} (h : s.engineByte a = some e) :
    ∃ u ∈ s.stored, (a - u.addr).toNat < u.new.length ∧ u.new[(a - u.addr).toNat]? = some e := by
  unfold State.engineByte at h
  split at h
  · rename_i u hu
    exact ⟨u, List.mem_of_find?_eq_some hu, by simpa [StoredUnit.holds] using List.find?_some hu, h⟩
  · simp at h

/-- One access sees of a unit memory as it is, its old bytes, or its new bytes. -/
theorem StoredUnit.view_cases (u : StoredUnit) (m : Memory) (d : Nat) :
    u.view m d = m ∨ u.view m d = m.writeList u.addr u.old ∨ u.view m d = m.writeList u.addr u.new := by
  unfold StoredUnit.view
  cases drawBit d
  · exact .inl rfl
  · cases drawBit (d + 1)
    · exact .inr (.inl rfl)
    · exact .inr (.inr rfl)

/-- The memory an access sees is in its canonical form. -/
theorem hostView_wf {m : Memory} (h : m.wf) (d : Nat) (a : Word) (n : Nat) (us : List StoredUnit) :
    (hostView m d a n us).1.wf := by
  induction us generalizing m d with
  | nil => exact h
  | cons u us ih =>
    rw [hostView]
    split
    · refine ih ?_ _
      rcases u.view_cases m d with hv | hv | hv <;> rw [hv]
      · exact h
      · exact Memory.writeList_wf h _ _
      · exact Memory.writeList_wf h _ _
    · exact ih h _

@[simp] theorem State.hostMemRead_length (s : State) (a : Word) (n : Nat) : (s.hostMemRead a n).1.length = n := by
  unfold State.hostMemRead; split <;> simp

end Sys2Proof.Machine
end

