-- ==== Sys2Proof/Laws/PerInstr.lean ====
section
/-! SUPPORT. Statements for every command, as syntax, one lemma per constructor. -/

namespace Sys2Proof.Laws.TableWord

/-- The word of a well-formed command matches its row of the opcode table under the mask 0x0000FFFF and carries its row
in bits [31:16] (R100, R102). -/
def Statement (i : Instr) : Prop :=
  i.WellFormed → encode i &&& 0x0000FFFF = BitVec.ofNat 32 i.op ∧ (encode i >>> 16).toNat = i.row

theorem nop : Statement .nop := fun _ => by decide
theorem cvtScale : Statement .cvtScale := fun _ => by decide
theorem cvtOffset : Statement .cvtOffset := fun _ => by decide
theorem sample : Statement .sample := fun _ => by decide
theorem rowFinish : Statement .rowFinish := fun _ => by decide

/-- The two fields of an assembled word. -/
theorem assembled_fields (y op : Nat) (hy : y < 2 ^ 16) (ho : op < 16) :
    (BitVec.ofNat 32 y <<< 16 ||| BitVec.ofNat 32 op) &&& 0x0000FFFF = BitVec.ofNat 32 op ∧
      ((BitVec.ofNat 32 y <<< 16 ||| BitVec.ofNat 32 op) >>> 16 : Word).toNat = y := by
  have h : (BitVec.ofNat 32 y <<< 16 ||| BitVec.ofNat 32 op).toNat = y * 65536 + op := by
    rw [BitVec.toNat_or, BitVec.toNat_shiftLeft, BitVec.toNat_ofNat, BitVec.toNat_ofNat, Nat.shiftLeft_eq,
      Nat.mod_eq_of_lt (a := y) (by omega), Nat.mod_eq_of_lt (a := op) (by omega),
      Nat.mod_eq_of_lt (by omega), ← Nat.shiftLeft_eq, ← Nat.shiftLeft_add_eq_or_of_lt (by omega), Nat.shiftLeft_eq]
  constructor
  · apply BitVec.eq_of_toNat_eq
    rw [BitVec.toNat_and, h, show (65535 : Word).toNat = 2 ^ 16 - 1 from rfl, Nat.and_two_pow_sub_one_eq_mod,
      BitVec.toNat_ofNat]
    omega
  · rw [BitVec.toNat_ushiftRight, h, Nat.shiftRight_eq_div_pow]
    omega

theorem rowSetup (y : Nat) : Statement (.rowSetup y) := fun h =>
  assembled_fields y 3 (by simpa [Instr.WellFormed, Instr.wellFormed] using h) (by omega)

theorem rowRun (y : Nat) : Statement (.rowRun y) := fun h =>
  assembled_fields y 6 (by simpa [Instr.WellFormed, Instr.wellFormed] using h) (by omega)

end Sys2Proof.Laws.TableWord
end

