-- ==== Sys2Proof/Laws/Registers.lean ====
section
/-! SUPPORT. The register window's addresses, and when a host step is taken. -/

namespace Sys2Proof.Machine

/-- A 32-bit aligned access inside the window is made at its offset (R12, R31). -/
theorem windowOffset_word (p : Params) {off : Nat} (h4 : off % 4 = 0) (h : off < 256) :
    windowOffset p (p.regBase + BitVec.ofNat 32 off) .word = some off := by
  have hs : (p.regBase + BitVec.ofNat 32 off - p.regBase).toNat = off := by
    rw [BitVec.add_comm, BitVec.add_sub_cancel, BitVec.toNat_ofNat]
    omega
  unfold windowOffset
  simp only [hs, h4, h, and_self, if_true]

/-- Any other access is refused (R31). -/
theorem windowOffset_none {p : Params} {addr : Word} {size : AccessSize}
    (h : size ≠ .word ∨ (addr - p.regBase).toNat % 4 ≠ 0 ∨ 256 ≤ (addr - p.regBase).toNat) :
    windowOffset p addr size = none := by
  unfold windowOffset
  rw [if_neg]
  rintro ⟨h1, h2, h3⟩
  rcases h with h | h | h
  · exact h h1
  · exact h h2
  · omega

@[simp] theorem Reg.atOffset_offset (r : Reg) : Reg.atOffset r.offset = some r := by cases r <;> rfl

theorem Reg.offset_aligned (r : Reg) : r.offset % 4 = 0 := by cases r <;> decide

theorem Reg.offset_lt (r : Reg) : r.offset < 256 := by cases r <;> decide

/-- A host step that is due and is no WAIT is not held back (R128). -/
theorem hostWaits_of_due {s : State} {act : HostAction} {rest : List HostStep} (ha : act ≠ .wait)
    (h : s.host = { delay := 0, act := act } :: rest) : s.hostWaits = false := by
  simp [State.hostWaits, h, ha]

/-- A reset event gives the registers their reset values, whether or not a store is cut off (R230, R231). -/
theorem resetEvent_fields (s : State) (mid : Bool) :
    (s.resetEvent mid).par = s.par ∧ (s.resetEvent mid).cfg = ConfigRegs.reset
      ∧ (s.resetEvent mid).status = Status.reset ∧ (s.resetEvent mid).row = RowRegs.reset
      ∧ (s.resetEvent mid).engine = .idle ∧ (s.resetEvent mid).host = s.host
      ∧ (s.resetEvent mid).platform = s.platform := by
  unfold State.resetEvent
  split <;> refine ⟨?_, rfl, rfl, rfl, rfl, ?_, ?_⟩ <;> simp

end Sys2Proof.Machine
end

