-- ==== Sys2Proof/Tests/Slice0.lean ====
section
/-! SUPPORT. Tests from the spec's examples (41_fixed_point_scaler.md, 95_test_vectors.md), words written out from R100,
ill-formed terms the checks refuse, and a witness for every statement that has hypotheses. -/

namespace Sys2Proof.Tests

open Sys2Proof Sys2Proof.Machine

/-! ### States of the tests -/

/-- Fixture F of 95_test_vectors.md at scale 1.0: P_COLUMNS = 32, P_ROWS = 4, two source rows at 0x1000. -/
def fixture : State :=
  { State.reset with
    par := { columns := 32, rows := 4, regBase := 0x40000000 }
    platform := []
    mem := ⟨[(0x1000, 0xA5), (0x1001, 0x3C), (0x1002, 0x0F), (0x1003, 0x81),
      (0x1004, 0x12), (0x1005, 0x34), (0x1006, 0x56), (0x1007, 0x78)]⟩
    cfg := { ConfigRegs.reset with
      srcBase := 0x1000, srcWidth := 32, srcHeight := 2, srcStride := 4, dstBase := 0x2000, scaleFx := 0x10000 } }

/-- The fixture with a command word accepted. -/
def accepted (w : Word) : State := fixture.accept w

/-- The fixture with one host step due. -/
def due (s : State) (act : HostAction) : State := { s with host := [{ delay := 0, act := act }] }

/-- The row registers after `ROW_SETUP 0` of the fixture. -/
def rowAtSetup : RowRegs :=
  { RowRegs.reset with
    srcByte := 0xA5, lSrcRow := 0x1000, lDstRow := 0x2000, lStride := 4, lUnit32 := true, lScale := 0x10000 }

/-- The fixture with its row 0 set up. -/
def active : State := { fixture with row := rowAtSetup, status := { Status.reset with done := true, rowActive := true } }

/-- The last sample of the row is due, after `31` samples at scale 1.0. -/
def lastSample : State :=
  { active with row := { rowAtSetup with
      curByte := 3, curBit := 6, curFrac := 0x10000, acc := 0xA53C0F80, wCount := 31, srcByte := 0x81 } }

/-- A byte carry is due: the cursor is on the last bit of byte 0 with one pixel pending. -/
def carryDue : State :=
  { active with row := { rowAtSetup with curBit := 7, curFrac := 0x10000, acc := 0xA5000000, wCount := 8 } }

/-- The platform answers every transaction at one address so. -/
def answering (s : State) (a : Nat) (r w : BusAnswer) : State :=
  { s with platform := [{ base := a, size := 1, onRead := r, onWrite := w }] }

/-- The sample loop of the row, with a command running. -/
def running : State := { active with status := { active.status with busy := true, done := false }, engine := .sampling }

/-- The loop of a row of two units, P_COLUMNS = 64, after the first: that unit is stored and the command still runs. -/
def midRow : State :=
  { running with
    par := { columns := 64, rows := 4, regBase := 0x40000000 }
    row := { rowAtSetup with unitIdx := 1, curByte := 3, curBit := 7, curFrac := 0x10000, srcByte := 0x81 }
    mem := fixture.mem.writeList 0x2000 [0xA5, 0x3C, 0x0F, 0x81]
    stored := [{ addr := 0x2000, old := [0, 0, 0, 0], new := [0xA5, 0x3C, 0x0F, 0x81] }] }

/-- The command of `midRow` has ended and completion is next. -/
def midEnd : State := { midRow with engine := .completing none }

/-- The last sample of the row is due in the loop. -/
def lastInLoop : State := { lastSample with engine := .sampling }

/-- The last sample of a unit is due in the loop, and its step reloads at 0x1001. -/
def lastReload : State :=
  { active with
    engine := .sampling
    row := { rowAtSetup with curBit := 7, curFrac := 0x10000, acc := 0xA5000000, wCount := 31 } }

/-- The next state of an outcome. -/
def nextOf (o : Host.Outcome State Fault Refusal) : Option State :=
  match o with
  | .next s => some s
  | .fault _ => none
  | .refused _ => none

/-! ### Ill-formed terms, and words written out bit by bit from R100: ROW [31:16], RSVD [15:4], OP [3:0] -/

theorem test_wellFormed_refuses_wide_row_setup : ¬(Instr.rowSetup 0x10000).WellFormed := by decide
theorem test_wellFormed_refuses_wide_row_run : ¬(Instr.rowRun 0x10000).WellFormed := by decide
theorem test_wellFormed_takes_widest_row : (Instr.rowRun 0xFFFF).WellFormed := by decide

theorem test_decode_nop : decode 0b00000000000000000000000000000000 = .ok .nop := by decide
theorem test_decode_cvtScale : decode 0b00000000000000000000000000000001 = .ok .cvtScale := by decide
theorem test_decode_cvtOffset : decode 0b00000000000000000000000000000010 = .ok .cvtOffset := by decide
theorem test_decode_rowSetup : decode 0b10000000000000010000000000000011 = .ok (.rowSetup 0x8001) := by decide
theorem test_decode_sample : decode 0b00000000000001010000000000000100 = .ok .sample := by decide
theorem test_decode_rowFinish : decode 0b00000000000000000000000000000101 = .ok .rowFinish := by decide
theorem test_decode_rowRun : decode 0b00000000000001010000000000000110 = .ok (.rowRun 5) := by decide
theorem test_decode_op_7 : decode 0b00000000000000000000000000000111 = .error .reservedOpcode := by decide
theorem test_decode_rsvd_bit_4 : decode 0b00000000000000000000000000010000 = .error .reservedBits := by decide
theorem test_decode_rsvd_bit_15 : decode 0b00000000000000001000000000000110 = .error .reservedBits := by decide
/-- R109's examples. -/
theorem test_disassemble_rowRun : disassemble 0x00050006 = "ROW_RUN 5" := by decide
theorem test_disassemble_illegal : disassemble 0x00000007 = ".word 0x00000007" := by decide
theorem test_table_word : decodeTableWord 32 0x00050006 = some (.rowRun 5) := by decide
theorem test_fetch_word : ((fixture.withFetchWord 32 4).engine, (fixture.withFetchWord 32 4).status.busy) =
    (Engine.accepted 4, true) := by decide

/-! ### Commands, one step each -/

/-- V-CC1: `CMD NOP` gives STATUS = 0x2. -/
theorem test_nop : (nextOf (step (accepted 0))).map (·.status.word) = some 0x2 := by decide
/-- V-CC2, V-CC3: STATUS = 0x106. -/
theorem test_illegal_opcode : (nextOf (step (accepted 7))).map (·.status.word) = some 0x106 := by decide
theorem test_illegal_rsvd : (nextOf (step (accepted 0x10))).map (·.status.word) = some 0x106 := by decide

/-- R142's example: 1.3f rounds to 0x00014CCD. -/
theorem test_cvtScale_rounds :
    (nextOf (exec .cvtScale { fixture with cfg := { fixture.cfg with scaleF32 := 0x3FA66666 } })).map
      (fun t => (t.cfg.scaleFx, t.status.word)) = some (0x00014CCD, 0x2) := by decide
/-- R142's corner: 2^-18 rounds to 0 and raises ERR_SCALE. -/
theorem test_cvtScale_refuses :
    (nextOf (exec .cvtScale { fixture with cfg := { fixture.cfg with scaleF32 := 0x36800000 } })).map
      (fun t => (t.cfg.scaleFx, t.status.word)) = some (0x00010000, 0x406) := by decide
/-- R144's corner: -0.3f truncates toward zero. -/
theorem test_cvtOffset_truncates :
    (nextOf (exec .cvtOffset { fixture with cfg := { fixture.cfg with offsetF32 := 0xBE99999A } })).map
      (fun t => (t.cfg.offsetFx, t.status.word)) = some (0xFFFFB334, 0x2) := by decide
/-- R144's corner: 32768.0 raises ERR_RANGE. -/
theorem test_cvtOffset_refuses :
    (nextOf (exec .cvtOffset { fixture with cfg := { fixture.cfg with offsetF32 := 0x47000000 } })).map
      (fun t => (t.cfg.offsetFx, t.status.word)) = some (0, 0x606) := by decide

/-- R160's example: offset -1.5 starts at byte 3, bit 6, fraction 0x8000. -/
theorem test_rowSetup_wraps :
    (nextOf (exec (.rowSetup 0) { fixture with cfg := { fixture.cfg with offsetFx := 0xFFFE8000 } })).map
      (fun t => (t.row.curByte, t.row.curBit, t.row.curFrac, t.row.srcByte, t.status.word)) =
      some (3, 6, 0x8000, 0x81, 0xA) := by decide
/-- Section 1.4: VOFF 0xFFFF, y 3, height 480 select row 258 at 0x1408. -/
theorem test_rowSetup_selects_row :
    (nextOf (exec (.rowSetup 3) { fixture with cfg := { fixture.cfg with vOff := 0xFFFF, srcHeight := 480 } })).map
      (fun t => (t.row.srcRowIdx, t.row.lSrcRow, t.row.lDstRow)) = some (258, 0x1408, 0x200C) := by decide

/-- V-RS6's second sample at scale 9.0: a carry of one byte and one bit. -/
theorem test_sample_carries :
    (nextOf (exec .sample { active with row := { rowAtSetup with
        curFrac := 0x90000, acc := 0x80000000, wCount := 1, lScale := 0x90000 } })).map
      (fun t => (t.row.curByte, t.row.curBit, t.row.srcByte, t.row.acc)) = some (1, 1, 0x3C, 0x80000000) := by decide
/-- V-RS11: SAMPLE without an active row. -/
theorem test_sample_no_row : (nextOf (exec .sample fixture)).map (·.status.word) = some 0x706 := by decide

/-- V-RS1's last unit: the bytes A5 3C 0F 81 at rising addresses, the row ended. -/
theorem test_rowFinish_stores :
    (nextOf (exec .rowFinish lastSample)).map
      (fun t => ([0x2000, 0x2001, 0x2002, 0x2003].map (t.mem.read ·), t.row.unitIdx, t.status.word)) =
      some ([0xA5, 0x3C, 0x0F, 0x81], 1, 0x2) := by decide

/-- V-RS5: N = 8, stride 3, width 16: the padding byte is sampled and the cursor wraps modulo 3. -/
theorem test_rowRun_wraps_stride :
    (nextOf (exec (.rowRun 0) { fixture with
        cfg := { fixture.cfg with unit32 := false, srcWidth := 16, srcStride := 3 } })).map
      (fun t => ([0x2000, 0x2001, 0x2002, 0x2003].map (t.mem.read ·), t.row.curByte, t.row.curBit, t.status.word)) =
      some ([0xA5, 0x3C, 0x0F, 0xA5], 0, 7, 0x2) := by decide
/-- V-EX9: ERR_ROW comes before ERR_GEOM. -/
theorem test_rowRun_priority :
    (nextOf (exec (.rowRun 9) { fixture with cfg := { fixture.cfg with srcWidth := 12 } })).map (·.status.word) =
      some 0x206 := by decide

/-! ### Witnesses: for every statement with hypotheses a state and operands that meet them together -/

theorem witness_EncodedCommandDecodes : (Instr.rowRun 0xFFFF).WellFormed ∧ (Instr.rowSetup 0).WellFormed ∧
    Instr.sample.WellFormed := by decide
theorem witness_DecodedWordEncodes : decode 0xFFFF0006 = .ok (.rowRun 0xFFFF) ∧ decode 0xFFFF0005 = .ok .rowFinish := by
  decide
/-- RSVD's lowest and highest bit, OP 7 and OP 15; and the neighbour OP 6, which is legal. -/
theorem witness_IllegalWordsRaiseErrOpcode :
    (rsvdField 0x10 ≠ 0 ∧ rsvdField 0x8000 ≠ 0 ∧ 7 ≤ (opField 7).toNat ∧ 7 ≤ (opField 15).toNat) ∧
      ((accepted 15).engine = .accepted 15 ∧ (accepted 15).hostWaits = true) ∧
      ¬(rsvdField 6 ≠ 0 ∨ 7 ≤ (opField 6).toNat) := by decide
theorem witness_StepRunsAcceptedCommand :
    (accepted 6).engine = .accepted 6 ∧ decode 6 = .ok (.rowRun 0) ∧ (accepted 6).hostWaits = true := by decide
/-- A step that is due, and one whose delay lasts. -/
theorem witness_HostStepsInterleave :
    ((due (accepted 6) (.memRead 0 1)).host = [{ delay := 0, act := .memRead 0 1 }] ∧
      (due (accepted 6) (.memRead 0 1)).hostWaits = false) ∧
    ({ accepted 6 with host := [{ delay := 3, act := .wait }] } : State).hostWaits = false := by decide
theorem witness_CmdWriteIsAccepted :
    (due fixture (.regWrite (Spec.at fixture 0x14) .word 6)).host =
      [{ delay := 0, act := .regWrite (Spec.at fixture 0x14) .word 6 }] ∧ fixture.status.busy = false ∧
      (due running (.regWrite (Spec.at running 0x14) .word 6)).host =
        [{ delay := 0, act := .regWrite (Spec.at running 0x14) .word 6 }] ∧ running.status.busy = true := by decide
/-- STATUS; CTRL, CMD and both ends of the RW registers; a read-only and a reserved offset on each side. -/
theorem witness_BusyWritesAreLost :
    ∀ off ∈ [0x10, 0x0C, 0x14, 0x18, 0x3C, 0x08, 0x40, 0x74, 0xFC], off % 4 = 0 ∧ off < 256 ∧
      (due running (.regWrite (Spec.at running off) .word 0x16)).host =
        [{ delay := 0, act := .regWrite (Spec.at running off) .word 0x16 }] ∧
      (running.status.busy = true ∨ ¬(off = 0x0C ∨ off = 0x14 ∨ (0x18 ≤ off ∧ off ≤ 0x3C))) := by decide
theorem witness_StatusWriteOneClears :
    (due running (.regWrite (Spec.at running 0x10) .word 0x16)).host =
      [{ delay := 0, act := .regWrite (Spec.at running 0x10) .word 0x16 }] := by decide
/-- CTRL, the one RW register outside 0x18..0x3C, and the last of that range. -/
theorem witness_IdleWriteTakesEffect :
    ∀ r ∈ [Reg.ctrl, Reg.srcWidth, Reg.offsetF32], r.access = .rw ∧ fixture.status.busy = false ∧
      (due fixture (.regWrite (Spec.at fixture r.offset) .word 0xFFFFFFFF)).host =
        [{ delay := 0, act := .regWrite (Spec.at fixture r.offset) .word 0xFFFFFFFF }] := by decide
/-- Reads of the first and the last reserved offset; writes of a reserved offset and at both ends of the read-only ones. -/
theorem witness_ReservedOffsetsAreInert :
    (∀ off ∈ [0x74, 0xFC], off % 4 = 0 ∧ off < 256 ∧ 0x74 ≤ off ∧
      (due running (.regRead (Spec.at running off) .word)).host =
        [{ delay := 0, act := .regRead (Spec.at running off) .word }]) ∧
    ∀ off ∈ [0x00, 0x08, 0x40, 0x70, 0x74], off % 4 = 0 ∧ off < 256 ∧ (0x74 ≤ off ∨ off < 0x0C ∨ (0x40 ≤ off ∧ off < 0x74)) ∧
      (due running (.regWrite (Spec.at running off) .word 1)).host =
        [{ delay := 0, act := .regWrite (Spec.at running off) .word 1 }] := by decide
/-- A narrow access, a misaligned one, the first address past the window and the last before it. -/
theorem witness_BadAccessesAreBusErrors :
    ∀ x ∈ ([(Spec.at fixture 0, .halfword), (Spec.at fixture 0x11, .word), (Spec.at fixture 0x100, .word),
        (fixture.par.regBase - 4, .word)] : List (Word × AccessSize)),
      (x.2 ≠ .word ∨ (x.1 - fixture.par.regBase).toNat % 4 ≠ 0 ∨ 256 ≤ (x.1 - fixture.par.regBase).toNat) ∧
      (due fixture (.regRead x.1 x.2)).host = [{ delay := 0, act := .regRead x.1 x.2 }] ∧
      (due fixture (.regWrite x.1 x.2 0)).host = [{ delay := 0, act := .regWrite x.1 x.2 0 }] := by decide
theorem witness_IdleReadsAreExact :
    (due fixture (.regRead (Spec.at fixture Reg.lScale.offset) .word)).host =
      [{ delay := 0, act := .regRead (Spec.at fixture Reg.lScale.offset) .word }] ∧ fixture.status.busy = false := by decide
/-- A conversion of each kind accepted, with an input it converts and one it refuses, and one of each kind after its
write. -/
def converting (w f32 : Word) : State :=
  State.accept { fixture with cfg := { fixture.cfg with scaleF32 := f32, offsetF32 := f32 } } w
def converted (which : CvtTarget) : State := { running with engine := .completing (some (which, 5)) }
/-- A row-state register, STATUS, SCALE_FX and OFFSET_FX with no conversion running, and the last register below the row
state. -/
theorem witness_BusyReadsAreFreeForRowState :
    ∀ r ∈ [Reg.curByte, Reg.lScale, Reg.status, Reg.scaleFx, Reg.offsetFx, Reg.offsetF32], running.status.busy = true ∧
      (due running (.regRead (Spec.at running r.offset) .word)).host =
        [{ delay := 0, act := .regRead (Spec.at running r.offset) .word }] := by decide
/-- CVT_SCALE running: 1.0 not yet written, 0.0 to be refused, and the old value 5 after its write. -/
theorem witness_BusyReadsAreFreeForRowState_scale :
    ((converting 1 0x3F800000).status.busy = true ∧ (converting 1 0x3F800000).engine = .accepted 1 ∧
      decode 1 = .ok .cvtScale ∧ Spec.ScaleAccepted (converting 1 0x3F800000).cfg.scaleF32 ∧
      (converting 1 0x3F800000).otherScale = some 0x10000) ∧
    (¬Spec.ScaleAccepted (converting 1 0).cfg.scaleF32 ∧ (converting 1 0).otherScale = none) ∧
    (converted .scaleFx).status.busy = true ∧ (converted .scaleFx).engine = .completing (some (.scaleFx, 5)) ∧
      (converted .scaleFx).otherScale = some 5 ∧ (converted .scaleFx).otherOffset = none := by decide
/-- CVT_OFFSET running: -1.5 not yet written, 32768.0 to be refused, and the old value 5 after its write. -/
theorem witness_BusyReadsAreFreeForRowState_offset :
    ((converting 2 0xBFC00000).status.busy = true ∧ (converting 2 0xBFC00000).engine = .accepted 2 ∧
      decode 2 = .ok .cvtOffset ∧ Spec.OffsetAccepted (converting 2 0xBFC00000).cfg.offsetF32 ∧
      (converting 2 0xBFC00000).otherOffset = some 0xFFFE8000) ∧
    (¬Spec.OffsetAccepted (converting 2 0x47000000).cfg.offsetF32 ∧ (converting 2 0x47000000).otherOffset = none) ∧
    (converted .offsetFx).status.busy = true ∧ (converted .offsetFx).engine = .completing (some (.offsetFx, 5)) ∧
      (converted .offsetFx).otherOffset = some 5 ∧ (converted .offsetFx).otherScale = none := by decide
/-- Bits 5 and 7, the ends of the reserved field of STATUS. -/
theorem witness_ReservedBitsReadZero : ∀ k ∈ [5, 7], 5 ≤ k ∧ k ≤ 7 ∧ (running.regValue .status).getLsbD k = false := by
  decide
theorem witness_IdentificationIsConstant : (nextOf (step (accepted 0))).isSome = true := by decide
theorem witness_InterruptIsALevel :
    (nextOf (exec .nop (accepted 0))).map (·.engine) = some .idle ∧
      (0x16 : Word).getLsbD 1 = true ∧ (0x16 : Word).getLsbD 2 = true := by decide
theorem midRow_inv : RowInv midRow.par midRow.row := by constructor <;> decide
theorem witness_ResetRegisterValues :
    (due running (.reset true)).host = [{ delay := 0, act := .reset true }] ∧
      (nextOf (step (due running (.reset true)))).isSome = true := by decide
theorem witness_CompletionSetsDone :
    ({ active with engine := .completing none } : State).engine = .completing none ∧
      (nextOf (exec .sample fixture)).map (·.engine) = some .idle := by decide
/-- A reset between engine steps; inside one that issues no store; inside one whose reload fails, so that the store that
was due is not issued; inside the completion of a command that has stored a unit; inside one that stores; and while the engine waits for an answer to a read. -/
theorem witness_ResetAbandonsCommand :
    (due running (.reset false)).host = [{ delay := 0, act := .reset false }] ∧ running.engine ≠ .hung ∧
      (engineStep running).stored.length ≠ running.stored.length + 1 ∧
      (engineStep (answering lastReload 0x1001 .error .ok)).stored.length ≠
        (answering lastReload 0x1001 .error .ok).stored.length + 1 ∧
      (midEnd.stored ≠ [] ∧ (engineStep midEnd).stored = []) ∧
      (engineStep lastInLoop).stored.length = lastInLoop.stored.length + 1 ∧
      ({ running with engine := .hung } : State).row.wCount.toNat ≠ unitBits running.row.lUnit32 := by decide
/-- R187: that reset leaves the unit being assembled alone; a reset inside the step that stores does not. -/
theorem test_reset_reload_error :
    (answering lastReload 0x1001 .error .ok).storeInFlight true = false ∧ lastReload.storeInFlight true = true := by decide

/-- The registers of a row just set up are sound. -/
theorem rowAtSetup_inv : RowInv fixture.par rowAtSetup := by constructor <;> decide
/-- So are those before the last sample of the row. -/
theorem lastSample_inv : RowInv lastSample.par lastSample.row := by constructor <;> decide
/-- A state inside the sample loop meets the invariants, and has a next state. -/
theorem witness_StepKeepsSoundness : Inv running ∧ (nextOf (step running)).isSome = true :=
  ⟨⟨by decide, by decide, by decide, by decide, by decide, by decide, by decide, by decide, by decide, by simp [running],
    by decide, fun _ _ => rowAtSetup_inv⟩, by decide⟩

/-- 2^-17, which rounds to 1, and 65535.0, which gives the largest scale. -/
theorem witness_CvtScaleFollowsRule_converts :
    ((decodeF32 0x37000000).cls = .finite ∧ (decodeF32 0x37000000).neg = false ∧ (decodeF32 0x37000000).mag ≠ 0 ∧
      roundMag (decodeF32 0x37000000).mag (decodeF32 0x37000000).exp = 1) ∧
    (decodeF32 0x477FFF00).cls = .finite ∧ (decodeF32 0x477FFF00).neg = false ∧ (decodeF32 0x477FFF00).mag ≠ 0 ∧
      roundMag (decodeF32 0x477FFF00).mag (decodeF32 0x477FFF00).exp = 0xFFFF0000 := by decide
/-- NaN, an infinity, -1.0, zero, 2^-18, 65536.0. -/
theorem witness_CvtScaleFollowsRule_refuses :
    (decodeF32 0x7FC00000).cls ≠ .finite ∧ (decodeF32 0x7F800000).cls ≠ .finite ∧ (decodeF32 0xBF800000).neg = true ∧
      (decodeF32 0).mag = 0 ∧ roundMag (decodeF32 0x36800000).mag (decodeF32 0x36800000).exp < 1 ∧
      0xFFFF0000 < roundMag (decodeF32 0x47800000).mag (decodeF32 0x47800000).exp := by decide
/-- -32768.0, the least offset, and the float below 32768.0. -/
theorem witness_CvtOffsetFollowsRule_converts :
    ((decodeF32 0xC7000000).cls = .finite ∧ (decodeF32 0xC7000000).neg = true ∧
      (-2 ^ 31 : Int) ≤ -(truncMag (decodeF32 0xC7000000).mag (decodeF32 0xC7000000).exp : Int)) ∧
    (decodeF32 0x46FFFFFF).cls = .finite ∧ (decodeF32 0x46FFFFFF).neg = false ∧
      (truncMag (decodeF32 0x46FFFFFF).mag (decodeF32 0x46FFFFFF).exp : Int) ≤ 2 ^ 31 - 1 := by decide
/-- NaN, 32768.0, and the float below -32768.0. -/
theorem witness_CvtOffsetFollowsRule_refuses :
    (decodeF32 0x7FC00000).cls ≠ .finite ∧
      (2 ^ 31 - 1 : Int) < truncMag (decodeF32 0x47000000).mag (decodeF32 0x47000000).exp ∧
      (decodeF32 0xC7000001).neg = true ∧
      -(truncMag (decodeF32 0xC7000001).mag (decodeF32 0xC7000001).exp : Int) < -2 ^ 31 := by decide
/-- `k = 0` and `k = -1`, at a tie. -/
theorem witness_MagnitudesRoundAsStated :
    roundMag 5 0 = 5 ∧ truncMag 5 0 = 5 ∧ roundMag 5 (-1) = 3 ∧ truncMag 5 (-1) = 2 := by decide
/-- Exponent fields 0, 1, 254 and 255. -/
theorem witness_DecodedF32IsExact :
    decodeF32 0x00000001 = { cls := .finite, neg := false, mag := 1, exp := -133 } ∧
      decodeF32 0x80800000 = { cls := .finite, neg := true, mag := 2 ^ 23, exp := -133 } ∧
      decodeF32 0x7F7FFFFF = { cls := .finite, neg := false, mag := 2 ^ 24 - 1, exp := 120 } ∧
      (decodeF32 0xFF800000).cls = .infinite ∧ (decodeF32 0x7F800001).cls = .nan := by decide
/-- R146's example: -1.5 in a row of 32 pixels. -/
theorem witness_WrapSplitLandsInRow :
    0 < 32 ∧ wrapSplit 0xFFFE8000 32 = { byteOffset := 3, bitOffset := 6, fracFixed := 0x8000 } := by decide

/-- The last row, and an address map that performs everything. -/
theorem witness_RowSetupLatchesRow :
    Spec.ChecksPass fixture.par fixture.cfg 3 ∧ fixture.busAnswer .read (Spec.firstSrc fixture.cfg 3) 1 = .ok := by decide
theorem witness_SelectedRowIsInBitmap :
    Spec.ChecksPass fixture.par fixture.cfg 3 ∧ (nextOf (exec (.rowSetup 3) fixture)).isSome = true := by decide
/-- Each check at the value where it begins to apply, those before it passed. -/
theorem witness_FailedChecksChangeNothing :
    fixture.par.rows.toNat ≤ 4 ∧ 3 < fixture.par.rows.toNat ∧
    (Spec.GeomBad { fixture.cfg with srcWidth := 0 } ∧ Spec.GeomBad { fixture.cfg with srcWidth := 12 } ∧
      Spec.GeomBad { fixture.cfg with srcHeight := 0 } ∧ Spec.GeomBad { fixture.cfg with srcStride := 0 } ∧
      Spec.GeomBad { fixture.cfg with srcStride := 3 }) ∧
    (¬Spec.GeomBad fixture.cfg ∧ Spec.ScaleBad { fixture.cfg with scaleFx := 0 } ∧
      Spec.ScaleBad { fixture.cfg with scaleFx := 0xFFFF0001 } ∧ ¬Spec.ScaleBad { fixture.cfg with scaleFx := 0xFFFF0000 }) ∧
    ¬Spec.ScaleBad fixture.cfg ∧ Spec.AlignBad { fixture.cfg with dstBase := 0x2001 } := by decide
theorem witness_SetupReadBusError :
    Spec.ChecksPass fixture.par fixture.cfg 0 ∧
      (answering fixture 0x1000 .error .ok).busAnswer .read (Spec.firstSrc fixture.cfg 0) 1 = .error := by decide

theorem witness_NoActiveRowIsRefused : fixture.par.wf ∧ fixture.status.rowActive = false := by decide
/-- A sample without a reload and one with it. -/
theorem witness_SampleAppendsOneBit :
    (∀ s ∈ [active, carryDue], s.status.rowActive = true ∧ s.row.wCount.toNat + 1 ≠ unitBits s.row.lUnit32) ∧
      Spec.AdvanceServed active ∧ Spec.AdvanceServed carryDue ∧ 8 ≤ Spec.shiftOf carryDue.row := by decide
theorem witness_SampleFlushesFullUnit :
    lastSample.status.rowActive = true ∧ Spec.AdvanceServed lastSample ∧
      lastSample.row.wCount.toNat + 1 = unitBits lastSample.row.lUnit32 ∧
      lastSample.busAnswer .write (Spec.unitAddr lastSample.row) (unitBytes lastSample.row.lUnit32) = .ok := by decide
theorem witness_SampleReloadBusError :
    lastReload.par.wf ∧ lastReload.status.rowActive = true ∧ 8 ≤ Spec.shiftOf lastReload.row ∧
      (answering lastReload 0x1001 .error .ok).busAnswer .read (Spec.reloadAddr lastReload.row) 1 = .error ∧
      lastReload.engine = .sampling := by decide
theorem witness_SampleStoreBusError :
    lastInLoop.par.wf ∧ lastInLoop.status.rowActive = true ∧
      Spec.AdvanceServed (answering lastInLoop 0x2003 .ok .error) ∧
      lastInLoop.row.wCount.toNat + 1 = unitBits lastInLoop.row.lUnit32 ∧
      (answering lastInLoop 0x2003 .ok .error).busAnswer .write (Spec.unitAddr lastInLoop.row)
        (unitBytes lastInLoop.row.lUnit32) = .error ∧ lastInLoop.engine = .sampling := by decide
/-- A reload, a store, the first read of a row, and an engine that waits already. -/
theorem witness_UnansweredTransactionStalls :
    (lastReload.status.rowActive = true ∧ 8 ≤ Spec.shiftOf lastReload.row ∧
      (answering lastReload 0x1001 .never .ok).busAnswer .read (Spec.reloadAddr lastReload.row) 1 = .never) ∧
    (lastInLoop.status.rowActive = true ∧ Spec.AdvanceServed (answering lastInLoop 0x2003 .ok .never) ∧
      lastInLoop.row.wCount.toNat + 1 = unitBits lastInLoop.row.lUnit32 ∧
      (answering lastInLoop 0x2003 .ok .never).busAnswer .write (Spec.unitAddr lastInLoop.row)
        (unitBytes lastInLoop.row.lUnit32) = .never ∧ lastInLoop.raced = []) ∧
    (Spec.ChecksPass fixture.par fixture.cfg 0 ∧
      (answering fixture 0x1000 .never .ok).busAnswer .read (Spec.firstSrc fixture.cfg 0) 1 = .never) ∧
    (nextOf (exec .sample (answering lastInLoop 0x2003 .ok .never))).map (·.engine) = some .hung := by decide
theorem witness_SampleFrame : (nextOf (exec .sample lastSample)).isSome = true := by decide
theorem witness_RowSetupFrame : (nextOf (exec (.rowSetup 0) fixture)).isSome = true := by decide

theorem witness_RowFinishCompletesRow :
    active.status.rowActive = true ∧ RowInv active.par active.row ∧ active.RowServed active.row :=
  ⟨by decide, rowAtSetup_inv, by decide⟩
theorem witness_RowRunCompletesRow :
    fixture.par.wf ∧ Spec.ChecksPass fixture.par fixture.cfg 3 ∧
      fixture.RowServed (Spec.setupRow fixture.par fixture.cfg 3 fixture.row) := by decide
/-- The last sample of the last row. -/
theorem witness_RowRunFollowsPositionLaw :
    fixture.par.wf ∧ fixture.mem.wf ∧ fixture.raced = [] ∧ Spec.ChecksPass fixture.par fixture.cfg 3 ∧
      fixture.RowServed (Spec.setupRow fixture.par fixture.cfg 3 fixture.row) ∧
      RowsApart fixture.par (Spec.setupRow fixture.par fixture.cfg 3 fixture.row) ∧
      (nextOf (exec (.rowRun 3) fixture)).isSome = true ∧ 31 < numSamples fixture.par := by decide
/-- Byte 3 of the row, an offset of one byte in a row with a padding byte, and of minus one byte in a row without. -/
theorem witness_ScaleOneCopiesBytes :
    let s := { fixture with cfg := { fixture.cfg with offsetFx := 0x80000, srcWidth := 24 } }
    let u := { fixture with cfg := { fixture.cfg with offsetFx := 0xFFF80000 } }
    (s.par.wf ∧ s.mem.wf ∧ s.raced = [] ∧ Spec.ChecksPass s.par s.cfg 0 ∧
      s.RowServed (Spec.setupRow s.par s.cfg 0 s.row) ∧ RowsApart s.par (Spec.setupRow s.par s.cfg 0 s.row) ∧
      s.cfg.scaleFx = 0x00010000 ∧ s.cfg.offsetFx.toInt = 8 * 1 * 65536 ∧
      ((0 : Int) ≤ 1 ∧ (1 : Int) < (s.cfg.srcWidth.toNat / 8 : Nat)) ∧
      (nextOf (exec (.rowRun 0) s)).isSome = true ∧ 3 < rowSize s.par) ∧
    Spec.ChecksPass u.par u.cfg 0 ∧ u.cfg.offsetFx.toInt = 8 * (-1) * 65536 ∧
      u.cfg.srcStride.toNat = u.cfg.srcWidth.toNat / 8 ∧ (nextOf (exec (.rowRun 0) u)).isSome = true := by decide
theorem witness_UnitWidthsWriteSameBytes :
    let s8 := { fixture with cfg := { fixture.cfg with unit32 := false } }
    fixture.par.wf ∧ fixture.mem.wf ∧ fixture.raced = [] ∧ fixture.cfg.unit32 = true ∧
      Spec.ChecksPass fixture.par fixture.cfg 0 ∧
      fixture.RowServed (Spec.setupRow fixture.par fixture.cfg 0 fixture.row) ∧
      fixture.RowServed (Spec.setupRow fixture.par s8.cfg 0 fixture.row) ∧
      RowsApart fixture.par (Spec.setupRow fixture.par fixture.cfg 0 fixture.row) ∧
      (nextOf (exec (.rowRun 0) fixture)).isSome = true ∧ (nextOf (exec (.rowRun 0) s8)).isSome = true := by decide
theorem witness_SteppedRowEqualsRowRun :
    fixture.par.wf ∧ Spec.ChecksPass fixture.par fixture.cfg 0 ∧ fixture.raced = [] ∧
      fixture.RowServed (Spec.setupRow fixture.par fixture.cfg 0 fixture.row) ∧ 31 < numSamples fixture.par := by decide
/-- The first sample of a row, and its last. -/
theorem witness_EachSampleIsCounted :
    (active.status.rowActive = true ∧ RowInv active.par active.row ∧ active.RowServed active.row) ∧
      lastSample.status.rowActive = true ∧ RowInv lastSample.par lastSample.row ∧ lastSample.RowServed lastSample.row :=
  ⟨⟨by decide, rowAtSetup_inv, by decide⟩, by decide, lastSample_inv, by decide⟩
theorem witness_RowRunFrame : (nextOf (exec (.rowRun 0) fixture)).isSome = true ∧ fixture.par.wf ∧
    ∀ j < rowSize fixture.par, (0x2004 : Word) ≠ Spec.dstRow fixture.par fixture.cfg 0 + BitVec.ofNat 32 j := by decide
theorem witness_RowFinishFrame : (nextOf (exec .rowFinish active)).isSome = true ∧ RowInv active.par active.row ∧
    ∀ j < rowSize active.par, (0x1FFF : Word) ≠ active.row.lDstRow + BitVec.ofNat 32 j :=
  ⟨by decide, rowAtSetup_inv, by decide⟩
theorem witness_ActiveRowIgnoresConfiguration :
    (nextOf (exec .sample active)).isSome = true ∧ (nextOf (exec .rowFinish active)).isSome = true := by decide
/-- The same configuration beside an older row and beside none. -/
theorem witness_RowsAreIndependent :
    fixture.par = lastSample.par ∧ fixture.cfg = lastSample.cfg ∧ fixture.mem = lastSample.mem ∧
      fixture.platform = lastSample.platform ∧ fixture.raced = lastSample.raced ∧ fixture.draws = lastSample.draws ∧
      (nextOf (exec (.rowRun 0) fixture)).isSome = true ∧ (nextOf (exec (.rowRun 0) lastSample)).isSome = true := by decide

theorem witness_CommandIsItsEngineSteps :
    (accepted 6).engine = .accepted 6 ∧ decode 6 = .ok (.rowRun 0) := by decide
/-- An accepted ROW_FINISH of a sound row on a platform that answers everything. -/
theorem witness_AcceptedCommandsTerminate :
    Inv (active.accept 5) ∧ (active.accept 5).Answered ∧ (active.accept 5).engine = .accepted 5 ∧
      decode 5 = .ok .rowFinish :=
  ⟨⟨by decide, by decide, by decide, by decide, by decide, by decide, by decide, by decide, by decide, fun _ _ => rfl,
      by decide, fun _ _ => rowAtSetup_inv⟩,
    fun _ _ _ => by simp [State.busAnswer, State.accept, active, fixture], by decide, by decide⟩
/-- ERR with code 1 is held while SAMPLE without a row raises code 7. -/
theorem witness_FirstErrorIsKept :
    let s := { fixture with status := { Status.reset with err := true, errCode := 1 } }
    s.status.err = true ∧ (nextOf (exec .sample s)).map (·.status.errCode) = some 1 := by decide
theorem witness_CommandsKeepConfiguration : (nextOf (exec .cvtScale fixture)).isSome = true := by decide
/-- Memory in its canonical form, one of its bytes raced by the host. -/
theorem witness_RacedStoreLeavesEitherValue :
    let s := { fixture with raced := [(0x2000, 0)] }
    s.mem.wf ∧ s.isRaced 0x2000 = true ∧ s.isRaced 0x2001 = false := by decide

/-- While a command runs: a byte the command has stored, and one it has not; and the same write while idle. -/
theorem witness_HostWritesStandOrRace :
    midRow.mem.wf ∧ midRow.status.busy = true ∧ fixture.status.busy = false ∧ ([1, 2] : List Byte).length ≤ 2 ^ 32 ∧
      (due midRow (.memWrite 0x2003 [1, 2])).host = [{ delay := 0, act := .memWrite 0x2003 [1, 2] }] ∧
      midRow.engineByte 0x2003 = some 0x81 ∧ midRow.engineByte 0x2004 = none := by decide
/-- A read across the end of the stored unit. -/
theorem witness_HostReadsSeeOldOrNewUnits :
    Inv (due midRow (.memRead 0x2002 4)) ∧
      (due midRow (.memRead 0x2002 4)).host = [{ delay := 0, act := .memRead 0x2002 4 }] ∧
      Spec.unitAt midRow.row 0 = 0x2000 ∧ 0 < numUnits midRow.par midRow.row.lUnit32 :=
  ⟨⟨by decide, by decide, by decide, by decide, by decide, by decide, by decide, by decide, by decide,
    by simp [due, midRow, running], by decide, fun _ _ => midRow_inv⟩, by decide, by decide, by decide⟩
/-- R239: with no store of the running command, the host's byte stands, although an older row held the address. -/
theorem test_host_write_during_nop :
    (State.hostMemWrite { lastSample with
        row := { lastSample.row with unitIdx := 1 }
        status := { active.status with busy := true }
        engine := .accepted 0 } 0x2000 [0x77]).mem.read 0x2000 = 0x77 := by decide
/-- L_CFG: stride 4, N = 32. -/
theorem test_register_words : active.regValue .lCfg = 0x00010004 ∧ active.regValue .status = 0xA ∧
    (State.regValue fixture .ctrl) = 1 := by decide

end Sys2Proof.Tests
end

section
/-! PROOF. One step of the machine: a command run at once is its engine steps, and what every engine step leaves alone. -/

namespace Sys2Proof.Machine

/-! ### A dispatched command -/

/-- The engine is past the dispatch of its command and has not completed it. -/
abbrev Engine.Begun (e : Engine) : Prop := e = .sampling ∨ e.Ended

theorem Engine.Begun.ne_idle {e : Engine} (h : e.Begun) : e ≠ .idle := by
  rintro rfl
  simp [Engine.Begun, Engine.Ended] at h

theorem Engine.Begun.ne_accepted {e : Engine} (h : e.Begun) (w : Word) : e ≠ .accepted w := by
  rintro rfl
  simp [Engine.Begun, Engine.Ended] at h

/-- ROW_SETUP's registers are written and its read comes next (R160). -/
def State.latched (s : State) (y : Nat) : State := { s with row := latchRow s.par s.cfg y s.row }

/-- The row is set up: its first byte is loaded and ROW_ACTIVE is 1 (R160). -/
def State.rowStarted (s : State) (y : Nat) : State :=
  { loadDone (s.latched y) with status := { s.status with rowActive := true } }

/-- Everything the body of ROW_SETUP can do: a check fails, or its read is performed, fails, or is never answered. -/
theorem rowSetupBody_cases (y : Nat) (s : State) :
    (∃ code, rowChecks s.par s.cfg y = some code ∧ rowSetupBody y s = .ends (s.raiseError code)) ∨
    (rowChecks s.par s.cfg y = none ∧
      ((s.busAnswer .read (s.latched y).row.srcAddr 1 = .ok ∧ rowSetupBody y s = .goes (s.rowStarted y)) ∨
        (s.busAnswer .read (s.latched y).row.srcAddr 1 = .error ∧
          rowSetupBody y s = .ends (s.latched y).raiseBusError) ∨
        (s.busAnswer .read (s.latched y).row.srcAddr 1 = .never ∧ rowSetupBody y s = .ends (s.latched y).hang))) := by
  cases hc : rowChecks s.par s.cfg y with
  | some code => exact .inl ⟨code, rfl, by rw [rowSetupBody, hc]⟩
  | none =>
    have hs : rowSetupBody y s = (loadSrcByte (s.latched y)).andThen fun t =>
        .goes { t with status := { t.status with rowActive := true } } := by
      rw [rowSetupBody, hc]
      rfl
    refine .inr ⟨rfl, ?_⟩
    rcases loadSrcByte_cases (s.latched y) with ⟨ha, hl⟩ | ⟨ha, hl⟩ | ⟨ha, hl⟩ <;> rw [hs, hl]
    · exact .inl ⟨ha, rfl⟩
    · exact .inr (.inl ⟨ha, rfl⟩)
    · exact .inr (.inr ⟨ha, rfl⟩)

/-- The state an engine step leaves: `f` follows a body that goes on. -/
def Body.finish (f : State → State) : Body → State
  | .goes s => f s
  | .ends s => s

theorem loopStep_eq_finish (s : State) : loopStep s = (sampleStep s).finish loopOrEnd := rfl

theorem beginRowSetup_eq_finish (y : Nat) (s : State) :
    beginRowSetup y s = (rowSetupBody y s).finish State.endBody := rfl

theorem beginRowRun_eq_finish (y : Nat) (s : State) : beginRowRun y s = (rowSetupBody y s).finish loopOrEnd := rfl

/-- SAMPLE is a sample step of an active row, and an error without one (R166). -/
theorem beginSample_cases (s : State) :
    (s.status.rowActive = true ∧ beginSample s = (sampleStep s).finish State.endBody) ∨
      (s.status.rowActive = false ∧ beginSample s = s.raiseError .noRow) := by
  unfold beginSample
  cases s.status.rowActive
  · exact .inr ⟨rfl, rfl⟩
  · exact .inl ⟨rfl, rfl⟩

/-- ROW_FINISH begins with a step of the loop of an active row, and is an error without one (R168). -/
theorem beginRowFinish_cases (s : State) :
    (s.status.rowActive = true ∧ beginRowFinish s = loopStep s) ∨
      (s.status.rowActive = false ∧ beginRowFinish s = s.raiseError .noRow) := by
  unfold beginRowFinish
  cases s.status.rowActive
  · exact .inr ⟨rfl, rfl⟩
  · exact .inl ⟨rfl, rfl⟩

/-- CVT_SCALE writes SCALE_FX or raises its error (R142). -/
theorem beginCvtScale_cases (s : State) :
    (∃ v, scaleOfF32 s.cfg.scaleF32 = some v ∧ beginCvtScale s = { s with
        cfg := { s.cfg with scaleFx := v }
        engine := .completing (some (.scaleFx, s.cfg.scaleFx)) }) ∨
      (scaleOfF32 s.cfg.scaleF32 = none ∧ beginCvtScale s = s.raiseError .scale) := by
  unfold beginCvtScale
  cases scaleOfF32 s.cfg.scaleF32 with
  | some v => exact .inl ⟨v, rfl, rfl⟩
  | none => exact .inr ⟨rfl, rfl⟩

/-- CVT_OFFSET writes OFFSET_FX or raises its error (R144). -/
theorem beginCvtOffset_cases (s : State) :
    (∃ v, offsetOfF32 s.cfg.offsetF32 = some v ∧ beginCvtOffset s = { s with
        cfg := { s.cfg with offsetFx := v }
        engine := .completing (some (.offsetFx, s.cfg.offsetFx)) }) ∨
      (offsetOfF32 s.cfg.offsetF32 = none ∧ beginCvtOffset s = s.raiseError .range) := by
  unfold beginCvtOffset
  cases offsetOfF32 s.cfg.offsetF32 with
  | some v => exact .inl ⟨v, rfl, rfl⟩
  | none => exact .inr ⟨rfl, rfl⟩

theorem loopOrEnd_begun (s : State) : (loopOrEnd s).engine.Begun := by
  unfold loopOrEnd
  split
  · exact .inl rfl
  · exact .inr (.inl ⟨none, rfl⟩)

theorem loopStep_begun (s : State) : (loopStep s).engine.Begun := by
  rcases loopStep_engine s with h | h | h
  · exact .inl h
  · exact .inr (.inl ⟨none, h⟩)
  · exact .inr (.inr h)

/-- A setup that has ended its body waits for completion, or for ever. -/
theorem rowSetupBody_ended {y : Nat} {s t : State} (h : rowSetupBody y s = .ends t) : t.engine.Ended := by
  rcases rowSetupBody_cases y s with ⟨code, -, he⟩ | ⟨-, ⟨-, he⟩ | ⟨-, he⟩ | ⟨-, he⟩⟩ <;> rw [he] at h <;> cases h
  · exact .inl ⟨none, rfl⟩
  · exact .inl ⟨none, rfl⟩
  · exact .inr rfl

/-- A sample step that has ended its body waits for completion, or for ever. -/
theorem sampleStep_ended {s t : State} (h : sampleStep s = .ends t) : t.engine.Ended := by
  obtain ⟨-, -, -, hc⟩ := sampleStep_confined s
  rcases hc with ⟨u, hu, -⟩ | ⟨u, hu, he, -⟩ | ⟨u, hu, he, -⟩ <;> rw [hu] at h <;> cases h
  · exact .inr he
  · exact .inl ⟨none, he⟩

/-- A finished body is where `f` leaves the engine, or where the body has ended. -/
theorem Body.finish_begun {b : Body} {f : State → State} (hf : ∀ t, (f t).engine.Begun)
    (hb : ∀ t, b = .ends t → t.engine.Ended) : (b.finish f).engine.Begun := by
  cases b with
  | goes t => exact hf t
  | ends t => exact .inr (hb t rfl)

theorem endBody_begun (s : State) : s.endBody.engine.Begun := .inr (.inl ⟨none, rfl⟩)

theorem raiseError_begun (s : State) (code : ErrCode) : (s.raiseError code).engine.Begun := .inr (.inl ⟨none, rfl⟩)

theorem beginCvtScale_completing (s : State) : ∃ c, (beginCvtScale s).engine = .completing c := by
  rcases beginCvtScale_cases s with ⟨v, -, h⟩ | ⟨-, h⟩ <;> rw [h] <;> exact ⟨_, rfl⟩

theorem beginCvtOffset_completing (s : State) : ∃ c, (beginCvtOffset s).engine = .completing c := by
  rcases beginCvtOffset_cases s with ⟨v, -, h⟩ | ⟨-, h⟩ <;> rw [h] <;> exact ⟨_, rfl⟩

/-- The first engine step of a command leaves it begun (R122, R128). -/
theorem beginInstr_begun (i : Instr) (s : State) : (beginInstr i s).engine.Begun := by
  cases i with
  | nop => exact endBody_begun s
  | cvtScale => exact .inr (.inl (beginCvtScale_completing s))
  | cvtOffset => exact .inr (.inl (beginCvtOffset_completing s))
  | rowSetup y =>
    rw [beginInstr, beginRowSetup_eq_finish]
    exact Body.finish_begun endBody_begun fun _ => rowSetupBody_ended
  | sample =>
    rw [beginInstr]
    rcases beginSample_cases s with ⟨-, h⟩ | ⟨-, h⟩ <;> rw [h]
    · exact Body.finish_begun endBody_begun fun _ => sampleStep_ended
    · exact raiseError_begun s .noRow
  | rowFinish =>
    rw [beginInstr]
    rcases beginRowFinish_cases s with ⟨-, h⟩ | ⟨-, h⟩ <;> rw [h]
    · exact loopStep_begun s
    · exact raiseError_begun s .noRow
  | rowRun y =>
    rw [beginInstr, beginRowRun_eq_finish]
    exact Body.finish_begun loopOrEnd_begun fun _ => rowSetupBody_ended

/-! ### A command as its engine steps -/

/-- A command is its first engine step and those that follow within its bound (R128, R129). -/
theorem exec_eq_continueFor (i : Instr) (s : State) :
    exec i s = .next (continueFor (stepBound s.par i - 1) (beginInstr i s)) := by
  cases i with
  | nop => rfl
  | cvtScale =>
    obtain ⟨c, hc⟩ := beginCvtScale_completing s
    exact congrArg Host.Outcome.next (continueFor_completing 0 hc).symm
  | cvtOffset =>
    obtain ⟨c, hc⟩ := beginCvtOffset_completing s
    exact congrArg Host.Outcome.next (continueFor_completing 0 hc).symm
  | rowSetup y => rfl
  | sample => rfl
  | rowFinish => rfl
  | rowRun y => rfl

theorem engineStep_accepted {s : State} {w : Word} (h : s.engine = .accepted w) : engineStep s = dispatchWord w s := by
  simp [engineStep, h]

theorem engineStep_eq_continueStep {s : State} (h : ∀ w, s.engine ≠ .accepted w) : engineStep s = continueStep s := by
  have := engineSteps_eq_continueFor 1 h
  rwa [engineSteps_succ, continueFor_succ] at this

/-- An accepted command run at once is the sequence of its engine steps (R128, log 5). -/
theorem exec_eq_engineSteps {s : State} {w : Word} {i : Instr} (he : s.engine = .accepted w) (hd : decode w = .ok i) :
    exec i s = .next (engineSteps (stepBound s.par i) s) := by
  have hpos : stepBound s.par i = stepBound s.par i - 1 + 1 := by cases i <;> rfl
  have hbegin : engineStep s = beginInstr i s := by rw [engineStep_accepted he, dispatchWord, hd]
  rw [exec_eq_continueFor, hpos, engineSteps_succ, hbegin,
    engineSteps_eq_continueFor _ (beginInstr_begun i s).ne_accepted, Nat.add_sub_cancel]

/-- An accepted illegal word run at once is its two engine steps (R103, R128). -/
theorem runIllegal_eq_engineSteps {s : State} {w : Word} {e : DecodeError} (he : s.engine = .accepted w)
    (hd : decode w = .error e) : runIllegal s = engineSteps 2 s := by
  have hbegin : engineStep s = beginIllegal s := by rw [engineStep_accepted he, dispatchWord, hd]
  rw [engineSteps_succ, hbegin]
  rfl

/-- The engine's turn is a number of engine steps. -/
theorem engineTurn_eq_engineSteps (s : State) : ∃ n, engineTurn s = .next (engineSteps n s) := by
  unfold engineTurn
  cases he : s.engine with
  | accepted w =>
    cases hd : decode w with
    | ok i => exact ⟨_, by simpa [hd] using exec_eq_engineSteps he hd⟩
    | error e => exact ⟨2, by simpa [hd] using runIllegal_eq_engineSteps he hd⟩
  | idle => exact ⟨1, rfl⟩
  | sampling => exact ⟨1, rfl⟩
  | completing c => exact ⟨1, rfl⟩
  | hung => exact ⟨1, rfl⟩

/-- Everything a step of the machine can do: engine steps with no host step between them, the host step that is due, or
one engine step of the time that passes before it (R128). -/
theorem step_cases (s : State) :
    (∃ n, step s = .next (engineSteps n s)) ∨
      ∃ h rest, s.host = h :: rest ∧
        ((h.delay = 0 ∧ step s = .next (hostStep h.act { s with host := rest })) ∨
          ∃ n, h.delay = n + 1 ∧ step s = .next (engineStep { s with host := { h with delay := n } :: rest })) := by
  unfold step oneStep
  cases hw : s.hostWaits with
  | true => exact .inl (engineTurn_eq_engineSteps s)
  | false =>
    right
    unfold hostTurn
    cases hh : s.host with
    | nil => simp [State.hostWaits, hh] at hw
    | cons h rest =>
      refine ⟨h, rest, rfl, ?_⟩
      cases hd : h.delay with
      | zero => exact .inl ⟨rfl, by simp [hd]⟩
      | succ n => exact .inr ⟨n, rfl, by simp [hd]⟩

/-- What engine steps keep, any number of them keeps. -/
theorem engineSteps_keeps {P : State → Prop} (h : ∀ s, P s → P (engineStep s)) (n : Nat) {s : State} (hs : P s) :
    P (engineSteps n s) := by
  induction n generalizing s with
  | zero => exact hs
  | succ n ih => exact ih (h s hs)

/-- What further steps of a command keep, any number of them keeps. -/
theorem continueFor_keeps {P : State → Prop} (h : ∀ s, P s → P (continueStep s)) (n : Nat) {s : State} (hs : P s) :
    P (continueFor n s) := by
  induction n generalizing s with
  | zero => exact hs
  | succ n ih => exact ih (h s hs)

/-- An invariant of the machine: what engine steps and host steps keep, whatever host steps are still to come, every step
keeps. -/
theorem step_keeps {P : State → Prop} (heng : ∀ s, P s → P (engineStep s)) (hact : ∀ act s, P s → P (hostStep act s))
    (hhost : ∀ s l, P s → P { s with host := l }) {s t : State} (hs : P s) (ht : step s = .next t) : P t := by
  rcases step_cases s with ⟨n, h⟩ | ⟨a, rest, -, ⟨-, h⟩ | ⟨n, -, h⟩⟩ <;> rw [h] at ht <;> cases ht
  · exact engineSteps_keeps heng n hs
  · exact hact _ _ (hhost s rest hs)
  · exact heng _ (hhost s _ hs)

/-! ### What no engine step changes -/

/-- An error that is recorded stays recorded, with its code (R205, R208). -/
abbrev Status.KeepsError (a b : Status) : Prop := a.err = true → b.err = true ∧ b.errCode = a.errCode

theorem Status.KeepsError.refl (a : Status) : a.KeepsError a := fun h => ⟨h, rfl⟩

theorem Status.KeepsError.trans {a b c : Status} (h : a.KeepsError b) (k : b.KeepsError c) : a.KeepsError c := fun e =>
  have ⟨hb, hcode⟩ := h e
  have ⟨hc, hcode'⟩ := k hb
  ⟨hc, hcode'.trans hcode⟩

theorem Status.KeepsError.raise (a : Status) (code : ErrCode) : a.KeepsError (a.raise code) := fun h => by simp [h]

/-- What the engine leaves alone in whatever it does: the parameters, the platform, the host's side, OVR, and a recorded
error. -/
structure EngineFrame (s t : State) : Prop where
  par : t.par = s.par
  platform : t.platform = s.platform
  host : t.host = s.host
  reply : t.reply = s.reply
  ovr : t.status.ovr = s.status.ovr
  error : s.status.KeepsError t.status

theorem EngineFrame.refl (s : State) : EngineFrame s s := ⟨rfl, rfl, rfl, rfl, rfl, Status.KeepsError.refl s.status⟩

theorem EngineFrame.trans {s t u : State} (h : EngineFrame s t) (k : EngineFrame t u) : EngineFrame s u :=
  ⟨k.par.trans h.par, k.platform.trans h.platform, k.host.trans h.host, k.reply.trans h.reply, k.ovr.trans h.ovr,
    Status.KeepsError.trans h.error k.error⟩

theorem EngineFrame.raiseError (s : State) (code : ErrCode) : EngineFrame s (s.raiseError code) :=
  ⟨rfl, rfl, rfl, rfl, rfl, Status.KeepsError.raise _ code⟩

theorem EngineFrame.endBody (s : State) : EngineFrame s s.endBody :=
  ⟨rfl, rfl, rfl, rfl, rfl, Status.KeepsError.refl s.status⟩

theorem EngineFrame.complete (s : State) : EngineFrame s s.complete :=
  ⟨rfl, rfl, rfl, rfl, rfl, Status.KeepsError.refl s.status⟩

theorem EngineFrame.loopOrEnd (s : State) : EngineFrame s (loopOrEnd s) := by
  unfold Machine.loopOrEnd
  split <;> exact ⟨rfl, rfl, rfl, rfl, rfl, Status.KeepsError.refl s.status⟩

theorem sampleStep_frame (s : State) : EngineFrame s (sampleStep s).state := by
  obtain ⟨hsame, -, -, hc⟩ := sampleStep_confined s
  have hst : (sampleStep s).state.status.ovr = s.status.ovr ∧ s.status.KeepsError (sampleStep s).state.status := by
    rcases hc with ⟨t, ht, -, hst | hst⟩ | ⟨t, ht, -, hst, -⟩ | ⟨t, ht, -, hst, -⟩ <;>
      (rw [ht]; simp only [Body.state_goes, Body.state_ends]; rw [hst])
    · exact ⟨rfl, Status.KeepsError.refl s.status⟩
    · exact ⟨rfl, Status.KeepsError.refl s.status⟩
    · exact ⟨rfl, Status.KeepsError.refl s.status⟩
    · exact ⟨rfl, Status.KeepsError.raise { s.status with rowActive := false } .bus⟩
  exact ⟨hsame.par, hsame.platform, hsame.host, hsame.reply, hst.1, hst.2⟩

theorem rowSetupBody_frame (y : Nat) (s : State) : EngineFrame s (rowSetupBody y s).state := by
  rcases rowSetupBody_cases y s with ⟨code, -, he⟩ | ⟨-, ⟨-, he⟩ | ⟨-, he⟩ | ⟨-, he⟩⟩ <;> rw [he]
  · exact .raiseError s code
  · exact ⟨rfl, rfl, rfl, rfl, rfl, Status.KeepsError.refl s.status⟩
  · exact ⟨rfl, rfl, rfl, rfl, rfl, Status.KeepsError.raise { s.status with rowActive := false } .bus⟩
  · exact ⟨rfl, rfl, rfl, rfl, rfl, Status.KeepsError.refl s.status⟩

theorem EngineFrame.finish {s : State} {b : Body} {f : State → State} (hb : EngineFrame s b.state)
    (hf : ∀ t, EngineFrame t (f t)) : EngineFrame s (b.finish f) := by
  cases b with
  | goes t => exact hb.trans (hf t)
  | ends t => exact hb

theorem loopStep_frame (s : State) : EngineFrame s (loopStep s) := by
  rw [loopStep_eq_finish]
  exact (sampleStep_frame s).finish .loopOrEnd

theorem beginInstr_frame (i : Instr) (s : State) : EngineFrame s (beginInstr i s) := by
  cases i with
  | nop => exact .endBody s
  | cvtScale =>
    rw [beginInstr]
    rcases beginCvtScale_cases s with ⟨v, -, h⟩ | ⟨-, h⟩ <;> rw [h]
    · exact ⟨rfl, rfl, rfl, rfl, rfl, Status.KeepsError.refl s.status⟩
    · exact .raiseError s .scale
  | cvtOffset =>
    rw [beginInstr]
    rcases beginCvtOffset_cases s with ⟨v, -, h⟩ | ⟨-, h⟩ <;> rw [h]
    · exact ⟨rfl, rfl, rfl, rfl, rfl, Status.KeepsError.refl s.status⟩
    · exact .raiseError s .range
  | rowSetup y => exact (rowSetupBody_frame y s).finish .endBody
  | sample =>
    rw [beginInstr]
    rcases beginSample_cases s with ⟨-, h⟩ | ⟨-, h⟩ <;> rw [h]
    · exact (sampleStep_frame s).finish .endBody
    · exact .raiseError s .noRow
  | rowFinish =>
    rw [beginInstr]
    rcases beginRowFinish_cases s with ⟨-, h⟩ | ⟨-, h⟩ <;> rw [h]
    · exact loopStep_frame s
    · exact .raiseError s .noRow
  | rowRun y => exact (rowSetupBody_frame y s).finish .loopOrEnd

theorem continueStep_frame (s : State) : EngineFrame s (continueStep s) := by
  unfold continueStep
  split
  · exact loopStep_frame s
  · exact .complete s
  · exact .refl s
  · exact .refl s
  · exact .refl s

theorem engineStep_frame (s : State) : EngineFrame s (engineStep s) := by
  by_cases h : ∃ w, s.engine = .accepted w
  · obtain ⟨w, hw⟩ := h
    rw [engineStep_accepted hw, dispatchWord]
    cases decode w with
    | ok i => exact beginInstr_frame i s
    | error e => exact .raiseError s .opcode
  · rw [engineStep_eq_continueStep (not_exists.1 h)]
    exact continueStep_frame s

/-- No command changes the parameters, the platform or the host's side, nor loses a recorded error. -/
theorem exec_frame {i : Instr} {s t : State} (h : exec i s = .next t) : EngineFrame s t := by
  rw [exec_eq_continueFor] at h
  cases h
  exact continueFor_keeps (P := EngineFrame s) (fun u hu => hu.trans (continueStep_frame u)) _ (beginInstr_frame i s)

/-- Settles O54: the frame of every command keeps a recorded error. -/
theorem firstErrorIsKept : Obligations.FirstErrorIsKept :=
  fun _ _ _ herr hexec => (exec_frame hexec).error herr

end Sys2Proof.Machine
end

section
/-! PROOF. The register window: the registers' words, and the host's accesses to them. -/

namespace Sys2Proof.Machine

/-! ### The words registers read as -/

theorem boolToNat_le (b : Bool) : b.toNat ≤ 1 := by cases b <;> decide

/-- A word of `n` used bits is its own truncation to them. -/
theorem setWidth_setWidth_of_lt {x : Word} {n : Nat} (h : x.toNat < 2 ^ n) : (x.setWidth n).setWidth 32 = x := by
  apply BitVec.eq_of_toNat_eq
  rw [BitVec.toNat_setWidth, BitVec.toNat_setWidth, Nat.mod_eq_of_lt h, Nat.mod_eq_of_lt x.isLt]

theorem ofNat_toNat_of_lt {n : Nat} (h : n < 2 ^ 32) : (BitVec.ofNat 32 n).toNat = n := by
  rw [BitVec.toNat_ofNat, Nat.mod_eq_of_lt h]

/-- A field of at most 32 bits read as a word keeps its value. -/
theorem toNat_setWidth_word {n : Nat} (hn : n ≤ 32) (x : BitVec n) : (x.setWidth 32).toNat = x.toNat := by
  rw [BitVec.toNat_setWidth, Nat.mod_eq_of_lt (x.isLt.trans_le (Nat.pow_le_pow_right (by decide) hn))]

theorem rowSize_word (p : Params) : (BitVec.ofNat 32 (rowSize p)).toNat = rowSize p :=
  ofNat_toNat_of_lt (by have := rowSize_le p; omega)

theorem ConfigRegs.ctrlWord_toNat (c : ConfigRegs) : c.ctrlWord.toNat = c.unit32.toNat + 2 * c.irqEn.toNat :=
  ofNat_toNat_of_lt (by have := boolToNat_le c.unit32; have := boolToNat_le c.irqEn; omega)

theorem RowRegs.lCfgWord_toNat (r : RowRegs) : r.lCfgWord.toNat = r.lStride.toNat + 65536 * r.lUnit32.toNat :=
  ofNat_toNat_of_lt (by have := r.lStride.isLt; have := boolToNat_le r.lUnit32; omega)

/-- The fields of STATUS fill no bit above ERRCODE's (R39 to R44). -/
theorem Status.fields_lt (t : Status) :
    t.busy.toNat + 2 * t.done.toNat + 4 * t.err.toNat + 8 * t.rowActive.toNat + 16 * t.ovr.toNat + 256 * t.errCode.toNat
      < 2 ^ 12 := by
  have := boolToNat_le t.busy
  have := boolToNat_le t.done
  have := boolToNat_le t.err
  have := boolToNat_le t.rowActive
  have := boolToNat_le t.ovr
  have := t.errCode.isLt
  omega

theorem Status.word_toNat (t : Status) :
    t.word.toNat = t.busy.toNat + 2 * t.done.toNat + 4 * t.err.toNat + 8 * t.rowActive.toNat + 16 * t.ovr.toNat
      + 256 * t.errCode.toNat :=
  ofNat_toNat_of_lt (t.fields_lt.trans (by decide))

/-- A register's value lies in its used width (R33). -/
theorem State.regValue_lt (s : State) (r : Reg) : (s.regValue r).toNat < 2 ^ r.width := by
  cases r with
  | id => exact BitVec.isLt _
  | info => exact BitVec.isLt _
  | info2 =>
    have := rowSize_le s.par
    change (BitVec.ofNat 32 (rowSize s.par)).toNat < 2 ^ 16
    rw [rowSize_word]
    omega
  | ctrl =>
    have := boolToNat_le s.cfg.unit32
    have := boolToNat_le s.cfg.irqEn
    change s.cfg.ctrlWord.toNat < 2 ^ 2
    rw [ConfigRegs.ctrlWord_toNat]
    omega
  | status => exact s.status.word_toNat.trans_lt s.status.fields_lt
  | cmd => exact BitVec.isLt _
  | lCfg =>
    have := s.row.lStride.isLt
    have := boolToNat_le s.row.lUnit32
    change s.row.lCfgWord.toNat < 2 ^ 17
    rw [RowRegs.lCfgWord_toNat]
    omega
  | srcBase | dstBase | scaleFx | offsetFx | scaleF32 | offsetF32 | curFrac | acc | lSrcRow | lDstRow | lScale =>
    exact BitVec.isLt _
  | srcWidth | srcHeight | srcStride | vOff | curByte | curBit | wCount | unitIdx | srcByte | rowY | srcRowIdx =>
    exact (toNat_setWidth_word (by decide) _).trans_lt (BitVec.isLt _)

/-- A flag at the bottom of a number is its lowest bit, and what stands above it keeps its bits. -/
theorem testBit_flag_add (b : Bool) (m k : Nat) :
    (b.toNat + 2 * m).testBit k = if k = 0 then b else m.testBit (k - 1) := by
  have hbit : b.toNat + 2 * m = Nat.bit b m := by rw [Nat.bit_val, Nat.add_comm]
  cases k with
  | zero => rw [hbit, Nat.testBit_bit_zero, if_pos rfl]
  | succ k => rw [hbit, Nat.testBit_bit_succ, if_neg (by omega), Nat.add_sub_cancel]

theorem ConfigRegs.ctrlWord_bit (c : ConfigRegs) (k : Nat) :
    c.ctrlWord.getLsbD k = if k = 0 then c.unit32 else if k = 1 then c.irqEn else false := by
  have h : c.ctrlWord.toNat = c.unit32.toNat + 2 * (c.irqEn.toNat + 2 * 0) := c.ctrlWord_toNat
  rw [← BitVec.testBit_toNat, h, testBit_flag_add, testBit_flag_add, Nat.zero_testBit]
  rcases k with _ | _ | k <;> rfl

/-- STATUS, bit by bit (R39 to R44). -/
theorem Status.word_bit (t : Status) (k : Nat) :
    t.word.getLsbD k =
      if k = 0 then t.busy else if k = 1 then t.done else if k = 2 then t.err else if k = 3 then t.rowActive
      else if k = 4 then t.ovr else if 8 ≤ k ∧ k ≤ 11 then t.errCode.getLsbD (k - 8) else false := by
  have h : t.word.toNat = t.busy.toNat + 2 * (t.done.toNat + 2 * (t.err.toNat + 2 * (t.rowActive.toNat
      + 2 * (t.ovr.toNat + 2 * (2 ^ 3 * t.errCode.toNat))))) := by
    rw [t.word_toNat]
    omega
  rw [← BitVec.testBit_toNat, h]
  simp only [testBit_flag_add, Nat.testBit_two_pow_mul, BitVec.testBit_toNat]
  match k with
  | 0 | 1 | 2 | 3 | 4 => rfl
  | k + 5 =>
    change (decide (3 ≤ k) && t.errCode.getLsbD (k - 3)) =
      if 8 ≤ k + 5 ∧ k + 5 ≤ 11 then t.errCode.getLsbD (k - 3) else false
    by_cases hlow : 3 ≤ k
    · by_cases hhigh : k ≤ 6
      · rw [if_pos (by omega), decide_eq_true hlow, Bool.true_and]
      · rw [if_neg (by omega), BitVec.getLsbD_of_ge _ _ (by omega), Bool.and_false]
    · rw [if_neg (by omega), decide_eq_false hlow, Bool.false_and]

theorem RowRegs.lCfgWord_bit (r : RowRegs) (k : Nat) :
    r.lCfgWord.getLsbD k = if k < 16 then r.lStride.getLsbD k else if k = 16 then r.lUnit32 else false := by
  have h : r.lCfgWord.toNat = 2 ^ 16 * (r.lUnit32.toNat + 2 * 0) + r.lStride.toNat := by
    rw [r.lCfgWord_toNat]
    omega
  rw [← BitVec.testBit_toNat, h, Nat.testBit_two_pow_mul_add _ r.lStride.isLt, testBit_flag_add, Nat.zero_testBit,
    BitVec.testBit_toNat]
  by_cases hlow : k < 16
  · rw [if_pos hlow, if_pos hlow]
  · by_cases heq : k = 16
    · simp [heq]
    · rw [if_neg hlow, if_neg (by omega), if_neg hlow, if_neg heq]

/-! ### The registers at the window's offsets -/

theorem Reg.offset_of_atOffset {n : Nat} {r : Reg} (h : Reg.atOffset n = some r) : r.offset = n := by
  unfold Reg.atOffset at h
  split at h <;> cases h <;> rfl

/-- No register stands at 0x74 or above (R32). -/
theorem Reg.atOffset_reserved {n : Nat} (h : 0x74 ≤ n) : Reg.atOffset n = none := by
  cases hr : Reg.atOffset n with
  | none => rfl
  | some r =>
    have hn := Reg.offset_of_atOffset hr
    have : r.offset ≤ 0x70 := by cases r <;> decide
    omega

/-- The registers below CTRL and those of the row state are read-only (R30). -/
theorem Reg.access_ro {r : Reg} (h : r.offset < 0x0C ∨ 0x40 ≤ r.offset) : r.access = .ro := by
  have hs : r ≠ .status := by rintro rfl; revert h; decide
  have hc : r ≠ .cmd := by rintro rfl; revert h; decide
  have ht : ¬(r = .ctrl ∨ (0x18 ≤ r.offset ∧ r.offset ≤ 0x3C)) := by
    rintro (rfl | ⟨h1, h2⟩)
    · revert h; decide
    · omega
  rw [Reg.access, if_neg hs, if_neg hc, if_neg ht]

/-! ### The host's accesses to the window -/

/-- A host step that is due and is no WAIT is what the machine does next (R128). -/
theorem step_due {s : State} {act : HostAction} {rest : List HostStep} (ha : act ≠ .wait)
    (h : s.host = { delay := 0, act := act } :: rest) : step s = .next (hostStep act { s with host := rest }) := by
  rw [step, oneStep, hostWaits_of_due ha h, if_neg Bool.false_ne_true, hostTurn, h]

theorem State.accessRead_refused {s : State} {addr : Word} {size : AccessSize}
    (h : windowOffset s.par addr size = none) : s.accessRead addr size = { s with reply := .busError } := by
  rw [State.accessRead, h]

theorem State.accessWrite_refused {s : State} {addr v : Word} {size : AccessSize}
    (h : windowOffset s.par addr size = none) : s.accessWrite addr size v = { s with reply := .busError } := by
  rw [State.accessWrite, h]

theorem State.accessRead_reserved {s : State} {addr : Word} {size : AccessSize} {off : Nat}
    (h : windowOffset s.par addr size = some off) (hr : Reg.atOffset off = none) :
    s.accessRead addr size = { s with reply := .data 0 } := by
  simp only [State.accessRead, h, hr]

theorem State.accessWrite_reserved {s : State} {addr v : Word} {size : AccessSize} {off : Nat}
    (h : windowOffset s.par addr size = some off) (hr : Reg.atOffset off = none) :
    s.accessWrite addr size v = { s with reply := .done } := by
  simp only [State.accessWrite, h, hr]

theorem State.accessWrite_reg {s : State} {addr v : Word} {size : AccessSize} {off : Nat} {r : Reg}
    (h : windowOffset s.par addr size = some off) (hr : Reg.atOffset off = some r) :
    s.accessWrite addr size v = { s.regWrite r v with reply := .done } := by
  simp only [State.accessWrite, h, hr]

theorem State.regWrite_ro {s : State} {r : Reg} (h : r.access = .ro) (v : Word) : s.regWrite r v = s := by
  rw [State.regWrite, h]

/-! ### The statements about the window -/

/-- Settles O12: the window refuses the access, so only the answer changes. -/
theorem badAccessesAreBusErrors : Obligations.BadAccessesAreBusErrors := by
  intro s addr size v rest hbad
  have hw : windowOffset s.par addr size = none := windowOffset_none hbad
  constructor
  · intro hh
    rw [step_due (by simp) hh, hostStep, State.accessRead_refused (by exact hw)]
  · intro hh
    rw [step_due (by simp) hh, hostStep, State.accessWrite_refused (by exact hw)]

/-- Settles O9: the write reaches STATUS, whose access is W1C whether or not the engine is busy. -/
theorem statusWriteOneClears : Obligations.StatusWriteOneClears := by
  intro s v rest hh
  have hw : windowOffset s.par (Spec.at s 0x10) .word = some 0x10 := windowOffset_word s.par (by decide) (by decide)
  rw [step_due (by simp) hh, hostStep, State.accessWrite_reg (r := .status) (by exact hw) rfl]
  rfl

/-- Settles O11: no register stands at a reserved offset, and the others of these offsets hold read-only registers. -/
theorem reservedOffsetsAreInert : Obligations.ReservedOffsetsAreInert := by
  intro s off v rest h4 hlt
  have hw : windowOffset s.par (Spec.at s off) .word = some off := windowOffset_word s.par h4 hlt
  constructor
  · intro hres hh
    rw [step_due (by simp) hh, hostStep, State.accessRead_reserved (by exact hw) (Reg.atOffset_reserved hres)]
  · intro hoff hh
    rw [step_due (by simp) hh, hostStep]
    cases hr : Reg.atOffset off with
    | none => rw [State.accessWrite_reserved (by exact hw) hr]
    | some r =>
      have hro : r.access = .ro := Reg.access_ro (by have := Reg.offset_of_atOffset hr; omega)
      rw [State.accessWrite_reg (by exact hw) hr, State.regWrite_ro hro]

/-- Settles O15: no register's value exceeds its used width, and STATUS's bits are those of its fields. -/
theorem reservedBitsReadZero : Obligations.ReservedBitsReadZero := by
  refine ⟨fun s r => (setWidth_setWidth_of_lt (s.regValue_lt r)).symm, fun s k h5 h7 => ?_⟩
  change s.status.word.getLsbD k = false
  rw [Status.word_bit]
  interval_cases k <;> rfl

/-- Settles O58: the bits of CTRL, STATUS and L_CFG, and the fields the other words zero-extend. -/
theorem registerWordsShowFields : Obligations.RegisterWordsShowFields := by
  intro s
  have hfield : ∀ {n : Nat} (hn : n ≤ 32) (x : BitVec n), (x.setWidth 32).toNat = x.toNat := toNat_setWidth_word
  exact ⟨s.cfg.ctrlWord_bit, s.status.word_bit, s.row.lCfgWord_bit, rfl,
    ⟨rfl, hfield (by decide) _, hfield (by decide) _, hfield (by decide) _, hfield (by decide) _, rfl, rfl, rfl, rfl, rfl⟩,
    hfield (by decide) _, hfield (by decide) _, rfl, rfl, hfield (by decide) _, hfield (by decide) _,
    hfield (by decide) _, hfield (by decide) _, hfield (by decide) _, rfl, rfl, rfl⟩

end Sys2Proof.Machine
end

section
/-! PROOF. What a host step can do to the registers, and the rules of the parameters and of the sample count. -/

namespace Sys2Proof.Machine

/-! ### Host steps -/

/-- A register read changes nothing but the free values that are left. -/
theorem State.regRead_state (s : State) (r : Reg) : ∃ n, (s.regRead r).2 = { s with draws := n } := by
  have heither : ∀ v o, ∃ n, (s.readEither v o).2 = { s with draws := n } := fun v o => by
    cases o <;> exact ⟨_, rfl⟩
  unfold State.regRead State.busyRead
  split_ifs
  · exact ⟨_, rfl⟩
  · exact ⟨_, rfl⟩
  · exact heither _ _
  · exact heither _ _
  · exact ⟨_, rfl⟩
  · exact ⟨_, rfl⟩

/-- A host read access changes nothing but the answer and the free values that are left (R31, R32, R125, R126). -/
theorem State.accessRead_state (s : State) (addr : Word) (size : AccessSize) :
    ∃ n x, s.accessRead addr size = { s with draws := n, reply := x } := by
  unfold State.accessRead
  split
  · exact ⟨_, _, rfl⟩
  · split
    · exact ⟨_, _, rfl⟩
    · rename_i r _
      obtain ⟨n, hn⟩ := s.regRead_state r
      exact ⟨n, _, by rw [hn]⟩

/-- Everything a register write can do: W1C of STATUS, a lost write, acceptance or a configuration write while the engine
is not busy, or nothing (R32, R120, R123, R124). -/
theorem State.regWrite_cases (s : State) (r : Reg) (v : Word) :
    s.regWrite r v = s.clearStatus v ∨
    (s.status.busy = true ∧ s.regWrite r v = { s with status := { s.status with ovr := true } }) ∨
    (s.status.busy = false ∧ s.regWrite r v = s.accept v) ∨
    (s.status.busy = false ∧ s.regWrite r v = { s with cfg := s.cfg.write v r }) ∨
    s.regWrite r v = s := by
  unfold State.regWrite
  cases r.access <;> cases s.status.busy <;> simp

/-- A host write access answers, and does to the block what a register write does or nothing (R31, R32). -/
theorem State.accessWrite_cases (s : State) (addr : Word) (size : AccessSize) (v : Word) :
    (∃ x, s.accessWrite addr size v = { s with reply := x }) ∨
      ∃ r x, s.accessWrite addr size v = { s.regWrite r v with reply := x } := by
  unfold State.accessWrite
  split
  · exact .inl ⟨_, rfl⟩
  · split
    · exact .inl ⟨_, rfl⟩
    · exact .inr ⟨_, _, rfl⟩

/-- A host read of memory changes nothing but the free values that are left. -/
theorem State.hostMemRead_state (s : State) (a : Word) (n : Nat) :
    ∃ d, (s.hostMemRead a n).2 = { s with draws := d } := by
  unfold State.hostMemRead
  split <;> exact ⟨_, rfl⟩

/-! ### The parameters -/

theorem State.regWrite_par (s : State) (r : Reg) (v : Word) : (s.regWrite r v).par = s.par := by
  rcases s.regWrite_cases r v with h | ⟨-, h⟩ | ⟨-, h⟩ | ⟨-, h⟩ | h <;> rw [h] <;> rfl

/-- No host step changes the parameters (log 2). -/
theorem hostStep_par (act : HostAction) (s : State) : (hostStep act s).par = s.par := by
  cases act with
  | regRead addr size =>
    obtain ⟨n, x, h⟩ := s.accessRead_state addr size
    rw [hostStep, h]
  | regWrite addr size v =>
    rcases s.accessWrite_cases addr size v with ⟨x, h⟩ | ⟨r, x, h⟩ <;> rw [hostStep, h]
    exact s.regWrite_par r v
  | memRead addr n =>
    obtain ⟨d, h⟩ := s.hostMemRead_state addr n
    rw [hostStep, h]
  | memWrite addr vs => exact s.hostMemWrite_par addr vs
  | wait =>
    obtain ⟨n, h⟩ := s.regRead_state .status
    rw [hostStep, h]
  | reset mid => exact (resetEvent_fields s mid).1
  | platform map => rfl

/-- No step changes the parameters, a reset included (log 2). -/
theorem step_par {s t : State} (h : step s = .next t) : t.par = s.par :=
  step_keeps (P := fun u => u.par = s.par) (fun u hu => (engineStep_frame u).par.trans hu)
    (fun act u hu => (hostStep_par act u).trans hu) (fun _ _ hu => hu) rfl h

/-- Two halves side by side, as a number and as a word. -/
theorem ofNat_halves (hi lo : Half) :
    BitVec.ofNat 32 (65536 * hi.toNat + lo.toNat) = hi.setWidth 32 <<< 16 ||| lo.setWidth 32 := by
  have h := hi.isLt
  have l := lo.isLt
  apply BitVec.eq_of_toNat_eq
  rw [ofNat_toNat_of_lt (by omega), BitVec.toNat_or, BitVec.toNat_shiftLeft, toNat_setWidth_word (by decide),
    toNat_setWidth_word (by decide), Nat.shiftLeft_eq, Nat.mod_eq_of_lt (by omega), ← Nat.shiftLeft_eq,
    ← Nat.shiftLeft_add_eq_or_of_lt l, Nat.shiftLeft_eq, Nat.mul_comm]

/-- Settles O16: the three words are functions of the parameters, which no step changes. -/
theorem identificationIsConstant : Obligations.IdentificationIsConstant := by
  refine ⟨fun s => ⟨rfl, ofNat_halves s.par.rows s.par.columns, rowSize_word s.par⟩, fun s t h => ?_⟩
  simp [State.regValue, step_par h]

/-! ### The sample count -/

/-- SAMPLE of an active row whose sample step goes on is that step and completion (R166). -/
theorem exec_sample_goes {s t : State} (ha : s.status.rowActive = true) (hg : sampleStep s = .goes t) :
    exec .sample s = .next t.endBody.complete := by
  have hb : beginSample s = t.endBody := by rw [beginSample, if_pos ha, hg]
  change Host.Outcome.next (continueFor 1 (beginSample s)) = _
  rw [hb]
  rfl

/-- Settles O47: a served sample step goes on, and it counts one sample and ends the row with the last. -/
theorem eachSampleIsCounted : Obligations.EachSampleIsCounted := by
  intro s ha hrow hserved
  obtain ⟨t, hg⟩ := sampleStep_served hrow hserved
  obtain ⟨hsame, -, htaken, hcase⟩ := sampleStep_goes hrow hg
  refine ⟨_, exec_sample_goes ha hg, htaken, ?_⟩
  change t.status.rowActive = false ↔ t.row.taken = numSamples s.par
  rcases hcase with ⟨hst, hrow'⟩ | ⟨hst, hlast, -⟩
  · have hlt := hrow'.taken_lt
    rw [hsame.par] at hlt
    simp [hst, ha, hlt.ne]
  · simp [hst, htaken, hlast]

end Sys2Proof.Machine
end

section
/-! PROOF. Every step keeps the invariants. A command body works on `BodyInv`, which says nothing of the engine's progress,
and gives `Inv` back where it stops. -/

namespace Sys2Proof.Machine

/-! ### The parts of the invariants -/

/-- ERR and ERRCODE agree (R44, R201). -/
structure Status.CodeSound (t : Status) : Prop where
  zero : t.err = false → t.errCode = 0
  max : t.errCode.toNat ≤ 8

theorem ErrCode.number_le (c : ErrCode) : c.number.toNat ≤ 8 := by cases c <;> decide

theorem Status.CodeSound.raise {t : Status} (h : t.CodeSound) (code : ErrCode) : (t.raise code).CodeSound := by
  refine ⟨fun he => by simp at he, ?_⟩
  rw [Status.raise_errCode]
  split
  · exact h.max
  · exact code.number_le

/-- `Status.CodeSound` is about ERR and ERRCODE alone. -/
theorem Status.CodeSound.of_eq {a b : Status} (h : a.CodeSound) (he : b.err = a.err) (hc : b.errCode = a.errCode) :
    b.CodeSound :=
  ⟨fun hb => hc.trans (h.zero (he.symm.trans hb)), hc ▸ h.max⟩

theorem Status.CodeSound.busError {t : Status} (h : t.CodeSound) :
    (Status.raise { t with rowActive := false } .bus).CodeSound :=
  Status.CodeSound.raise (t := { t with rowActive := false }) (h.of_eq rfl rfl) .bus

theorem Status.CodeSound.clear {t : Status} (h : t.CodeSound) (v : Word) : (t.clear v).CodeSound := by
  cases hv : v.getLsbD 2 with
  | true =>
    have hc : (t.clear v).errCode = 0 := by rw [Status.clear_errCode, if_pos hv]
    exact ⟨fun _ => hc, by rw [hc]; decide⟩
  | false =>
    exact h.of_eq (by rw [Status.clear_err, hv, Bool.not_false, Bool.and_true])
      (by rw [Status.clear_errCode, hv, if_neg Bool.false_ne_true])

/-- A stored unit is the `i`-th unit of the row, for some `i` (R81). -/
abbrev StoredUnit.OfRow (p : Params) (r : RowRegs) (u : StoredUnit) : Prop :=
  u.old.length = r.unitBytes ∧ u.new.length = r.unitBytes ∧
    ∃ i < numUnits p r.lUnit32, u.addr = r.lDstRow + BitVec.ofNat 32 (i * r.unitBytes)

/-- What holds inside a command body wherever it goes on: `Inv` without what it says of the engine's progress. -/
structure BodyInv (s : State) : Prop where
  params : s.par.wf
  memory : s.mem.wf
  code : s.status.CodeSound
  busy : s.status.busy = true
  wCount : s.row.wCount.toNat ≤ s.row.unitBits
  unitIdx : s.row.unitIdx.toNat ≤ numUnits s.par s.row.lUnit32
  stored : ∀ u ∈ s.stored, u.OfRow s.par s.row
  row : s.status.rowActive = true → RowInv s.par s.row

/-- What a body keeps or gives back: `BodyInv` where it goes on, `Inv` where it has ended. -/
def Body.Sound : Body → Prop
  | .goes t => BodyInv t
  | .ends t => Inv t

theorem Inv.code {s : State} (h : Inv s) : s.status.CodeSound := ⟨h.errCodeZero, h.errCodeMax⟩

/-- A command that runs and does not wait for ever is inside its body. -/
theorem Inv.body {s : State} (h : Inv s) (hidle : s.engine ≠ .idle) (hhung : s.engine ≠ .hung) : BodyInv s :=
  ⟨h.params, h.memory, h.code, h.busy.2 hidle, h.wCount, h.unitIdx, h.stored, fun ha => h.row ha hhung⟩

/-- The invariants of a command that has begun: those of an idle engine and of an accepted word do not bear on it. -/
theorem Inv.of_begun {s : State} (params : s.par.wf) (memory : s.mem.wf) (code : s.status.CodeSound)
    (busy : s.status.busy = true) (wCount : s.row.wCount.toNat ≤ s.row.unitBits)
    (unitIdx : s.row.unitIdx.toNat ≤ numUnits s.par s.row.lUnit32) (stored : ∀ u ∈ s.stored, u.OfRow s.par s.row)
    (begun : s.engine.Begun) (sampling : s.engine = .sampling → s.status.rowActive = true)
    (row : s.status.rowActive = true → s.engine ≠ .hung → RowInv s.par s.row) : Inv s where
  params := params
  memory := memory
  errCodeZero := code.zero
  errCodeMax := code.max
  busy := iff_of_true busy begun.ne_idle
  sampling := sampling
  wCount := wCount
  unitIdx := unitIdx
  quiet := fun h => absurd h begun.ne_idle
  fresh := fun w h => absurd h (begun.ne_accepted w)
  stored := stored
  row := row

/-- A body inside its loop is sound. -/
theorem BodyInv.sampling {s : State} (h : BodyInv s) (ha : s.status.rowActive = true) :
    Inv { s with engine := .sampling } :=
  Inv.of_begun h.params h.memory h.code h.busy h.wCount h.unitIdx h.stored (.inl rfl) (fun _ => ha) fun hact _ => h.row hact

/-- A body that has ended is sound. -/
theorem BodyInv.completing {s : State} (h : BodyInv s) (c : Option (CvtTarget × Word)) :
    Inv { s with engine := .completing c } :=
  Inv.of_begun h.params h.memory h.code h.busy h.wCount h.unitIdx h.stored (.inr (.inl ⟨c, rfl⟩)) (by simp)
    fun hact _ => h.row hact

/-- No invariant speaks of the configuration registers (R241). -/
theorem BodyInv.withCfg {s : State} (h : BodyInv s) (c : ConfigRegs) : BodyInv { s with cfg := c } :=
  ⟨h.params, h.memory, h.code, h.busy, h.wCount, h.unitIdx, h.stored, h.row⟩

theorem BodyInv.raiseError {s : State} (h : BodyInv s) (code : ErrCode) : Inv (s.raiseError code) :=
  BodyInv.completing (s := { s with status := s.status.raise code })
    ⟨h.params, h.memory, h.code.raise code, h.busy, h.wCount, h.unitIdx, h.stored, h.row⟩ none

theorem BodyInv.loopOrEnd {s : State} (h : BodyInv s) : Inv (loopOrEnd s) := by
  unfold Machine.loopOrEnd
  split
  · rename_i ha
    exact h.sampling ha
  · exact h.completing none

/-- What a body leaves where it stops: with a bus error it has no active row, and where it waits for ever its row is not
bound by R70. -/
theorem Inv.of_stopped {s : State} (params : s.par.wf) (memory : s.mem.wf) (code : s.status.CodeSound)
    (busy : s.status.busy = true) (wCount : s.row.wCount.toNat ≤ s.row.unitBits)
    (unitIdx : s.row.unitIdx.toNat ≤ numUnits s.par s.row.lUnit32) (stored : ∀ u ∈ s.stored, u.OfRow s.par s.row)
    (stop : s.engine = .hung ∨ (s.engine = .completing none ∧ s.status.rowActive = false)) : Inv s := by
  refine Inv.of_begun params memory code busy wCount unitIdx stored ?_ ?_ ?_ <;> rcases stop with h | ⟨h, hact⟩
  · exact .inr (.inr h)
  · exact .inr (.inl ⟨none, h⟩)
  · simp [h]
  · simp [h]
  · simp [h]
  · simp [hact]

/-! ### What a sample step stores -/

/-- A step has stored nothing, or the whole unit at the write cursor. -/
abbrev StoresCursorUnit (s t : State) : Prop :=
  t.stored = s.stored ∨ ∃ u : StoredUnit, t.stored = u :: s.stored ∧ u.addr = s.row.unitAddr ∧
    u.old.length = s.row.unitBytes ∧ u.new.length = s.row.unitBytes

theorem advanceCursor_stored (s : State) : (advanceCursor s).state.stored = s.stored := by
  rcases advanceCursor_cases s with ⟨-, he⟩ | ⟨-, -, he⟩ | ⟨-, -, he⟩ <;> rw [he]
  · rfl
  · rfl
  · rcases loadSrcByte_cases { s with row := s.row.moved } with ⟨-, hl⟩ | ⟨-, hl⟩ | ⟨-, hl⟩ <;> rw [hl] <;> rfl

theorem State.cursorUnit_lengths (s : State) :
    s.cursorUnit.old.length = s.row.unitBytes ∧ s.cursorUnit.new.length = s.row.unitBytes :=
  ⟨Memory.readList_length _ _ _, s.row.unitData_length⟩

theorem flushUnit_stores (s : State) : StoresCursorUnit s (flushUnit s).state := by
  obtain ⟨hold, hnew⟩ := s.cursorUnit_lengths
  rcases flushUnit_cases s with ⟨-, h⟩ | ⟨-, h⟩ | ⟨-, h⟩ <;> rw [h]
  · exact .inr ⟨s.cursorUnit, flushDone_stored s, rfl, hold, hnew⟩
  · exact .inr ⟨{ s.cursorUnit with
        new := (s.scramble s.row.unitAddr s.row.unitBytes).mem.readList s.row.unitAddr s.row.unitBytes },
      by simp [flushFailed], rfl, hold, Memory.readList_length _ _ _⟩
  · exact .inr ⟨s.cursorUnit, flushHung_stored s, rfl, hold, hnew⟩

theorem packBit_stores (bit : Bool) (s : State) : StoresCursorUnit s (packBit bit s).state := by
  rcases packBit_cases bit s with ⟨-, h⟩ | ⟨-, h⟩ <;> rw [h]
  · exact flushUnit_stores { s with row := s.row.append bit }
  · exact .inl rfl

theorem sampleStep_stores (s : State) : StoresCursorUnit s (sampleStep s).state := by
  obtain ⟨hsame, hidx, -⟩ := advanceCursor_confined s
  have hst := advanceCursor_stored s
  cases ha : advanceCursor s with
  | ends a =>
    rw [sampleStep_eq_ends.2 (.inl ha)]
    rw [ha] at hst
    exact .inl hst
  | goes a =>
    rw [ha, Body.state_goes] at hsame hidx hst
    obtain ⟨haddr, hbytes⟩ := hsame.unitAddr hidx
    have hp := packBit_stores a.row.srcBit a
    rw [StoresCursorUnit, hst, haddr, hbytes] at hp
    cases hb : packBit a.row.srcBit a with
    | ends b =>
      rw [sampleStep_eq_ends.2 (.inr ⟨a, ha, hb⟩)]
      rwa [hb] at hp
    | goes b =>
      rw [sampleStep_eq_goes.2 ⟨a, b, ha, hb, rfl⟩]
      rwa [hb] at hp

/-- The units of a row stay its units while its latches stay. -/
theorem StoredUnit.OfRow.of_same {s t : State} (h : SameButRow s t) {u : StoredUnit} (hu : u.OfRow s.par s.row) :
    u.OfRow t.par t.row := by
  simpa only [StoredUnit.OfRow, RowRegs.unitBytes, h.par, h.lDstRow, h.lUnit32] using hu

/-- What a sample step of a sound row has stored are units of the row. -/
theorem sampleStep_stored_ofRow {s : State} (h : BodyInv s) (ha : s.status.rowActive = true) :
    ∀ u ∈ (sampleStep s).state.stored, u.OfRow (sampleStep s).state.par (sampleStep s).state.row := by
  obtain ⟨hsame, -⟩ := sampleStep_confined s
  intro u hu
  refine StoredUnit.OfRow.of_same hsame ?_
  rcases sampleStep_stores s with hst | ⟨v, hst, haddr, hold, hnew⟩ <;> rw [hst] at hu
  · exact h.stored u hu
  · rcases List.mem_cons.1 hu with rfl | hu
    · exact ⟨hold, hnew, s.row.unitIdx.toNat, (h.row ha).unitIdx, haddr⟩
    · exact h.stored u hu

/-! ### The bodies of the row commands -/

/-- A sample step that goes on leaves the row sound and active, or ended on its last unit (R70, R165, R184). -/
theorem sampleStep_goes_sound {s t : State} (h : BodyInv s) (ha : s.status.rowActive = true)
    (hg : sampleStep s = .goes t) : BodyInv t := by
  obtain ⟨-, hwf, -⟩ := sampleStep_confined s
  have hmem := hwf h.memory
  have hstored := sampleStep_stored_ofRow h ha
  rw [hg] at hmem hstored
  obtain ⟨hsame, -, -, ⟨hst, hinv⟩ | ⟨hst, -, -, hw, hu⟩⟩ := sampleStep_goes (h.row ha) hg
  · exact ⟨hsame.par ▸ h.params, hmem, hst ▸ h.code, hst ▸ h.busy, hinv.wCount.le, hinv.unitIdx.le, hstored,
      fun _ => hinv⟩
  · exact
      { params := hsame.par ▸ h.params
        memory := hmem
        code := h.code.of_eq (by rw [hst]) (by rw [hst])
        busy := by rw [hst]; exact h.busy
        wCount := by simp [hw]
        unitIdx := by rw [hu, hsame.par, hsame.lUnit32]
        stored := hstored
        row := fun hact => by simp [hst] at hact }

/-- A sample step that has ended its body leaves WCOUNT as it was or the unit full, and has counted no unit (R206). -/
theorem sampleStep_ends_sound {s t : State} (h : BodyInv s) (ha : s.status.rowActive = true)
    (hg : sampleStep s = .ends t) : Inv t := by
  obtain ⟨hsame, hwf, -, hends⟩ := sampleStep_confined s
  have hmem := hwf h.memory
  have hstored := sampleStep_stored_ofRow h ha
  rw [hg] at hsame hmem hstored hends
  rw [Body.state_ends] at hsame
  have hbits : t.row.unitBits = s.row.unitBits := by rw [RowRegs.unitBits, RowRegs.unitBits, hsame.lUnit32]
  have hstopped : t.status.CodeSound ∧ t.status.busy = true ∧ t.row.unitIdx = s.row.unitIdx ∧
      (t.row.wCount = s.row.wCount ∨ t.row.wCount.toNat = t.row.unitBits) ∧
      (t.engine = .hung ∨ (t.engine = .completing none ∧ t.status.rowActive = false)) := by
    rcases hends with ⟨u, hu, -⟩ | ⟨u, hu, he, hst, hui, hw⟩ | ⟨u, hu, he, hst, hui, hw⟩ <;> cases hu
    · exact ⟨hst ▸ h.code, hst ▸ h.busy, hui, hw, .inl he⟩
    · exact ⟨hst ▸ h.code.busError, by rw [hst]; exact h.busy, hui, hw, .inr ⟨he, by rw [hst]; rfl⟩⟩
  obtain ⟨hcode, hbusy, hui, hw, hstop⟩ := hstopped
  refine Inv.of_stopped (hsame.par ▸ h.params) hmem hcode hbusy ?_ ?_ hstored hstop
  · rcases hw with hw | hw
    · rw [hw, hbits]
      exact h.wCount
    · exact hw.le
  · rw [hui, hsame.par, hsame.lUnit32]
    exact h.unitIdx

/-- A sample step of an active row is sound. -/
theorem sampleStep_sound {s : State} (h : BodyInv s) (ha : s.status.rowActive = true) : (sampleStep s).Sound := by
  cases hg : sampleStep s with
  | goes t => exact sampleStep_goes_sound h ha hg
  | ends t => exact sampleStep_ends_sound h ha hg

/-- Passed checks, as the row needs them (R162). -/
theorem rowChecks_none {p : Params} {c : ConfigRegs} {y : Nat} (h : rowChecks p c y = none) :
    badGeometry c = false ∧ badScale c = false ∧ badAlign c = false := by
  unfold rowChecks at h
  split_ifs at h with h1 h2 h3 h4
  exact ⟨by simpa using h2, by simpa using h3, by simpa using h4⟩

/-- The wrapped offset lies in the row (R146). -/
theorem wrapSplit_bounds (x : Word) {width : Nat} (h : 0 < width) :
    (wrapSplit x width).byteOffset * 8 + (wrapSplit x width).bitOffset < width ∧
      (wrapSplit x width).fracFixed < 65536 := by
  have hlt : (x.toInt % ((width * 65536 : Nat) : Int)).toNat < width * 65536 := by
    have := Int.emod_lt_of_pos x.toInt (b := ((width * 65536 : Nat) : Int)) (by omega)
    omega
  unfold wrapSplit
  dsimp only
  omega

/-- A row that passed the checks starts sound (R70, R160, R162). -/
theorem latchRow_inv {p : Params} {c : ConfigRegs} {y : Nat} (hp : p.wf) (hc : rowChecks p c y = none) (r : RowRegs) :
    RowInv p (latchRow p c y r) := by
  obtain ⟨hgeom, hscale, halign⟩ := rowChecks_none hc
  simp only [badGeometry, decide_eq_false_iff_not, not_or] at hgeom
  obtain ⟨hw0, hw8, -, -, hstride⟩ := hgeom
  simp only [badScale, decide_eq_false_iff_not, not_or] at hscale
  obtain ⟨hs0, hsmax⟩ := hscale
  obtain ⟨hpos, hfrac⟩ := wrapSplit_bounds c.offsetFx (Nat.pos_of_ne_zero hw0)
  have hs := c.srcStride.isLt
  exact
    { curByte := by
        rw [latchRow_curByte, latchRow_lStride, BitVec.toNat_ofNat, Nat.mod_eq_of_lt] <;> omega
      scalePos := by rw [latchRow_lScale]; omega
      scaleMax := by rw [latchRow_lScale]; omega
      curFrac := by
        rw [latchRow_curFrac, ofNat_toNat_of_lt] <;> omega
      wCount := by
        rcases unitBits_cases c.unit32 with ⟨-, h⟩ | ⟨-, h⟩ <;> simp [RowRegs.unitBits, h]
      unitIdx := numUnits_pos hp c.unit32
      accLow := Nat.zero_mod _
      accHigh := Nat.two_pow_pos _
      aligned := fun h32 => by
        have hd : c.dstBase.toNat % 4 = 0 := by simpa [badAlign, show c.unit32 = true from h32] using halign
        have hr : y * rowSize p % 4 = 0 := by rw [Nat.mul_mod, rowSize_mod_four, Nat.mul_zero, Nat.zero_mod]
        rw [latchRow_lDstRow, BitVec.toNat_ofNat]
        omega }

/-- The body of ROW_SETUP, which ROW_RUN starts with, is sound where the command has stored nothing. -/
theorem rowSetupBody_sound {s : State} (h : BodyInv s) (hfresh : s.stored = []) (y : Nat) :
    (rowSetupBody y s).Sound := by
  rcases rowSetupBody_cases y s with ⟨code, -, he⟩ | ⟨hc, hcase⟩
  · rw [he]
    exact h.raiseError code
  · have hinv : RowInv s.par (latchRow s.par s.cfg y s.row) := latchRow_inv h.params hc s.row
    have hstored : ∀ u ∈ s.stored, u.OfRow s.par (latchRow s.par s.cfg y s.row) := by simp [hfresh]
    rcases hcase with ⟨-, he⟩ | ⟨-, he⟩ | ⟨-, he⟩ <;> rw [he]
    · exact ⟨h.params, h.memory, h.code.of_eq rfl rfl, h.busy, hinv.wCount.le, hinv.unitIdx.le, hstored,
        fun _ => hinv.withSrcByte _⟩
    · exact Inv.of_stopped h.params h.memory h.code.busError h.busy hinv.wCount.le
        hinv.unitIdx.le hstored (.inr ⟨rfl, rfl⟩)
    · exact Inv.of_stopped h.params h.memory h.code h.busy hinv.wCount.le hinv.unitIdx.le hstored (.inl rfl)

/-! ### Engine steps -/

theorem Body.Sound.finish {b : Body} {f : State → State} (hb : b.Sound) (hf : ∀ t, BodyInv t → Inv (f t)) :
    Inv (b.finish f) := by
  cases b with
  | goes t => exact hf t hb
  | ends t => exact hb

theorem BodyInv.endBody {s : State} (h : BodyInv s) : Inv s.endBody := h.completing none

theorem loopStep_sound {s : State} (h : BodyInv s) (ha : s.status.rowActive = true) : Inv (loopStep s) := by
  rw [loopStep_eq_finish]
  exact (sampleStep_sound h ha).finish fun _ => BodyInv.loopOrEnd

/-- The first engine step of a command that has stored nothing is sound. -/
theorem beginInstr_sound {s : State} (h : BodyInv s) (hfresh : s.stored = []) (i : Instr) : Inv (beginInstr i s) := by
  cases i with
  | nop => exact h.endBody
  | cvtScale =>
    rw [beginInstr]
    rcases beginCvtScale_cases s with ⟨v, -, he⟩ | ⟨-, he⟩ <;> rw [he]
    · exact (h.withCfg { s.cfg with scaleFx := v }).completing _
    · exact h.raiseError .scale
  | cvtOffset =>
    rw [beginInstr]
    rcases beginCvtOffset_cases s with ⟨v, -, he⟩ | ⟨-, he⟩ <;> rw [he]
    · exact (h.withCfg { s.cfg with offsetFx := v }).completing _
    · exact h.raiseError .range
  | rowSetup y => exact (rowSetupBody_sound h hfresh y).finish fun _ => BodyInv.endBody
  | sample =>
    rw [beginInstr]
    rcases beginSample_cases s with ⟨ha, he⟩ | ⟨-, he⟩ <;> rw [he]
    · exact (sampleStep_sound h ha).finish fun _ => BodyInv.endBody
    · exact h.raiseError .noRow
  | rowFinish =>
    rw [beginInstr]
    rcases beginRowFinish_cases s with ⟨ha, he⟩ | ⟨-, he⟩ <;> rw [he]
    · exact loopStep_sound h ha
    · exact h.raiseError .noRow
  | rowRun y => exact (rowSetupBody_sound h hfresh y).finish fun _ => BodyInv.loopOrEnd

theorem dispatchWord_sound {s : State} (h : BodyInv s) (hfresh : s.stored = []) (w : Word) : Inv (dispatchWord w s) := by
  unfold dispatchWord
  split
  · exact beginInstr_sound h hfresh _
  · exact h.raiseError .opcode

/-- Completion leaves the machine idle and quiet (R91, R127). -/
theorem BodyInv.complete {s : State} (h : BodyInv s) : Inv s.complete where
  params := h.params
  memory := h.memory
  errCodeZero := h.code.zero
  errCodeMax := h.code.max
  busy := by simp
  sampling := by simp
  wCount := h.wCount
  unitIdx := h.unitIdx
  quiet := fun _ => ⟨rfl, rfl⟩
  fresh := by simp
  stored := by simp
  row := fun ha _ => h.row ha

/-- Every engine step keeps the invariants. -/
theorem engineStep_sound (s : State) (h : Inv s) : Inv (engineStep s) := by
  cases he : s.engine with
  | idle =>
    rw [engineStep_eq_continueStep (by simp [he]), continueStep_idle he]
    exact h
  | accepted w =>
    rw [engineStep_accepted he]
    exact dispatchWord_sound (h.body (by simp [he]) (by simp [he])) (h.fresh w he) w
  | sampling =>
    rw [engineStep_eq_continueStep (by simp [he]), continueStep_sampling he]
    exact loopStep_sound (h.body (by simp [he]) (by simp [he])) (h.sampling he)
  | completing c =>
    rw [engineStep_eq_continueStep (by simp [he]), continueStep_completing he]
    exact (h.body (by simp [he]) (by simp [he])).complete
  | hung =>
    rw [engineStep_eq_continueStep (by simp [he]), continueStep_hung he]
    exact h

/-! ### Host steps -/

/-- The invariants speak of the registers, the engine and the stores: another memory in canonical form, and races while a
command runs, are as good. -/
theorem Inv.transfer {s t : State} (h : Inv s) (par : t.par = s.par) (mem : t.mem.wf) (status : t.status = s.status)
    (row : t.row = s.row) (engine : t.engine = s.engine) (raced : s.engine = .idle → t.raced = s.raced)
    (stored : t.stored = s.stored) : Inv t where
  params := par ▸ h.params
  memory := mem
  errCodeZero := status ▸ h.errCodeZero
  errCodeMax := status ▸ h.errCodeMax
  busy := by rw [status, engine]; exact h.busy
  sampling := by rw [status, engine]; exact h.sampling
  wCount := row ▸ h.wCount
  unitIdx := by rw [par, row]; exact h.unitIdx
  quiet := fun he => by
    rw [engine] at he
    rw [raced he, stored]
    exact h.quiet he
  fresh := by rw [engine, stored]; exact h.fresh
  stored := by rw [par, row, stored]; exact h.stored
  row := by rw [par, row, status, engine]; exact h.row

/-- BUSY = 0 means that no command runs (R39). -/
theorem Inv.idle {s : State} (h : Inv s) (hb : s.status.busy = false) : s.engine = .idle := by
  by_contra hne
  rw [h.busy.2 hne] at hb
  cases hb

/-- A STATUS change that keeps BUSY and ROW_ACTIVE and the error code's rule is sound. -/
theorem Inv.withStatus {s : State} (h : Inv s) {st : Status} (hcode : st.CodeSound) (hb : st.busy = s.status.busy)
    (ha : st.rowActive = s.status.rowActive) : Inv { s with status := st } where
  params := h.params
  memory := h.memory
  errCodeZero := hcode.zero
  errCodeMax := hcode.max
  busy := by rw [show State.status { s with status := st } = st from rfl, hb]; exact h.busy
  sampling := fun he => ha.trans (h.sampling he)
  wCount := h.wCount
  unitIdx := h.unitIdx
  quiet := h.quiet
  fresh := h.fresh
  stored := h.stored
  row := fun hact => h.row (ha.symm.trans hact)

/-- Acceptance while idle is sound: the machine is quiet (R120). -/
theorem Inv.accept {s : State} (h : Inv s) (hb : s.status.busy = false) (w : Word) : Inv (s.accept w) where
  params := h.params
  memory := h.memory
  errCodeZero := h.errCodeZero
  errCodeMax := h.errCodeMax
  busy := by simp
  sampling := by simp
  wCount := h.wCount
  unitIdx := h.unitIdx
  quiet := by simp
  fresh := fun _ _ => (h.quiet (h.idle hb)).2
  stored := h.stored
  row := fun ha _ => h.row ha (by simp [h.idle hb])

theorem regWrite_sound {s : State} (h : Inv s) (r : Reg) (v : Word) : Inv (s.regWrite r v) := by
  rcases s.regWrite_cases r v with he | ⟨-, he⟩ | ⟨hb, he⟩ | ⟨-, he⟩ | he <;> rw [he]
  · exact h.withStatus (h.code.clear v) rfl rfl
  · exact h.withStatus (h.code.of_eq rfl rfl) rfl rfl
  · exact h.accept hb v
  · exact h.transfer rfl h.memory rfl rfl rfl (fun _ => rfl) rfl
  · exact h

/-- While BUSY = 0 no host write races. -/
theorem State.hostMemWrite_raced_idle {s : State} (hb : s.status.busy = false) (a : Word) (vs : List Byte) :
    (s.hostMemWrite a vs).raced = s.raced := by
  induction vs generalizing s a with
  | nil => rfl
  | cons v vs ih =>
    rw [State.hostMemWrite, ih (by rw [State.hostWriteByte_status]; exact hb)]
    simp [State.hostWriteByte, hb]

/-- A reset leaves a sound state, memory in its canonical form (R230 to R232). -/
theorem resetEvent_sound {s : State} (h : Inv s) (mid : Bool) : Inv (s.resetEvent mid) := by
  obtain ⟨hpar, -, hst, hrow, hen, -, -⟩ := resetEvent_fields s mid
  have hmem : (s.resetEvent mid).mem.wf := by
    unfold State.resetEvent
    split
    · exact State.scramble_mem_wf h.memory _ _
    · exact h.memory
  exact
    { params := hpar ▸ h.params
      memory := hmem
      errCodeZero := fun _ => by rw [hst]; rfl
      errCodeMax := by rw [hst]; decide
      busy := by simp [hst, hen, Status.reset]
      sampling := by simp [hen]
      wCount := by rw [hrow]; decide
      unitIdx := by rw [hrow]; exact Nat.zero_le _
      quiet := fun _ => ⟨rfl, rfl⟩
      fresh := by simp [hen]
      stored := fun u hu => by cases (show u ∈ [] from hu)
      row := by simp [hst, Status.reset] }

/-- Every host step keeps the invariants. -/
theorem hostStep_sound (act : HostAction) (s : State) (h : Inv s) : Inv (hostStep act s) := by
  have hreply : ∀ {u : State} (x : Reply), Inv u → Inv { u with reply := x } := fun _ hu =>
    hu.transfer rfl hu.memory rfl rfl rfl (fun _ => rfl) rfl
  have hdraws : ∀ (n : Nat) (x : Reply), Inv { s with draws := n, reply := x } := fun _ _ =>
    h.transfer rfl h.memory rfl rfl rfl (fun _ => rfl) rfl
  cases act with
  | regRead addr size =>
    obtain ⟨n, x, he⟩ := s.accessRead_state addr size
    rw [hostStep, he]
    exact hdraws n x
  | regWrite addr size v =>
    rcases s.accessWrite_cases addr size v with ⟨x, he⟩ | ⟨r, x, he⟩ <;> rw [hostStep, he]
    · exact hreply x h
    · exact hreply x (regWrite_sound h r v)
  | memRead addr n =>
    obtain ⟨d, he⟩ := s.hostMemRead_state addr n
    rw [hostStep, he]
    exact hdraws d _
  | memWrite addr vs =>
    exact hreply .done (h.transfer (s.hostMemWrite_par addr vs) (State.hostMemWrite_mem_wf h.memory addr vs)
      (s.hostMemWrite_status addr vs) (s.hostMemWrite_row addr vs) (s.hostMemWrite_engine addr vs)
      (fun he => State.hostMemWrite_raced_idle (by simpa [he] using h.busy) addr vs) (s.hostMemWrite_stored addr vs))
  | wait =>
    obtain ⟨n, he⟩ := s.regRead_state .status
    rw [hostStep, he]
    exact hdraws n _
  | reset mid => exact resetEvent_sound h mid
  | platform map => exact h.transfer rfl h.memory rfl rfl rfl (fun _ => rfl) rfl

/-- Settles O21: engine steps keep the invariants and host steps do, so every step of the machine does. -/
theorem stepKeepsSoundness : Obligations.StepKeepsSoundness := fun _ _ hs ht =>
  step_keeps engineStep_sound hostStep_sound
    (fun _ _ h => h.transfer rfl h.memory rfl rfl rfl (fun _ => rfl) rfl) hs ht

end Sys2Proof.Machine
end

section
/-! PROOF. What the row commands leave alone, whatever they end in: the configuration, the row's latches, and memory
outside what the row may store. -/

namespace Sys2Proof.Machine

/-! ### Bytes and frames -/

/-- The address is one of the `n` bytes from `base`. -/
def InSpan (base : Word) (n : Nat) (a : Word) : Prop := ∃ k < n, a = base + BitVec.ofNat 32 k

theorem not_inSpan {base a : Word} {n : Nat} : ¬InSpan base n a ↔ ∀ k < n, a ≠ base + BitVec.ofNat 32 k := by
  simp [InSpan]

/-- A unit of a row lies in the row (R11, R182). -/
theorem InSpan.of_unit {p : Params} {b : Bool} {i : Nat} (hi : i < numUnits p b) {base a : Word}
    (h : InSpan (base + BitVec.ofNat 32 (i * unitBytes b)) (unitBytes b) a) : InSpan base (rowSize p) a := by
  obtain ⟨k, hk, rfl⟩ := h
  have hlast : (i + 1) * unitBytes b ≤ numUnits p b * unitBytes b := Nat.mul_le_mul_right _ hi
  rw [numUnits_mul_unitBytes, Nat.succ_mul] at hlast
  exact ⟨i * unitBytes b + k, by omega, by rw [BitVec.add_assoc, ← BitVec.ofNat_add]⟩

/-- What a step of a row's command leaves alone: the configuration, the row's latches, and memory outside `X`. -/
structure KeepsRow (X : Word → Prop) (s t : State) : Prop where
  cfg : t.cfg = s.cfg
  latches : Spec.SameLatches t.row s.row
  mem : ∀ a, ¬X a → t.mem.read a = s.mem.read a

section
variable {X : Word → Prop} {s t u : State}

theorem KeepsRow.of_eq (hcfg : t.cfg = s.cfg) (hrow : t.row = s.row) (hmem : t.mem = s.mem) : KeepsRow X s t :=
  ⟨hcfg, hrow ▸ ⟨rfl, rfl, rfl, rfl, rfl, rfl, rfl⟩, fun _ _ => by rw [hmem]⟩

theorem KeepsRow.trans (h : KeepsRow X s t) (k : KeepsRow X t u) : KeepsRow X s u := by
  obtain ⟨hy, hi, hsrc, hdst, hstride, hunit, hscale⟩ := h.latches
  obtain ⟨ky, ki, ksrc, kdst, kstride, kunit, kscale⟩ := k.latches
  exact ⟨k.cfg.trans h.cfg, ⟨ky.trans hy, ki.trans hi, ksrc.trans hsrc, kdst.trans hdst, kstride.trans hstride,
    kunit.trans hunit, kscale.trans hscale⟩, fun a ha => (k.mem a ha).trans (h.mem a ha)⟩

theorem KeepsRow.mono {Y : Word → Prop} (h : KeepsRow X s t) (hXY : ∀ a, X a → Y a) : KeepsRow Y s t :=
  ⟨h.cfg, h.latches, fun a ha => h.mem a (mt (hXY a) ha)⟩

theorem KeepsRow.endBody (h : KeepsRow X s t) : KeepsRow X s t.endBody := ⟨h.cfg, h.latches, h.mem⟩

theorem KeepsRow.complete (h : KeepsRow X s t) : KeepsRow X s t.complete := ⟨h.cfg, h.latches, h.mem⟩

end

/-- A body that has ended is completed or left, which changes no register and no byte that a frame speaks of. -/
theorem KeepsRow.continueFor_ended {X : Word → Prop} {s t : State} (h : KeepsRow X s t) (he : t.engine.Ended)
    (n : Nat) : KeepsRow X s (continueFor n t) := by
  rcases Machine.continueFor_ended n he with hc | hc <;> rw [hc]
  · exact h
  · exact h.complete

/-- A sample step keeps its row and stores at most in the unit at the write cursor (R81, R182). -/
theorem sampleStep_keepsRow (s : State) :
    KeepsRow (InSpan s.row.unitAddr s.row.unitBytes) s (sampleStep s).state := by
  obtain ⟨hsame, -, hmem, -⟩ := sampleStep_confined s
  exact ⟨hsame.cfg, ⟨hsame.rowY, hsame.srcRowIdx, hsame.lSrcRow, hsame.lDstRow, hsame.lStride, hsame.lUnit32,
    hsame.lScale⟩, fun a ha => hmem a (not_inSpan.1 ha)⟩

/-! ### SAMPLE -/

theorem beginSample_keepsRow (s : State) :
    KeepsRow (InSpan s.row.unitAddr s.row.unitBytes) s (beginSample s) ∧ (beginSample s).engine.Ended := by
  rcases beginSample_cases s with ⟨-, hb⟩ | ⟨-, hb⟩ <;> rw [hb]
  · have hk := sampleStep_keepsRow s
    cases hg : sampleStep s with
    | goes t => rw [hg] at hk; exact ⟨hk.endBody, .inl ⟨none, rfl⟩⟩
    | ends t => rw [hg] at hk; exact ⟨hk, sampleStep_ended hg⟩
  · exact ⟨.of_eq rfl rfl rfl, .inl ⟨none, rfl⟩⟩

/-- Settles O39: the frame of every command, and that of a sample step, which completion keeps. -/
theorem sampleFrame : Obligations.SampleFrame := by
  intro s t h
  have hf := exec_frame h
  obtain ⟨hbegin, hended⟩ := beginSample_keepsRow s
  rw [exec_eq_continueFor] at h
  cases h
  have hk := hbegin.continueFor_ended hended (stepBound s.par .sample - 1)
  exact ⟨hf.par, hk.cfg, hf.platform, hf.host, hf.reply, hk.latches, hf.ovr, fun a ha => hk.mem a (not_inSpan.2 ha)⟩

/-! ### ROW_SETUP -/

theorem rowSetupBody_cfg_mem (y : Nat) (s : State) :
    (rowSetupBody y s).state.cfg = s.cfg ∧ (rowSetupBody y s).state.mem = s.mem := by
  rcases rowSetupBody_cases y s with ⟨code, -, h⟩ | ⟨-, ⟨-, h⟩ | ⟨-, h⟩ | ⟨-, h⟩⟩ <;> rw [h] <;> exact ⟨rfl, rfl⟩

/-- ROW_SETUP has ended its body after its first engine step (R128, R160). -/
theorem beginRowSetup_cfg_mem (y : Nat) (s : State) :
    (beginRowSetup y s).cfg = s.cfg ∧ (beginRowSetup y s).mem = s.mem ∧ (beginRowSetup y s).engine.Ended := by
  obtain ⟨hcfg, hmem⟩ := rowSetupBody_cfg_mem y s
  rw [beginRowSetup_eq_finish]
  cases hb : rowSetupBody y s with
  | goes t => rw [hb] at hcfg hmem; exact ⟨hcfg, hmem, .inl ⟨none, rfl⟩⟩
  | ends t => rw [hb] at hcfg hmem; exact ⟨hcfg, hmem, rowSetupBody_ended hb⟩

/-- Settles O40: the frame of every command, and ROW_SETUP reads memory only. -/
theorem rowSetupFrame : Obligations.RowSetupFrame := by
  intro s t y h
  have hf := exec_frame h
  obtain ⟨hcfg, hmem, hended⟩ := beginRowSetup_cfg_mem y s
  have ht : t.cfg = s.cfg ∧ t.mem = s.mem := by
    rw [exec_eq_continueFor] at h
    cases h
    rcases continueFor_ended (stepBound s.par (.rowSetup y) - 1) hended with hc | hc <;>
      (rw [beginInstr, hc]; exact ⟨hcfg, hmem⟩)
  exact ⟨hf.par, ht.1, hf.platform, hf.host, hf.reply, hf.ovr, ht.2⟩

/-! ### The sample loop -/

/-- What the active row may store to: its destination row where it is sound, and nothing is said where it is not. -/
def State.MayStore (s : State) (a : Word) : Prop := RowInv s.par s.row → InSpan s.row.lDstRow (rowSize s.par) a

/-- The state `u` is reached from `s` in the loop of the row active in `s`, or after the loop's end. -/
structure OfRowLoop (s u : State) : Prop where
  par : u.par = s.par
  keeps : KeepsRow s.MayStore s u
  sound : RowInv s.par s.row → u.engine = .sampling → RowInv u.par u.row

/-- The unit at the write cursor of a row that is as sound as the row of `s` lies where `s` may store. -/
theorem mayStore_of_unit {s u : State} (hpar : u.par = s.par) (hk : KeepsRow s.MayStore s u)
    (hs : RowInv s.par s.row → RowInv u.par u.row) {a : Word} (ha : InSpan u.row.unitAddr u.row.unitBytes a) :
    s.MayStore a := by
  intro hinv
  obtain ⟨-, -, -, hdst, -⟩ := hk.latches
  have := InSpan.of_unit (hs hinv).unitIdx ha
  rwa [hdst, hpar] at this

/-- A step of the loop stays in its row. -/
theorem loopStep_ofRowLoop {s u : State} (hpar : u.par = s.par) (hk : KeepsRow s.MayStore s u)
    (hs : RowInv s.par s.row → RowInv u.par u.row) : OfRowLoop s (loopStep u) := by
  have hpar' := (loopStep_frame u).par.trans hpar
  have hk' := hk.trans ((sampleStep_keepsRow u).mono fun _ => mayStore_of_unit hpar hk hs)
  rcases loopStep_cases u with ⟨t, hg, ha, hl⟩ | ⟨t, hg, -, hl⟩ | ⟨t, hg, hl⟩ <;> rw [hl] at hpar' ⊢ <;> rw [hg] at hk'
  · refine ⟨hpar', ⟨hk'.cfg, hk'.latches, hk'.mem⟩, fun hinv _ => ?_⟩
    obtain ⟨-, -, -, ⟨-, ht⟩ | ⟨hst, -⟩⟩ := sampleStep_goes (hs hinv) hg
    · exact ht
    · simp [hst] at ha
  · exact ⟨hpar', hk'.endBody, fun _ he => by simp at he⟩
  · exact ⟨hpar', hk', fun _ he => by simpa [he, Engine.Ended] using sampleStep_ended hg⟩

theorem OfRowLoop.continueStep {s u : State} (h : OfRowLoop s u) : OfRowLoop s (continueStep u) := by
  cases he : u.engine with
  | sampling =>
    rw [continueStep_sampling he]
    exact loopStep_ofRowLoop h.par h.keeps fun hinv => h.sound hinv he
  | completing c =>
    rw [continueStep_completing he]
    exact ⟨h.par, h.keeps.complete, fun _ hc => by simp at hc⟩
  | idle => rwa [continueStep_idle he]
  | accepted w => simpa [Machine.continueStep, he] using h
  | hung => rwa [continueStep_hung he]

theorem OfRowLoop.continueFor {s u : State} (h : OfRowLoop s u) (n : Nat) : OfRowLoop s (continueFor n u) :=
  continueFor_keeps (P := OfRowLoop s) (fun _ => OfRowLoop.continueStep) n h

/-- Whether the loop goes on or has ended, only the engine's progress changes (R168, R170). -/
theorem loopOrEnd_state (s : State) : ∃ e, loopOrEnd s = { s with engine := e } := by
  unfold loopOrEnd
  split <;> exact ⟨_, rfl⟩

/-- The loop of a row begins in the row, with the registers of the setup. -/
theorem OfRowLoop.start (s : State) : OfRowLoop s (loopOrEnd s) := by
  obtain ⟨e, he⟩ := loopOrEnd_state s
  rw [he]
  exact ⟨rfl, .of_eq rfl rfl rfl, fun hinv _ => hinv⟩

/-! ### ROW_FINISH and ROW_RUN -/

/-- ROW_FINISH runs the loop of an active row, and without one changes nothing that a frame speaks of (R168). -/
theorem exec_rowFinish_cases {s t : State} (h : exec .rowFinish s = .next t) :
    (s.status.rowActive = true ∧ OfRowLoop s t) ∨ (s.status.rowActive = false ∧ KeepsRow (fun _ => False) s t) := by
  rw [exec_eq_continueFor, beginInstr] at h
  cases h
  rcases beginRowFinish_cases s with ⟨ha, hb⟩ | ⟨ha, hb⟩ <;> rw [hb]
  · exact .inl ⟨ha, (loopStep_ofRowLoop rfl (.of_eq rfl rfl rfl) id).continueFor _⟩
  · exact .inr ⟨ha, KeepsRow.continueFor_ended (s := s) (t := s.raiseError .noRow) (.of_eq rfl rfl rfl)
      (.inl ⟨none, rfl⟩) _⟩

/-- Settles O49: the loop stays in its row; without an active row nothing but STATUS changes. -/
theorem rowFinishFrame : Obligations.RowFinishFrame := by
  intro s t h
  have hf := exec_frame h
  rcases exec_rowFinish_cases h with ⟨hact, hloop⟩ | ⟨-, hk⟩
  · have hk := hloop.keeps
    exact ⟨hf.par, hk.cfg, hf.platform, hf.host, hf.reply, hf.ovr, hk.latches,
      fun hinv a ha => hk.mem a fun hx => not_inSpan.2 ha (hx (hinv hact))⟩
  · exact ⟨hf.par, hk.cfg, hf.platform, hf.host, hf.reply, hf.ovr, hk.latches, fun _ a _ => hk.mem a id⟩

/-- A row that ROW_RUN has set up is sound (R70, R160, R162). -/
theorem State.rowStarted_inv {s : State} {y : Nat} (hp : s.par.wf) (hc : rowChecks s.par s.cfg y = none) :
    RowInv (s.rowStarted y).par (s.rowStarted y).row :=
  (latchRow_inv hp hc s.row).withSrcByte _

/-- ROW_RUN ends in its loop, or after a body that left memory alone. -/
theorem exec_rowRun_cases {s t : State} {y : Nat} (h : exec (.rowRun y) s = .next t) :
    (rowChecks s.par s.cfg y = none ∧ OfRowLoop (s.rowStarted y) t) ∨ (t.cfg = s.cfg ∧ t.mem = s.mem) := by
  rw [exec_eq_continueFor, beginInstr, beginRowRun_eq_finish] at h
  cases h
  obtain ⟨hcfg, hmem⟩ := rowSetupBody_cfg_mem y s
  cases hb : rowSetupBody y s with
  | goes u =>
    rcases rowSetupBody_cases y s with ⟨code, -, he⟩ | ⟨hc, ⟨-, he⟩ | ⟨-, he⟩ | ⟨-, he⟩⟩ <;> rw [he] at hb <;> cases hb
    exact .inl ⟨hc, (OfRowLoop.start (s.rowStarted y)).continueFor _⟩
  | ends u =>
    rw [hb] at hcfg hmem
    right
    rcases continueFor_ended (stepBound s.par (.rowRun y) - 1) (rowSetupBody_ended hb) with hc | hc <;>
      rw [Body.finish, hc] <;> exact ⟨hcfg, hmem⟩

/-- ROW_RUN writes no byte outside its destination row (R81, R170). -/
theorem exec_rowRun_mem {s t : State} {y : Nat} (hp : s.par.wf) (h : exec (.rowRun y) s = .next t) {a : Word}
    (ha : ¬InSpan (Spec.dstRow s.par s.cfg y) (rowSize s.par) a) : t.mem.read a = s.mem.read a := by
  rcases exec_rowRun_cases h with ⟨hc, hloop⟩ | ⟨-, hmem⟩
  · exact hloop.keeps.mem a fun hx => ha (hx (State.rowStarted_inv hp hc))
  · rw [hmem]

/-- Settles O48: the frame of every command, and the loop stays in the row that was set up. -/
theorem rowRunFrame : Obligations.RowRunFrame := by
  intro s t y h
  have hf := exec_frame h
  have hcfg : t.cfg = s.cfg := by
    rcases exec_rowRun_cases h with ⟨-, hloop⟩ | ⟨hcfg, -⟩
    · exact hloop.keeps.cfg
    · exact hcfg
  exact ⟨hf.par, hcfg, hf.platform, hf.host, hf.reply, hf.ovr, fun hp a ha => exec_rowRun_mem hp h (not_inSpan.2 ha)⟩

end Sys2Proof.Machine
end

section
/-! PROOF. The host's accesses to memory while a command runs: a write stands or keeps the running command's store, and
a read sees every stored unit whole. -/

namespace Sys2Proof.Machine

/-! ### Addresses -/

/-- The bytes from an address are distinct up to the whole address space. -/
theorem add_ofNat_ne {a : Word} {j k : Nat} (hj : j < 2 ^ 32) (hk : k < 2 ^ 32) (h : j ≠ k) :
    a + BitVec.ofNat 32 j ≠ a + BitVec.ofNat 32 k := by
  intro he
  have := congrArg BitVec.toNat ((BitVec.add_right_inj a).1 he)
  rw [ofNat_toNat_of_lt hj, ofNat_toNat_of_lt hk] at this
  exact h this

theorem RowRegs.unitBytes_le (r : RowRegs) : r.unitBytes ≤ 4 := by
  unfold RowRegs.unitBytes
  cases r.lUnit32 <;> decide

/-! ### Host writes -/

theorem State.hostWriteByte_state (s : State) (a : Word) (v : Byte) :
    s.hostWriteByte a v = { s with
      mem := (s.hostWriteByte a v).mem
      raced := (s.hostWriteByte a v).raced
      draws := (s.hostWriteByte a v).draws } := by
  unfold State.hostWriteByte
  split
  · dsimp only; split <;> rfl
  · rfl

/-- A host write of memory changes memory, what is raced, and the free values that are left. -/
theorem State.hostMemWrite_state (s : State) (a : Word) (vs : List Byte) :
    s.hostMemWrite a vs = { s with
      mem := (s.hostMemWrite a vs).mem
      raced := (s.hostMemWrite a vs).raced
      draws := (s.hostMemWrite a vs).draws } := by
  induction vs generalizing s a with
  | nil => rfl
  | cons v vs ih =>
    rw [State.hostMemWrite, ih, s.hostWriteByte_state a v]

/-- While BUSY = 0 a host write is performed as it is. -/
theorem State.hostMemWrite_idle {s : State} (hb : s.status.busy = false) (a : Word) (vs : List Byte) :
    s.hostMemWrite a vs = { s with mem := s.mem.writeList a vs } := by
  induction vs generalizing s a with
  | nil => rfl
  | cons v vs ih =>
    have hbyte : s.hostWriteByte a v = { s with mem := s.mem.write a v } := by
      rw [State.hostWriteByte, if_neg (by simp [hb])]
    rw [State.hostMemWrite, hbyte, ih (by exact hb)]
    rfl

theorem State.hostMemWrite_read_ne (s : State) (a b : Word) (vs : List Byte)
    (h : ∀ k < vs.length, b ≠ a + BitVec.ofNat 32 k) : (s.hostMemWrite a vs).mem.read b = s.mem.read b := by
  induction vs generalizing s a with
  | nil => rfl
  | cons v vs ih =>
    rw [State.hostMemWrite, ih]
    · exact State.hostWriteByte_read_ne s v (by simpa using h 0 (by simp))
    · intro k hk
      rw [add_one_add_ofNat]
      exact h (k + 1) (by simpa using hk)

theorem State.hostWriteByte_engineByte (s : State) (a : Word) (v : Byte) (b : Word) :
    (s.hostWriteByte a v).engineByte b = s.engineByte b := by
  rw [State.engineByte, State.hostWriteByte_stored, State.engineByte]

/-- A byte reads back as written, or as the running command's store gave it (R240). -/
theorem State.hostWriteByte_read_same {s : State} (h : s.mem.wf) (a : Word) (v : Byte) :
    (s.hostWriteByte a v).mem.read a = v ∨
      (s.status.busy = true ∧ s.engineByte a = some ((s.hostWriteByte a v).mem.read a)) := by
  rcases s.hostWriteByte_mem a v with hm | ⟨e, hb, he, hm⟩ <;> rw [hm, Memory.read_write_same h]
  · exact .inl rfl
  · exact .inr ⟨hb, he⟩

/-- Every byte of a host write reads back as written, or as the running command's store gave it (R240). -/
theorem State.hostMemWrite_read {s : State} (h : s.mem.wf) (a : Word) {vs : List Byte} (hl : vs.length ≤ 2 ^ 32)
    {k : Nat} (hk : k < vs.length) :
    some ((s.hostMemWrite a vs).mem.read (a + BitVec.ofNat 32 k)) = vs[k]? ∨
      (s.status.busy = true ∧ s.engineByte (a + BitVec.ofNat 32 k) =
        some ((s.hostMemWrite a vs).mem.read (a + BitVec.ofNat 32 k))) := by
  induction vs generalizing s a k with
  | nil => simp at hk
  | cons v vs ih =>
    rw [List.length_cons] at hl hk
    rw [State.hostMemWrite]
    cases k with
    | zero =>
      have hrest : ∀ k < vs.length, a ≠ a + 1 + BitVec.ofNat 32 k := fun k hk => by
        rw [add_one_add_ofNat]
        simpa using add_ofNat_ne (a := a) (j := 0) (k := k + 1) (by omega) (by omega) (by omega)
      rw [BitVec.add_zero, State.hostMemWrite_read_ne _ _ _ _ hrest, List.getElem?_cons_zero, Option.some_inj]
      exact State.hostWriteByte_read_same h a v
    | succ k =>
      have := ih (State.hostWriteByte_mem_wf h a v) (a + 1) (by omega) (k := k) (by omega)
      rwa [add_one_add_ofNat, State.hostWriteByte_status, State.hostWriteByte_engineByte] at this

theorem State.hostWriteByte_raced {s : State} (hb : s.status.busy = true) (a : Word) (v : Byte) :
    (s.hostWriteByte a v).raced = (a.toNat, s.mem.read a) :: s.raced := by
  rw [State.hostWriteByte, if_pos hb]
  dsimp only
  split <;> rfl

/-- While BUSY = 1 a host write is remembered with the byte before it, and nothing remembered is lost (log 8). -/
theorem State.hostMemWrite_raced {s : State} (hb : s.status.busy = true) (a : Word) {vs : List Byte}
    (hl : vs.length ≤ 2 ^ 32) :
    (∀ c ∈ s.raced, c ∈ (s.hostMemWrite a vs).raced) ∧
      ∀ k < vs.length,
        ((a + BitVec.ofNat 32 k).toNat, s.mem.read (a + BitVec.ofNat 32 k)) ∈ (s.hostMemWrite a vs).raced := by
  induction vs generalizing s a with
  | nil => exact ⟨fun c hc => hc, fun k hk => by simp at hk⟩
  | cons v vs ih =>
    rw [List.length_cons] at hl
    obtain ⟨hkept, hnew⟩ := ih (s := s.hostWriteByte a v) (by rwa [State.hostWriteByte_status]) (a + 1) (by omega)
    rw [State.hostWriteByte_raced hb] at hkept
    rw [State.hostMemWrite]
    refine ⟨fun c hc => hkept c (List.mem_cons_of_mem _ hc), fun k hk => ?_⟩
    cases k with
    | zero => simpa using hkept _ (List.mem_cons_self ..)
    | succ k =>
      have hne : a + BitVec.ofNat 32 (k + 1) ≠ a := by
        simpa using add_ofNat_ne (a := a) (j := k + 1) (k := 0) (by simp at hk; omega) (by omega) (by omega)
      have := hnew k (by simpa using hk)
      rwa [add_one_add_ofNat, State.hostWriteByte_read_ne s v hne] at this

/-- A byte of a stored unit, by its place in the unit. -/
theorem State.engineByte_unit {s : State} {a : Word} {e : Byte} (h : s.engineByte a = some e) :
    ∃ u ∈ s.stored, ∃ j < u.new.length, a = u.addr + BitVec.ofNat 32 j ∧ some e = u.new[j]? := by
  obtain ⟨u, hu, hj, he⟩ := State.engineByte_some h
  refine ⟨u, hu, (a - u.addr).toNat, hj, ?_, he.symm⟩
  rw [BitVec.ofNat_toNat, BitVec.setWidth_eq, BitVec.add_comm, BitVec.sub_add_cancel]

/-- Settles O59: byte by byte along the write, which the host step makes at once. -/
theorem hostWritesStandOrRace : Obligations.HostWritesStandOrRace := by
  intro s a vs rest hwf hl hhost
  refine ⟨_, step_due (by simp) hhost, ?_, fun hb => ?_, fun b hne => ?_, fun k hk => ⟨?_, fun hb => ?_⟩⟩
  · rw [hostStep, State.hostMemWrite_state]
  · rw [hostStep, State.hostMemWrite_idle (by exact hb)]
    exact ⟨rfl, rfl, rfl⟩
  · exact State.hostMemWrite_read_ne _ _ _ _ hne
  · rcases State.hostMemWrite_read (s := { s with host := rest }) hwf a hl hk with h | ⟨hb, h⟩
    · exact .inl h
    · exact .inr ⟨hb, State.engineByte_unit h⟩
  · obtain ⟨hkept, hnew⟩ := State.hostMemWrite_raced (s := { s with host := rest }) hb a hl
    exact ⟨hnew k hk, hkept⟩

/-! ### Host reads -/

/-- Two units of one row have no byte in common (R61, R81). -/
theorem unit_bytes_ne {p : Params} {b : Bool} (base : Word) {i i' j j' : Nat} (hi : i < numUnits p b)
    (hi' : i' < numUnits p b) (hj : j < unitBytes b) (hj' : j' < unitBytes b) (hne : i ≠ i') :
    base + BitVec.ofNat 32 (i * unitBytes b) + BitVec.ofNat 32 j ≠
      base + BitVec.ofNat 32 (i' * unitBytes b) + BitVec.ofNat 32 j' := by
  have hrow : ∀ {i j}, i < numUnits p b → j < unitBytes b → i * unitBytes b + j < 2 ^ 32 := fun {i j} hi hj => by
    have hlast : (i + 1) * unitBytes b ≤ numUnits p b * unitBytes b := Nat.mul_le_mul_right _ hi
    have := rowSize_le p
    rw [numUnits_mul_unitBytes, Nat.succ_mul] at hlast
    omega
  rw [BitVec.add_assoc, BitVec.add_assoc, ← BitVec.ofNat_add, ← BitVec.ofNat_add]
  refine add_ofNat_ne (hrow hi hj) (hrow hi' hj') fun h => hne ?_
  have := congrArg (· / unitBytes b) h
  simpa only [Nat.mul_add_div (Nat.zero_lt_of_lt hj), Nat.mul_comm _ (unitBytes b), Nat.div_eq_of_lt hj,
    Nat.div_eq_of_lt hj', Nat.add_zero] using this

theorem StoredUnit.view_read_outside (u : StoredUnit) (m : Memory) (d : Nat) {x : Word}
    (hlen : u.old.length = u.new.length) (hx : ∀ j < u.new.length, x ≠ u.addr + BitVec.ofNat 32 j) :
    (u.view m d).read x = m.read x := by
  rcases u.view_cases m d with h | h | h <;> rw [h]
  · exact Memory.read_writeList_of_ne _ _ _ _ (by rwa [hlen])
  · exact Memory.read_writeList_of_ne _ _ _ _ hx

theorem StoredUnit.view_wf {m : Memory} (h : m.wf) (u : StoredUnit) (d : Nat) : (u.view m d).wf := by
  rcases u.view_cases m d with hv | hv | hv <;> rw [hv]
  · exact h
  · exact Memory.writeList_wf h _ _
  · exact Memory.writeList_wf h _ _

/-- What an access sees outside the stored units is what memory holds. -/
theorem hostView_read_outside (m : Memory) (d : Nat) (a : Word) (n : Nat) {us : List StoredUnit} {x : Word}
    (hlen : ∀ u ∈ us, u.old.length = u.new.length)
    (hx : ∀ u ∈ us, ∀ j < u.new.length, x ≠ u.addr + BitVec.ofNat 32 j) :
    (hostView m d a n us).1.read x = m.read x := by
  induction us generalizing m d with
  | nil => rfl
  | cons u us ih =>
    obtain ⟨hu, hus⟩ := List.forall_mem_cons.1 hlen
    obtain ⟨hxu, hxus⟩ := List.forall_mem_cons.1 hx
    rw [hostView]
    split
    · rw [ih _ _ hus hxus, u.view_read_outside m d hu hxu]
    · exact ih _ _ hus hxus

/-- Memory `v` shows the `b` bytes at `addr`, whole, as memory `m` holds them, or as the old or the new bytes of one of
the units `us` at `addr` (R87, R91). -/
def SeesUnit (m v : Memory) (addr : Word) (b : Nat) (us : List StoredUnit) : Prop :=
  (∀ j < b, v.read (addr + BitVec.ofNat 32 j) = m.read (addr + BitVec.ofNat 32 j)) ∨
    ∃ u ∈ us, u.addr = addr ∧ ∃ old : Bool, ∀ j < b,
      some (v.read (addr + BitVec.ofNat 32 j)) = if old then u.old[j]? else u.new[j]?

theorem SeesUnit.mono {m v : Memory} {addr : Word} {b : Nat} {us ws : List StoredUnit}
    (h : SeesUnit m v addr b us) (hsub : ∀ u ∈ us, u ∈ ws) : SeesUnit m v addr b ws :=
  h.imp_right fun ⟨u, hu, h⟩ => ⟨u, hsub u hu, h⟩

/-- A later choice decides where it shows a unit of its own. -/
theorem SeesUnit.trans {m v w : Memory} {addr : Word} {b : Nat} {us : List StoredUnit} (h : SeesUnit m v addr b us)
    (k : SeesUnit v w addr b us) : SeesUnit m w addr b us := by
  rcases k with k | k
  · rcases h with h | ⟨u, hu, ha, old, h⟩
    · exact .inl fun j hj => (k j hj).trans (h j hj)
    · exact .inr ⟨u, hu, ha, old, fun j hj => by rw [k j hj, h j hj]⟩
  · exact .inr k

/-- One unit's choice, for that unit's own bytes. -/
theorem StoredUnit.view_seesUnit {m : Memory} (h : m.wf) (u : StoredUnit) (d : Nat) {b : Nat} (hb : b ≤ 2 ^ 32)
    (hold : u.old.length = b) (hnew : u.new.length = b) : SeesUnit m (u.view m d) u.addr b [u] := by
  rcases u.view_cases m d with hv | hv | hv <;> rw [hv]
  · exact .inl fun _ _ => rfl
  · exact .inr ⟨u, List.mem_singleton_self u, rfl, true, fun j hj =>
      Memory.read_writeList_same h u.addr (by omega) (by omega)⟩
  · exact .inr ⟨u, List.mem_singleton_self u, rfl, false, fun j hj =>
      Memory.read_writeList_same h u.addr (by omega) (by omega)⟩

/-- An access sees each unit whole, where the stored units are the unit itself or have no byte in common with it. -/
theorem hostView_seesUnit {m : Memory} (h : m.wf) (d : Nat) (a : Word) (n : Nat) {addr : Word} {b : Nat}
    (hb : b ≤ 2 ^ 32) {us : List StoredUnit}
    (hlen : ∀ u ∈ us, u.old.length = b ∧ u.new.length = b)
    (hus : ∀ u ∈ us, u.addr = addr ∨ ∀ j < b, ∀ k < b, addr + BitVec.ofNat 32 j ≠ u.addr + BitVec.ofNat 32 k) :
    SeesUnit m (hostView m d a n us).1 addr b us := by
  induction us generalizing m d with
  | nil => exact .inl fun _ _ => rfl
  | cons u us ih =>
    obtain ⟨⟨hold, hnew⟩, hlens⟩ := List.forall_mem_cons.1 hlen
    obtain ⟨hu, hrest⟩ := List.forall_mem_cons.1 hus
    have htail : ∀ v ∈ us, v ∈ u :: us := fun v hv => List.mem_cons_of_mem u hv
    rw [hostView]
    split
    · refine SeesUnit.trans ?_ ((ih (u.view_wf h d) (d + 2) hlens hrest).mono htail)
      rcases hu with rfl | hu
      · exact (u.view_seesUnit h d hb hold hnew).mono (by simp)
      · exact .inl fun j hj => u.view_read_outside m d (by omega) (by rw [hnew]; exact hu j hj)
    · exact (ih h d hlens hrest).mono htail

theorem State.hostMemRead_idle {s : State} (hb : s.status.busy = false) (a : Word) (n : Nat) :
    s.hostMemRead a n = (s.mem.readList a n, s) := by
  rw [State.hostMemRead, if_neg (by simp [hb])]

/-- What a host read of memory returns: the bytes of what the access sees. -/
theorem State.hostMemRead_bytes (s : State) (a : Word) (n : Nat) :
    ∃ m : Memory, (s.hostMemRead a n).1 = m.readList a n ∧
      (m = s.mem ∨ m = (hostView s.mem s.draws a n s.stored).1) := by
  unfold State.hostMemRead
  split
  · exact ⟨_, rfl, .inr rfl⟩
  · exact ⟨_, rfl, .inl rfl⟩

/-- A unit the running command has stored is a given unit of the row, or has no byte in common with it (R81). -/
theorem Inv.stored_unit {s : State} (h : Inv s) {i : Nat} (hi : i < numUnits s.par s.row.lUnit32) :
    ∀ u ∈ s.stored, u.addr = Spec.unitAt s.row i ∨ ∀ j < s.row.unitBytes, ∀ k < s.row.unitBytes,
      Spec.unitAt s.row i + BitVec.ofNat 32 j ≠ u.addr + BitVec.ofNat 32 k := by
  intro u hu
  obtain ⟨-, -, i', hi', haddr⟩ := h.stored u hu
  by_cases hii : i = i'
  · subst hii
    exact .inl haddr
  · right
    intro j hj k hk
    rw [haddr]
    exact unit_bytes_ne s.row.lDstRow hi hi' hj hk hii

/-- Settles O60: the access sees outside the stored units what memory holds, and each unit of the row whole. -/
theorem hostReadsSeeOldOrNewUnits : Obligations.HostReadsSeeOldOrNewUnits := by
  intro s a n rest hinv hhost
  obtain ⟨d, hd⟩ := State.hostMemRead_state { s with host := rest } a n
  obtain ⟨v, hv, hsees⟩ := State.hostMemRead_bytes { s with host := rest } a n
  have hlen : ∀ u ∈ s.stored, u.old.length = s.row.unitBytes ∧ u.new.length = s.row.unitBytes := fun u hu =>
    let ⟨hold, hnew, _⟩ := hinv.stored u hu
    ⟨hold, hnew⟩
  have hbyte : ∀ k < n, (v.readList a n)[k]? = some (v.read (a + BitVec.ofNat 32 k)) := fun k hk =>
    Memory.readList_getElem v a hk
  refine ⟨d, v.readList a n, ?_, by simp, fun hb => ?_, fun k hk hout => ?_, fun i hi => ?_⟩
  · rw [step_due (by simp) hhost, hostStep, hd, hv]
  · rw [State.hostMemRead_idle (by exact hb)] at hd hv
    exact ⟨(congrArg State.draws hd).symm, hv.symm⟩
  · rw [hbyte k hk]
    rcases hsees with rfl | rfl
    · rfl
    · rw [hostView_read_outside _ _ _ _ (fun u hu => (hlen u hu).1.trans (hlen u hu).2.symm) hout]
  · have hunit : SeesUnit s.mem v (Spec.unitAt s.row i) s.row.unitBytes s.stored := by
      rcases hsees with rfl | rfl
      · exact .inl fun _ _ => rfl
      · exact hostView_seesUnit hinv.memory _ _ _ (s.row.unitBytes_le.trans (by decide)) hlen (hinv.stored_unit hi)
    refine hunit.imp (fun h k hk j hj ha => ?_) fun ⟨u, hu, haddr, old, h⟩ =>
      ⟨u, hu, haddr, old, fun k hk j hj ha => ?_⟩
    · rw [hbyte k hk, ha, h j hj]
    · rw [hbyte k hk, ha, h j hj]

end Sys2Proof.Machine
end

section
/-! PROOF. The position law of a row's samples (R171), for both unit widths, and what follows for the bytes ROW_RUN
leaves. -/

namespace Sys2Proof.Machine

/-! ### The cursor as one number -/

/-- The cursor's place in its source row, in units of 1/65536 pixel. -/
def RowRegs.place (r : RowRegs) : Nat := 65536 * (8 * r.curByte.toNat + r.curBit.toNat) + r.curFrac.toNat

/-- The places of a source row, which the cursor wraps modulo (R165). -/
def RowRegs.places (r : RowRegs) : Nat := 65536 * (8 * r.lStride.toNat)

/-- The registers' cursor stands at `x`, up to the wrap, with the byte it stands in loaded from `m`. -/
structure AtPlace (m : Memory) (r : RowRegs) (x : Nat) : Prop where
  place : r.place ≡ x [MOD r.places]
  loaded : r.srcByte = m.read r.srcAddr

/-- Step 4a moves whole pixels from CUR_FRAC into the cursor, so the place stays, up to the wrap (R165). -/
theorem RowRegs.place_moved (r : RowRegs) (h : r.curByte.toNat < r.lStride.toNat) :
    r.moved.place ≡ r.place [MOD r.places] := by
  have hs := r.lStride.isLt
  have hplace : r.place = 65536 * (8 * r.curByte.toNat + r.advance) + r.curFrac.toNat % 65536 := by
    unfold RowRegs.place RowRegs.advance
    omega
  have hfrac : r.moved.curFrac.toNat = r.curFrac.toNat % 65536 := by
    rw [RowRegs.moved_curFrac, ofNat_toNat_of_lt (by omega)]
  have hcur : 8 * r.moved.curByte.toNat + r.moved.curBit.toNat ≡
      8 * r.curByte.toNat + r.advance [MOD 8 * r.lStride.toNat] := by
    unfold RowRegs.moved
    split
    · rename_i hlt
      rw [BitVec.toNat_ofNat, Nat.mod_eq_of_lt hlt]
    · have hlt := Nat.mod_lt (r.curByte.toNat + r.advance / 8) (Nat.zero_lt_of_lt h)
      rw [BitVec.toNat_ofNat, BitVec.toNat_ofNat, Nat.mod_eq_of_lt (b := 2 ^ 16) (by omega),
        Nat.mod_eq_of_lt (b := 2 ^ 3) (by omega)]
      have hsum : 8 * r.curByte.toNat + r.advance = 8 * (r.curByte.toNat + r.advance / 8) + r.advance % 8 := by omega
      rw [hsum]
      exact (Nat.ModEq.mul_left' 8 (Nat.mod_modEq _ _)).add_right _
  rw [hplace, RowRegs.place, hfrac]
  exact (Nat.ModEq.mul_left' 65536 hcur).add_right _

/-- A byte carry is what moves CUR_BYTE (R167). -/
theorem RowRegs.moved_curByte {r : RowRegs} (h : r.advance < 8) : r.moved.curByte = r.curByte := by
  rw [RowRegs.moved, if_pos h]

theorem RowRegs.srcAddr_eq (r : RowRegs) : r.srcAddr = r.lSrcRow + BitVec.ofNat 32 r.curByte.toNat := by
  rw [RowRegs.srcAddr, BitVec.ofNat_toNat]

/-- Memory `m` and the state agree on the source row. -/
abbrev State.SourceIn (s : State) (m : Memory) : Prop :=
  ∀ k < s.row.lStride.toNat, s.mem.read (s.row.lSrcRow + BitVec.ofNat 32 k) = m.read (s.row.lSrcRow + BitVec.ofNat 32 k)

/-- Step 4a keeps the place, and reloads where it leaves the byte (R165). -/
theorem advanceCursor_atPlace {s a : State} {m : Memory} {x : Nat} (hinv : RowInv s.par s.row) (hraced : s.raced = [])
    (hsrc : s.SourceIn m) (h : AtPlace m s.row x) (hg : advanceCursor s = .goes a) : AtPlace m a.row x := by
  have hplace : s.row.moved.place ≡ x [MOD s.row.moved.places] := by
    rw [RowRegs.places, RowRegs.moved_lStride]
    exact (s.row.place_moved hinv.curByte).trans h.place
  rcases advanceCursor_cases s with ⟨-, he⟩ | ⟨-, hlt, he⟩ | ⟨-, -, he⟩ <;> rw [he] at hg
  · cases hg
    exact h
  · cases hg
    refine ⟨hplace, ?_⟩
    simp only [RowRegs.srcAddr, RowRegs.moved_srcByte, RowRegs.moved_lSrcRow, RowRegs.moved_curByte hlt]
    exact h.loaded
  · rcases loadSrcByte_cases { s with row := s.row.moved } with ⟨-, hl⟩ | ⟨-, hl⟩ | ⟨-, hl⟩ <;>
      rw [hl] at hg <;> cases hg
    refine ⟨hplace, ?_⟩
    change State.seen { s with row := s.row.moved } s.row.moved.srcAddr = m.read s.row.moved.srcAddr
    rw [State.seen_of_not_raced (by exact hraced), RowRegs.srcAddr_eq, RowRegs.moved_lSrcRow]
    exact hsrc _ (RowRegs.moved_curByte_lt hinv.curByte)

/-- Step 4b reads the source pixel of the cursor's place (R165, R171). -/
theorem AtPlace.srcBit {p : Params} {m : Memory} {r : RowRegs} {x : Nat} (h : AtPlace m r x) (hinv : RowInv p r)
    (hfrac : r.curFrac.toNat < 65536) :
    r.srcBit = Spec.pixel m r.lSrcRow (x / 65536 % (8 * r.lStride.toNat)) := by
  have hbit := r.curBit.isLt
  have hbyte := hinv.curByte
  have hpos : x / 65536 % (8 * r.lStride.toNat) = 8 * r.curByte.toNat + r.curBit.toNat := by
    have hlt : r.place < r.places := by
      unfold RowRegs.place RowRegs.places
      omega
    have hx : x % r.places = r.place := by
      rw [← h.place, Nat.mod_eq_of_lt hlt]
    rw [← Nat.mod_mul_right_div_self]
    rw [RowRegs.places] at hx
    rw [hx, RowRegs.place]
    omega
  have hdiv : (8 * r.curByte.toNat + r.curBit.toNat) / 8 = r.curByte.toNat := by omega
  have hmod : (8 * r.curByte.toNat + r.curBit.toNat) % 8 = r.curBit.toNat := by omega
  rw [hpos, Spec.pixel, hdiv, hmod, ← RowRegs.srcAddr_eq, ← h.loaded, RowRegs.srcBit]

/-! ### The packer -/

/-- The samples `f` as the packer holds them: those of the unit being assembled in ACC, those of stored units in memory
(R180, R182). -/
structure Packed (f : Nat → Bool) (r : RowRegs) (m : Memory) : Prop where
  held : ∀ k < r.wCount.toNat, r.acc.getLsbD (r.unitBits - 1 - k) = f (r.unitIdx.toNat * r.unitBits + k)
  written : ∀ j < r.unitIdx.toNat * r.unitBits, Spec.pixel m r.lDstRow j = f j

theorem RowRegs.unitBits_eq (r : RowRegs) : r.unitBits = 8 * r.unitBytes := by
  unfold RowRegs.unitBits RowRegs.unitBytes
  cases r.lUnit32 <;> rfl

theorem RowRegs.unitBits_le (r : RowRegs) : r.unitBits ≤ 32 := by
  have := r.unitBytes_le
  rw [r.unitBits_eq]
  omega

theorem getLsbD_ofNat_boolToNat (b : Bool) (i : Nat) :
    (BitVec.ofNat 32 b.toNat).getLsbD i = (decide (i = 0) && b) := by
  cases b
  · simp
  · simp [BitVec.getLsbD_one]

/-- An appended bit goes to its position, which was 0, and the bits held keep theirs (R180, R181). -/
theorem RowInv.append_getLsbD {p : Params} {r : RowRegs} (h : RowInv p r) (bit : Bool) {k : Nat}
    (hk : k ≤ r.wCount.toNat) : (r.append bit).acc.getLsbD (r.unitBits - 1 - k) =
      if k = r.wCount.toNat then bit else r.acc.getLsbD (r.unitBits - 1 - k) := by
  have hw := h.wCount
  have hN := r.unitBits_le
  have hlow : r.acc.getLsbD (r.unitBits - 1 - r.wCount.toNat) = false := by
    have := congrArg (Nat.testBit · (r.unitBits - 1 - r.wCount.toNat)) h.accLow
    simp only [Nat.testBit_mod_two_pow, Nat.zero_testBit] at this
    rwa [decide_eq_true (by omega), Bool.true_and, BitVec.testBit_toNat] at this
  rw [RowRegs.append_acc, BitVec.getLsbD_or, BitVec.getLsbD_shiftLeft, getLsbD_ofNat_boolToNat,
    decide_eq_true (p := r.unitBits - 1 - k < 32) (by omega)]
  by_cases hkw : k = r.wCount.toNat
  · simp [hkw, hlow]
  · have hne : r.unitBits - 1 - k - (r.unitBits - 1 - r.wCount.toNat) ≠ 0 := by omega
    simp [hkw, hne]

/-- The bits of ACC are the pixels of the unit's bytes, the leftmost first (R82, R182, R183). -/
theorem RowRegs.unitData_pixel (r : RowRegs) {k : Nat} (hk : k < r.unitBits) :
    ∃ v, r.unitData[k / 8]? = some v ∧ v.getLsbD (7 - k % 8) = r.acc.getLsbD (r.unitBits - 1 - k) := by
  unfold RowRegs.unitBits at hk ⊢
  unfold RowRegs.unitData
  cases hu : r.lUnit32 <;> rw [hu] at hk
  · have hk8 : k < 8 := hk
    refine ⟨r.acc.extractLsb' 0 8, by simp [Nat.div_eq_of_lt hk8], ?_⟩
    rw [BitVec.getLsbD_extractLsb', decide_eq_true (by omega), Bool.true_and]
    congr 1
    change _ = 8 - 1 - k
    omega
  · have hk32 : k < 32 := hk
    have hbyte : k / 8 < 4 := by omega
    refine ⟨r.acc.extractLsb' (24 - 8 * (k / 8)) 8, ?_, ?_⟩
    · interval_cases k / 8 <;> rfl
    · rw [BitVec.getLsbD_extractLsb', decide_eq_true (by omega), Bool.true_and]
      congr 1
      change _ = 32 - 1 - k
      omega

/-- A sample that does not fill its unit is held in ACC (R181). -/
theorem Packed.append {f : Nat → Bool} {p : Params} {r : RowRegs} {m : Memory} (h : Packed f r m) (hinv : RowInv p r) :
    Packed f (r.append (f r.taken)) m := by
  refine ⟨fun k hk => ?_, h.written⟩
  rw [RowRegs.append_wCount, hinv.wCount_succ] at hk
  change (r.append (f r.taken)).acc.getLsbD (r.unitBits - 1 - k) = f (r.unitIdx.toNat * r.unitBits + k)
  rw [hinv.append_getLsbD _ (by omega)]
  split
  · rename_i hkw
    rw [hkw, RowRegs.taken]
  · exact h.held k (by omega)

/-- A full unit's bytes in memory show the samples that ACC held (R182). -/
theorem Packed.flush {f : Nat → Bool} {p : Params} {r : RowRegs} {m : Memory} (h : Packed f r m) (hwf : m.wf)
    (hidx : r.unitIdx.toNat < numUnits p r.lUnit32) (hfull : r.wCount.toNat = r.unitBits) :
    Packed f r.flushed (m.writeList r.unitAddr r.unitData) := by
  have hlen := r.unitData_length
  have hunits := numUnits_le p r.lUnit32
  have hbytes := r.unitBytes_le
  have hbits : r.unitIdx.toNat * r.unitBits = 8 * (r.unitIdx.toNat * r.unitBytes) := by
    rw [r.unitBits_eq, Nat.mul_left_comm]
  have hplace : r.unitIdx.toNat * r.unitBytes ≤ 8192 * 4 := Nat.mul_le_mul (by omega) hbytes
  refine ⟨fun k hk => by simp at hk, fun j hj => ?_⟩
  change j < (r.unitIdx + 1).toNat * r.unitBits at hj
  change Spec.pixel (m.writeList r.unitAddr r.unitData) r.lDstRow j = f j
  rw [BitVec.toNat_add_of_lt (by change r.unitIdx.toNat + 1 < 2 ^ 16; omega)] at hj
  change j < (r.unitIdx.toNat + 1) * r.unitBits at hj
  rw [Nat.succ_mul] at hj
  by_cases hold : j < r.unitIdx.toNat * r.unitBits
  · have houtside : ∀ k < r.unitData.length, r.lDstRow + BitVec.ofNat 32 (j / 8) ≠ r.unitAddr + BitVec.ofNat 32 k := by
      intro k hk
      rw [RowRegs.unitAddr, BitVec.add_assoc, ← BitVec.ofNat_add]
      exact add_ofNat_ne (by omega) (by omega) (by omega)
    rw [← h.written j hold, Spec.pixel, Memory.read_writeList_of_ne _ _ _ _ houtside, Spec.pixel]
  · obtain ⟨k, rfl⟩ := Nat.exists_eq_add_of_le (not_lt.1 hold)
    have hk : k < r.unitBits := by omega
    have hbits8 := r.unitBits_eq
    have hdiv : (r.unitIdx.toNat * r.unitBits + k) / 8 = r.unitIdx.toNat * r.unitBytes + k / 8 := by omega
    have hmod : (r.unitIdx.toNat * r.unitBits + k) % 8 = k % 8 := by omega
    obtain ⟨v, hv, hpix⟩ := r.unitData_pixel hk
    have hread := Memory.read_writeList_same hwf r.unitAddr (vs := r.unitData) (k := k / 8) (by omega) (by omega)
    rw [hv, Option.some_inj] at hread
    rw [Spec.pixel, hdiv, hmod, BitVec.ofNat_add, ← BitVec.add_assoc]
    change ((m.writeList r.unitAddr r.unitData).read (r.unitAddr + BitVec.ofNat 32 (k / 8))).getLsbD (7 - k % 8) = _
    rw [hread, hpix, h.held k (by omega)]

/-- `PackBit` of the row's next sample, where it goes on (R181, R182). -/
theorem packBit_packed {f : Nat → Bool} {s t : State} (h : Packed f s.row s.mem) (hinv : RowInv s.par s.row)
    (hwf : s.mem.wf) (hraced : s.raced = []) (hg : packBit (f s.row.taken) s = .goes t) : Packed f t.row t.mem := by
  have happ := h.append hinv
  rcases packBit_cases (f s.row.taken) s with ⟨hfull, hp⟩ | ⟨-, hp⟩ <;> rw [hp] at hg
  · rcases flushUnit_cases { s with row := s.row.append (f s.row.taken) } with ⟨-, hl⟩ | ⟨-, hl⟩ | ⟨-, hl⟩ <;>
      rw [hl] at hg <;> cases hg
    rw [flushDone_row, flushDone_mem, State.storeBytes_of_not_raced (by exact hraced)]
    exact happ.flush hwf hinv.unitIdx hfull
  · cases hg
    exact happ

/-! ### A sample step -/

/-- The packer leaves the cursor alone (R181). -/
theorem packBit_cursor {bit : Bool} {s t : State} (hg : packBit bit s = .goes t) :
    t.row.curByte = s.row.curByte ∧ t.row.curBit = s.row.curBit ∧ t.row.curFrac = s.row.curFrac ∧
      t.row.srcByte = s.row.srcByte := by
  rcases packBit_cases bit s with ⟨-, hp⟩ | ⟨-, hp⟩ <;> rw [hp] at hg
  · rcases flushUnit_cases { s with row := s.row.append bit } with ⟨-, hl⟩ | ⟨-, hl⟩ | ⟨-, hl⟩ <;>
      rw [hl] at hg <;> cases hg
    rw [flushDone_row]
    exact ⟨rfl, rfl, rfl, rfl⟩
  · cases hg
    exact ⟨rfl, rfl, rfl, rfl⟩

/-- Step 4e moves the place by the scale (R148, R165); registers beside the cursor and the source row do not matter. -/
theorem AtPlace.addScale {p : Params} {m : Memory} {r q : RowRegs} {x : Nat} (h : AtPlace m r x) (hinv : RowInv p r)
    (hfrac : r.curFrac.toNat < 65536) (hbyte : q.curByte = r.curByte) (hbit : q.curBit = r.curBit)
    (hq : q.curFrac = r.curFrac + r.lScale) (hload : q.srcByte = r.srcByte) (hsrc : q.lSrcRow = r.lSrcRow)
    (hstride : q.lStride = r.lStride) : AtPlace m q (x + r.lScale.toNat) where
  place := by
    have hplace : q.place = r.place + r.lScale.toNat := by
      rw [RowRegs.place, RowRegs.place, hbyte, hbit, hq, hinv.curFrac_add hfrac, Nat.add_assoc]
    rw [hplace, RowRegs.places, hstride]
    exact h.place.add_right _
  loaded := by rw [hload, h.loaded, RowRegs.srcAddr, RowRegs.srcAddr, hsrc, hbyte]

theorem Packed.congr {f : Nat → Bool} {r q : RowRegs} {m : Memory} (h : Packed f r m) (hacc : q.acc = r.acc)
    (hw : q.wCount = r.wCount) (hidx : q.unitIdx = r.unitIdx) (hunit : q.lUnit32 = r.lUnit32)
    (hdst : q.lDstRow = r.lDstRow) : Packed f q m := by
  have hbits : q.unitBits = r.unitBits := by rw [RowRegs.unitBits, RowRegs.unitBits, hunit]
  refine ⟨?_, ?_⟩
  · rw [hacc, hw, hidx, hbits]
    exact h.held
  · rw [hidx, hbits, hdst]
    exact h.written

/-- Sample `j` of the row that starts with the registers `r`: the source pixel at the place `j` scales on (R171). -/
def RowRegs.sample (r : RowRegs) (m : Memory) (j : Nat) : Bool :=
  Spec.pixel m r.lSrcRow ((r.place + j * r.lScale.toNat) / 65536 % (8 * r.lStride.toNat))

/-- A sample step that goes on takes the sample of the cursor's place, packs it, and moves the place by the scale. -/
theorem sampleStep_takes {s t : State} {m : Memory} {x : Nat} {f : Nat → Bool} (hinv : RowInv s.par s.row)
    (hraced : s.raced = []) (hwf : s.mem.wf) (hsrc : s.SourceIn m) (hat : AtPlace m s.row x)
    (hf : f s.row.taken = Spec.pixel m s.row.lSrcRow (x / 65536 % (8 * s.row.lStride.toNat)))
    (hpacked : Packed f s.row s.mem) (hg : sampleStep s = .goes t) :
    AtPlace m t.row (x + s.row.lScale.toNat) ∧ Packed f t.row t.mem := by
  obtain ⟨a, b, hadv, hpack, rfl⟩ := sampleStep_eq_goes.1 hg
  have A := advanceCursor_goes hinv hadv
  have hata := advanceCursor_atPlace hinv hraced hsrc hat hadv
  have htaken : a.row.taken = s.row.taken := by
    simp only [RowRegs.taken, RowRegs.unitBits, A.unitIdx, A.wCount, A.same.lUnit32]
  have hbit : a.row.srcBit = f a.row.taken := by
    rw [hata.srcBit A.inv A.frac, htaken, hf, A.same.lSrcRow, A.same.lStride]
  have hpackeda : Packed f a.row a.mem := by
    rw [A.mem]
    exact hpacked.congr A.acc A.wCount A.unitIdx A.same.lUnit32 A.same.lDstRow
  obtain ⟨hsame, -⟩ := packBit_confined a.row.srcBit a
  rw [hpack, Body.state_goes] at hsame
  obtain ⟨hbyte, hcbit, hfrac, hload⟩ := packBit_cursor hpack
  rw [hbit] at hpack
  constructor
  · rw [← A.same.lScale]
    exact hata.addScale A.inv A.frac hbyte hcbit (by rw [addScale_row, hfrac, hsame.lScale]) hload hsame.lSrcRow
      hsame.lStride
  · exact (packBit_packed hpackeda A.inv (by rwa [A.mem]) (A.same.raced.trans hraced) hpack).congr rfl rfl rfl rfl rfl

/-! ### The loop -/

/-- A row that has been set up and whose accesses are all performed, with no race and its two rows apart (R171). -/
structure RowReady (s : State) : Prop where
  inv : RowInv s.par s.row
  served : s.RowServed s.row
  apart : RowsApart s.par s.row
  raced : s.raced = []
  wf : s.mem.wf
  taken : s.row.unitIdx = 0 ∧ s.row.wCount = 0
  loaded : s.row.srcByte = s.mem.read s.row.srcAddr

/-- The state `u` is reached in the loop of the row set up in `s`, and its samples so far follow the position law. -/
structure FollowsRow (s u : State) : Prop where
  row : OfRowLoop s u
  platform : u.platform = s.platform
  raced : u.raced = []
  wf : u.mem.wf
  cursor : u.engine = .sampling → AtPlace s.mem u.row (s.row.place + u.row.taken * s.row.lScale.toNat)
  packed : Packed (s.row.sample s.mem) u.row u.mem

/-- The platform performs the accesses of a row as long as it and the row's latches stay. -/
theorem State.RowServed.transfer {s u : State} (h : s.RowServed s.row) (hplatform : u.platform = s.platform)
    (hpar : u.par = s.par) (hl : Spec.SameLatches u.row s.row) : u.RowServed u.row := by
  obtain ⟨-, -, hsrc, hdst, hstride, hunit, -⟩ := hl
  obtain ⟨hread, hwrite⟩ := h
  have hbytes : u.row.unitBytes = s.row.unitBytes := by rw [RowRegs.unitBytes, RowRegs.unitBytes, hunit]
  refine ⟨fun k hk => ?_, fun i hi => ?_⟩
  · rw [busAnswer_congr hplatform, hsrc]
    exact hread k (hstride ▸ hk)
  · rw [busAnswer_congr hplatform, hdst, hbytes]
    exact hwrite i (by rwa [hpar, hunit] at hi)

/-- The source row keeps its bytes while its destination row, apart from it, is written. -/
theorem FollowsRow.sourceIn {s u : State} (h : FollowsRow s u) (hs : RowReady s) : u.SourceIn s.mem := by
  obtain ⟨-, -, hsrc, -, hstride, -⟩ := h.row.keeps.latches
  intro k hk
  rw [hsrc]
  rw [hstride] at hk
  refine h.row.keeps.mem _ fun hx => ?_
  obtain ⟨j, hj, he⟩ := hx hs.inv
  exact hs.apart j hj k hk he.symm

theorem FollowsRow.loopStep {s u : State} (h : FollowsRow s u) (hs : RowReady s) (he : u.engine = .sampling) :
    FollowsRow s (loopStep u) := by
  have hinv := h.row.sound hs.inv he
  obtain ⟨-, -, hsrc, -, hstride, -, hscale⟩ := h.row.keeps.latches
  obtain ⟨t, hg⟩ := sampleStep_served hinv (hs.served.transfer h.platform h.row.par h.row.keeps.latches)
  obtain ⟨hsame, hwf, -⟩ := sampleStep_confined u
  obtain ⟨-, -, htaken, -⟩ := sampleStep_goes hinv hg
  rw [hg, Body.state_goes] at hsame hwf
  have hf : s.row.sample s.mem u.row.taken = Spec.pixel s.mem u.row.lSrcRow
      ((s.row.place + u.row.taken * s.row.lScale.toNat) / 65536 % (8 * u.row.lStride.toNat)) := by
    rw [RowRegs.sample, hsrc, hstride]
  obtain ⟨hat, hpacked⟩ := sampleStep_takes hinv h.raced h.wf (h.sourceIn hs) (h.cursor he) hf h.packed hg
  rw [hscale, Nat.add_assoc, ← Nat.succ_mul, Nat.succ_eq_add_one, ← htaken] at hat
  have hrow : OfRowLoop s (Machine.loopStep u) := loopStep_ofRowLoop h.row.par h.row.keeps fun _ => hinv
  have hplatform := hsame.platform.trans h.platform
  have hraced := hsame.raced.trans h.raced
  have hl : Machine.loopStep u = loopOrEnd t := by rw [loopStep_eq_finish, hg, Body.finish]
  obtain ⟨e, hend⟩ := loopOrEnd_state t
  rw [hl, hend] at hrow ⊢
  exact ⟨hrow, hplatform, hraced, hwf h.wf, fun _ => hat, hpacked⟩

theorem FollowsRow.continueStep {s u : State} (hs : RowReady s) (h : FollowsRow s u) :
    FollowsRow s (continueStep u) := by
  cases he : u.engine with
  | sampling =>
    rw [continueStep_sampling he]
    exact h.loopStep hs he
  | completing c =>
    rw [continueStep_completing he]
    exact ⟨by simpa [continueStep_completing he] using h.row.continueStep, h.platform, rfl, h.wf, by simp, h.packed⟩
  | idle => rwa [continueStep_idle he]
  | accepted w => simpa [Machine.continueStep, he] using h
  | hung => rwa [continueStep_hung he]

/-- At the start of a row no sample is taken, and the cursor stands at the row's place (R160). -/
theorem FollowsRow.start {s : State} (hs : RowReady s) : FollowsRow s (loopOrEnd s) := by
  obtain ⟨hidx, hw⟩ := hs.taken
  have hrow := OfRowLoop.start s
  have hat : AtPlace s.mem s.row (s.row.place + s.row.taken * s.row.lScale.toNat) := by
    have h0 : s.row.taken = 0 := by simp [RowRegs.taken, hidx, hw]
    rw [h0, Nat.zero_mul]
    exact ⟨Nat.ModEq.refl _, hs.loaded⟩
  have hpacked : Packed (s.row.sample s.mem) s.row s.mem :=
    ⟨fun k hk => by simp [hw] at hk, fun j hj => by simp [hidx] at hj⟩
  obtain ⟨e, he⟩ := loopOrEnd_state s
  rw [he] at hrow ⊢
  exact ⟨hrow, rfl, hs.raced, hs.wf, fun _ => hat, hpacked⟩

theorem FollowsRow.continueFor {s u : State} (hs : RowReady s) (h : FollowsRow s u) (n : Nat) :
    FollowsRow s (continueFor n u) :=
  continueFor_keeps (P := FollowsRow s) (fun _ => FollowsRow.continueStep hs) n h

/-- A whole row run leaves every destination pixel as the position law says (R169, R171). -/
theorem rowLoop_pixels {s : State} (hs : RowReady s) (ha : s.status.rowActive = true) {j : Nat}
    (hj : j < numSamples s.par) :
    Spec.pixel (continueFor (numSamples s.par + 1) (loopOrEnd s)).mem s.row.lDstRow j = s.row.sample s.mem j := by
  obtain ⟨hidx, hw⟩ := hs.taken
  have hfollows := (FollowsRow.start hs).continueFor hs (numSamples s.par)
  obtain ⟨-, -, -, hdst, -, hunit, -⟩ := hfollows.row.keeps.latches
  have hstart : loopOrEnd s = { s with engine := .sampling } := by rw [loopOrEnd, if_pos ha]
  have hend := loop_served (s := { s with engine := .sampling }) (numSamples s.par) hs.inv ha hs.served rfl
    (by simp [RowRegs.taken, hidx, hw])
  rw [← hstart] at hend
  obtain ⟨-, hcompleting, -, -, -, hunits⟩ := hend
  rw [continueFor_add, continueFor_completing 0 hcompleting, State.complete_mem, ← hdst]
  refine hfollows.packed.written j ?_
  rw [hunits, RowRegs.unitBits, hunit, hstart]
  exact hj.trans_eq (numUnits_mul_unitBits s.par s.row.lUnit32).symm

/-! ### ROW_RUN -/

/-- The checks the statements spell out are those a row command makes (R162). -/
theorem rowChecks_of_checksPass {p : Params} {c : ConfigRegs} {y : Nat} (h : Spec.ChecksPass p c y) :
    rowChecks p c y = none := by
  obtain ⟨hy, hgeom, hscale, halign⟩ := h
  have hgeom' : badGeometry c = false := decide_eq_false hgeom
  have hscale' : badScale c = false := decide_eq_false hscale
  have halign' : badAlign c = false := by
    simpa [badAlign] using halign
  simp [rowChecks, hgeom', hscale', halign', Nat.not_le.2 hy]

/-- The registers a setup latches are those of R160's list. -/
theorem latchRow_eq_setupRow (p : Params) (c : ConfigRegs) (y : Nat) (r : RowRegs) :
    latchRow p c y r = Spec.setupRow p c y r := rfl

/-- ROW_RUN with its checks passed and its row served sets up a row that is ready (R160, R170). -/
theorem rowSetupBody_ready {s : State} {y : Nat} (hp : s.par.wf) (hwf : s.mem.wf) (hraced : s.raced = [])
    (hc : Spec.ChecksPass s.par s.cfg y) (hserved : s.RowServed (Spec.setupRow s.par s.cfg y s.row))
    (hapart : RowsApart s.par (Spec.setupRow s.par s.cfg y s.row)) :
    rowSetupBody y s = .goes (s.rowStarted y) ∧ RowReady (s.rowStarted y) := by
  have hchecks := rowChecks_of_checksPass hc
  have hinv := State.rowStarted_inv hp hchecks
  rw [← latchRow_eq_setupRow] at hserved hapart
  have hfirst : s.busAnswer .read (s.latched y).row.srcAddr 1 = .ok := by
    rw [RowRegs.srcAddr_eq]
    exact hserved.1 _ hinv.curByte
  constructor
  · rcases rowSetupBody_cases y s with ⟨code, he, -⟩ | ⟨-, ⟨-, he⟩ | ⟨he, -⟩ | ⟨he, -⟩⟩
    · rw [hchecks] at he; cases he
    · exact he
    · rw [hfirst] at he; cases he
    · rw [hfirst] at he; cases he
  · exact ⟨hinv, hserved, hapart, hraced, hwf, ⟨rfl, rfl⟩, State.seen_of_not_raced (s := s.latched y) hraced _⟩

/-- A row starts at the wrapped offset (R146, R160). -/
theorem latchRow_place {p : Params} {c : ConfigRegs} {y : Nat} (hc : Spec.ChecksPass p c y) (r : RowRegs) :
    (latchRow p c y r).place = Spec.wrapped c := by
  obtain ⟨-, hgeom, -⟩ := hc
  have hwidth := c.srcWidth.isLt
  have hlt : Spec.wrapped c < c.srcWidth.toNat * 65536 := by
    have := Int.emod_lt_of_pos c.offsetFx.toInt (b := ((c.srcWidth.toNat * 65536 : Nat) : Int)) (by omega)
    unfold Spec.wrapped
    omega
  rw [latchRow_eq_setupRow, RowRegs.place]
  unfold Spec.setupRow
  simp only [BitVec.toNat_ofNat]
  omega

/-- The samples of a row that has been set up are those of the position law (R171). -/
theorem rowStarted_sample {s : State} {y : Nat} (hc : Spec.ChecksPass s.par s.cfg y) (m : Memory) (j : Nat) :
    (s.rowStarted y).row.sample m j = Spec.pixel m (Spec.srcRow s.cfg y) (Spec.position s.cfg j) := by
  have hplace : (s.rowStarted y).row.place = Spec.wrapped s.cfg := latchRow_place hc s.row
  have hpos : (Spec.wrapped s.cfg + j * s.cfg.scaleFx.toNat) / 65536 =
      Spec.wrapped s.cfg / 65536 + (Spec.wrapped s.cfg % 65536 + j * s.cfg.scaleFx.toNat) / 65536 := by omega
  rw [RowRegs.sample, hplace]
  change Spec.pixel m (Spec.srcRow s.cfg y)
    ((Spec.wrapped s.cfg + j * s.cfg.scaleFx.toNat) / 65536 % (8 * s.cfg.srcStride.toNat)) = _
  rw [hpos, Spec.position]

/-- The position law of ROW_RUN, for both unit widths: destination pixel `j` is the source pixel of sample `j`
(R171). -/
theorem exec_rowRun_pixel {s t : State} {y j : Nat} (hp : s.par.wf) (hwf : s.mem.wf) (hraced : s.raced = [])
    (hc : Spec.ChecksPass s.par s.cfg y) (hserved : s.RowServed (Spec.setupRow s.par s.cfg y s.row))
    (hapart : RowsApart s.par (Spec.setupRow s.par s.cfg y s.row)) (h : exec (.rowRun y) s = .next t)
    (hj : j < numSamples s.par) :
    Spec.pixel t.mem (Spec.dstRow s.par s.cfg y) j =
      Spec.pixel s.mem (Spec.srcRow s.cfg y) (Spec.position s.cfg j) := by
  obtain ⟨hbody, hready⟩ := rowSetupBody_ready hp hwf hraced hc hserved hapart
  rw [exec_eq_continueFor, beginInstr, beginRowRun_eq_finish, hbody, Body.finish] at h
  cases h
  rw [← rowStarted_sample hc]
  exact rowLoop_pixels hready rfl hj

/-! ### Both unit widths -/

/-- A byte is its eight pixels (R82). -/
theorem read_eq_of_pixels {m n : Memory} {base : Word} {k : Nat}
    (h : ∀ i < 8, Spec.pixel m base (8 * k + i) = Spec.pixel n base (8 * k + i)) :
    m.read (base + BitVec.ofNat 32 k) = n.read (base + BitVec.ofNat 32 k) := by
  refine BitVec.eq_of_getLsbD_eq fun i hi => ?_
  have hp := h (7 - i) (by omega)
  have hdiv : (8 * k + (7 - i)) / 8 = k := by omega
  have hmod : 7 - (8 * k + (7 - i)) % 8 = i := by omega
  rwa [Spec.pixel, Spec.pixel, hdiv, hmod] at hp

/-- Settles O45: in the row both widths leave the pixels of the position law, which does not speak of the width, and
outside it memory as it was. -/
theorem unitWidthsWriteSameBytes : Obligations.UnitWidthsWriteSameBytes := by
  intro s t u y a hp hwf hraced _ hc hserved hserved8 hapart ht hu
  have hc8 : Spec.ChecksPass s.par { s.cfg with unit32 := false } y := by
    obtain ⟨hy, hgeom, hscale, -⟩ := hc
    exact ⟨hy, hgeom, hscale, fun h => Bool.false_ne_true h.1⟩
  by_cases ha : InSpan (Spec.dstRow s.par s.cfg y) (rowSize s.par) a
  · obtain ⟨k, hk, rfl⟩ := ha
    refine read_eq_of_pixels fun i hi => ?_
    have hj : 8 * k + i < numSamples s.par := by
      unfold numSamples
      omega
    rw [exec_rowRun_pixel hp hwf hraced hc hserved hapart ht hj]
    exact (exec_rowRun_pixel (s := { s with cfg := { s.cfg with unit32 := false } }) hp hwf hraced hc8 hserved8 hapart
      hu hj).symm
  · rw [exec_rowRun_mem hp ht ha]
    exact (exec_rowRun_mem (s := { s with cfg := { s.cfg with unit32 := false } }) hp hu ha).symm

end Sys2Proof.Machine
end

section
/-! PROOF. The command word (30_encoding.md R100 to R104): its fields, what `decode` answers for them, and the word
`encode` assembles; and the exact value of a binary32 pattern (R107, R140). -/

namespace Sys2Proof

/-! ### The fields of a word as numbers -/

theorem opField_toNat (w : Word) : (opField w).toNat = w.toNat % 16 := by
  simp [opField, BitVec.extractLsb'_toNat]

theorem rsvdField_toNat (w : Word) : (rsvdField w).toNat = w.toNat / 16 % 4096 := by
  simp [rsvdField, BitVec.extractLsb'_toNat, Nat.shiftRight_eq_div_pow]

theorem rowField_toNat (w : Word) : (rowField w).toNat = w.toNat / 65536 := by
  have hw := w.isLt
  rw [rowField, BitVec.extractLsb'_toNat, Nat.shiftRight_eq_div_pow]
  omega

theorem rsvdField_eq_zero_iff (w : Word) : rsvdField w = 0 ↔ w.toNat / 16 % 4096 = 0 := by
  rw [← rsvdField_toNat, ← BitVec.toNat_inj]
  rfl

/-- A word without its ROW field (R100). -/
theorem toNat_and_low (w : Word) : (w &&& 0x0000FFFF).toNat = w.toNat % 65536 := by
  rw [BitVec.toNat_and, show (0x0000FFFF : Word).toNat = 2 ^ 16 - 1 from rfl, Nat.and_two_pow_sub_one_eq_mod]

/-! ### Commands as an operation code and a row -/

/-- The command has a ROW operand (R104). -/
def Instr.takesRow : Instr → Bool
  | .nop => false
  | .cvtScale => false
  | .cvtOffset => false
  | .rowSetup _ => true
  | .sample => false
  | .rowFinish => false
  | .rowRun _ => true

theorem Instr.op_lt (i : Instr) : i.op < 7 := by cases i <;> simp [Instr.op]

theorem Instr.wellFormed_iff_row_lt (i : Instr) : i.WellFormed ↔ i.row < 65536 := by
  cases i <;> simp [Instr.WellFormed, Instr.wellFormed, Instr.row]

/-- The word of a well-formed command is `ROW × 65536 + OP` (R100). -/
theorem encode_toNat {i : Instr} (h : i.WellFormed) : (encode i).toNat = i.row * 65536 + i.op := by
  have hrow : i.row < 65536 := i.wellFormed_iff_row_lt.1 h
  have hop := i.op_lt
  obtain ⟨hlow, hhigh⟩ := Laws.TableWord.assembled_fields i.row i.op hrow (by omega)
  rw [← encode] at hlow hhigh
  have hlow := congrArg BitVec.toNat hlow
  rw [toNat_and_low, BitVec.toNat_ofNat] at hlow
  rw [BitVec.toNat_ushiftRight, Nat.shiftRight_eq_div_pow] at hhigh
  omega

/-! ### What `decode` answers -/

/-- A legal word decodes to the command of its operation code, with its ROW where the command has one (R102, R104). -/
theorem decode_of_fields {w : Word} {i : Instr} (hrsvd : rsvdField w = 0) (hop : (opField w).toNat = i.op)
    (hrow : i.takesRow = true → (rowField w).toNat = i.row) : decode w = .ok i := by
  cases i with
  | rowSetup y => simp [decode, hrsvd, hop, Instr.op, show (rowField w).toNat = y from hrow rfl]
  | rowRun y => simp [decode, hrsvd, hop, Instr.op, show (rowField w).toNat = y from hrow rfl]
  | nop => simp [decode, hrsvd, hop, Instr.op]
  | cvtScale => simp [decode, hrsvd, hop, Instr.op]
  | cvtOffset => simp [decode, hrsvd, hop, Instr.op]
  | sample => simp [decode, hrsvd, hop, Instr.op]
  | rowFinish => simp [decode, hrsvd, hop, Instr.op]

/-- Every operation code below 7 is that of a command with any given row (R102). -/
theorem Instr.exists_of_op_lt {n : Nat} (hn : n < 7) (y : Nat) :
    ∃ i : Instr, i.op = n ∧ i.row = if i.takesRow then y else 0 := by
  match n, hn with
  | 0, _ => exact ⟨.nop, rfl, rfl⟩
  | 1, _ => exact ⟨.cvtScale, rfl, rfl⟩
  | 2, _ => exact ⟨.cvtOffset, rfl, rfl⟩
  | 3, _ => exact ⟨.rowSetup y, rfl, rfl⟩
  | 4, _ => exact ⟨.sample, rfl, rfl⟩
  | 5, _ => exact ⟨.rowFinish, rfl, rfl⟩
  | 6, _ => exact ⟨.rowRun y, rfl, rfl⟩

/-- A word with RSVD 0 and an operation code of R102 decodes to the command of its fields. -/
theorem decode_legal {w : Word} (hrsvd : rsvdField w = 0) (hop : (opField w).toNat < 7) :
    ∃ i, decode w = .ok i ∧ i.op = (opField w).toNat ∧ i.row = if i.takesRow then (rowField w).toNat else 0 := by
  obtain ⟨i, hi, hrow⟩ := Instr.exists_of_op_lt hop (rowField w).toNat
  exact ⟨i, decode_of_fields hrsvd hi.symm fun ht => by rw [hrow, if_pos ht], hi, hrow⟩

/-- A word with RSVD not 0 or a reserved operation code is illegal (R103). -/
theorem decode_illegal {w : Word} (h : rsvdField w ≠ 0 ∨ 7 ≤ (opField w).toNat) : ∃ e, decode w = .error e := by
  by_cases hrsvd : rsvdField w = 0
  · have hop : 7 ≤ (opField w).toNat := h.resolve_left (absurd hrsvd)
    obtain ⟨n, hn⟩ := Nat.exists_eq_add_of_le' hop
    exact ⟨.reservedOpcode, by simp [decode, hrsvd, hn]⟩
  · exact ⟨.reservedBits, by rw [decode, if_pos hrsvd]⟩

/-- What a word that decodes holds in its fields. -/
theorem decode_ok_fields {w : Word} {i : Instr} (h : decode w = .ok i) :
    rsvdField w = 0 ∧ (opField w).toNat = i.op ∧ i.row = if i.takesRow then (rowField w).toNat else 0 := by
  by_cases hl : rsvdField w ≠ 0 ∨ 7 ≤ (opField w).toNat
  · obtain ⟨e, he⟩ := decode_illegal hl
    rw [he] at h
    cases h
  · obtain ⟨hrsvd, hop⟩ : rsvdField w = 0 ∧ (opField w).toNat < 7 := by simpa using hl
    obtain ⟨j, hj, hjop, hjrow⟩ := decode_legal hrsvd hop
    obtain rfl : j = i := by rw [hj] at h; injection h
    exact ⟨hrsvd, hjop.symm, hjrow⟩

/-- The command a word decodes to is well-formed. -/
theorem decode_ok_wellFormed {w : Word} {i : Instr} (h : decode w = .ok i) : i.WellFormed := by
  obtain ⟨-, -, hrow⟩ := decode_ok_fields h
  have hlt := (rowField w).isLt
  rw [i.wellFormed_iff_row_lt, hrow]
  split <;> omega

/-- A legal word whose command has a row is that command's encoding. -/
theorem encode_of_decode_row {w : Word} {i : Instr} (h : decode w = .ok i) (ht : i.takesRow = true) : encode i = w := by
  obtain ⟨hrsvd, hop, hrow⟩ := decode_ok_fields h
  rw [if_pos ht, rowField_toNat] at hrow
  rw [rsvdField_eq_zero_iff] at hrsvd
  rw [opField_toNat] at hop
  refine BitVec.eq_of_toNat_eq ?_
  rw [encode_toNat (decode_ok_wellFormed h)]
  omega

/-- A legal word whose command ignores ROW is that command's encoding but for ROW. -/
theorem encode_of_decode_masked {w : Word} {i : Instr} (h : decode w = .ok i) (ht : i.takesRow = false) :
    encode i = w &&& 0x0000FFFF := by
  obtain ⟨hrsvd, hop, hrow⟩ := decode_ok_fields h
  rw [ht] at hrow
  rw [rsvdField_eq_zero_iff] at hrsvd
  rw [opField_toNat] at hop
  refine BitVec.eq_of_toNat_eq ?_
  rw [encode_toNat (decode_ok_wellFormed h), hrow, toNat_and_low]
  simp only [Bool.false_eq_true, if_false]
  omega

/-! ### The statements -/

/-- Settles O1: the encoding's fields are 0, the operation code and the row. -/
theorem encodedCommandDecodes : Obligations.EncodedCommandDecodes := by
  intro i h
  have hword := encode_toNat h
  have hop := i.op_lt
  refine decode_of_fields ?_ ?_ fun _ => ?_
  · rw [rsvdField_eq_zero_iff]
    omega
  · rw [opField_toNat]
    omega
  · rw [rowField_toNat]
    omega

/-- Settles O2: the fields of a legal word are those its command is encoded from, and the mask clears a ROW that the
command ignores. -/
theorem decodedWordEncodes : Obligations.DecodedWordEncodes := by
  intro w i h
  refine ⟨decode_ok_wellFormed h, ?_⟩
  cases i with
  | rowSetup y => exact encode_of_decode_row h rfl
  | rowRun y => exact encode_of_decode_row h rfl
  | nop => exact encode_of_decode_masked h rfl
  | cvtScale => exact encode_of_decode_masked h rfl
  | cvtOffset => exact encode_of_decode_masked h rfl
  | sample => exact encode_of_decode_masked h rfl
  | rowFinish => exact encode_of_decode_masked h rfl

/-- Settles O4: the ten words are decoded. -/
theorem writtenWordsDecode : Obligations.WrittenWordsDecode := by
  unfold Obligations.WrittenWordsDecode
  decide

end Sys2Proof

namespace Sys2Proof.Machine

/-! ### Illegal words -/

/-- An accepted illegal word raises ERR_OPCODE and completes, nothing else (R103, R205). -/
theorem runIllegal_eq_failed (s : State) : runIllegal s = Spec.failed 1 s := rfl

/-- Where the host waits, the step runs an accepted illegal word to its completion (R103, R122). -/
theorem step_accepted_illegal {s : State} {w : Word} {e : DecodeError} (he : s.engine = .accepted w)
    (hd : decode w = .error e) (hw : s.hostWaits = true) : step s = .next (runIllegal s) := by
  simp [step, oneStep, engineTurn, he, hd, hw]

/-- Settles O3: the decoder refuses exactly these words, and the step runs a refused word as illegal. -/
theorem illegalWordsRaiseErrOpcode : Obligations.IllegalWordsRaiseErrOpcode := by
  intro w
  split
  next h =>
    intro s he hw
    obtain ⟨e, hd⟩ := decode_illegal h
    rw [step_accepted_illegal he hd hw, runIllegal_eq_failed]
  next h =>
    obtain ⟨hrsvd, hop⟩ : rsvdField w = 0 ∧ (opField w).toNat < 7 := by simpa using h
    obtain ⟨i, hi, -⟩ := decode_legal hrsvd hop
    exact ⟨i, hi⟩

/-! ### Binary32 patterns -/

/-- `DecodeF32` over the fields of the binary32 layout (R107, R140). -/
theorem decodeF32_eq_fields (w : Word) :
    decodeF32 w =
      if (w.extractLsb' 23 8).toNat = 255 then
        { cls := if (w.extractLsb' 0 23).toNat = 0 then .infinite else .nan, neg := w.getLsbD 31, mag := 0, exp := 0 }
      else if (w.extractLsb' 23 8).toNat = 0 then
        { cls := .finite, neg := w.getLsbD 31, mag := (w.extractLsb' 0 23).toNat, exp := -133 }
      else
        { cls := .finite, neg := w.getLsbD 31, mag := 2 ^ 23 + (w.extractLsb' 0 23).toNat,
          exp := ((w.extractLsb' 23 8).toNat : Int) - 134 } := by
  have he : (w.extractLsb' 23 8).toNat = w.toNat / 2 ^ 23 % 256 := by
    rw [BitVec.extractLsb'_toNat, Nat.shiftRight_eq_div_pow]
  have hf : (w.extractLsb' 0 23).toNat = w.toNat % 2 ^ 23 := by
    rw [BitVec.extractLsb'_toNat, Nat.shiftRight_zero]
  rw [he, hf]
  rfl

theorem decodeF32_neg (w : Word) : (decodeF32 w).neg = w.getLsbD 31 := by
  rw [decodeF32_eq_fields]
  split
  · rfl
  · split <;> rfl

/-- The 16 fraction bits of the scaled magnitude move into the exponent (R140). -/
theorem mul_two_zpow_add_sixteen (m : ℚ) (k : Int) : m * 2 ^ (k + 16) = m * 2 ^ k * 2 ^ 16 := by
  rw [zpow_add₀ two_ne_zero, mul_assoc]
  rfl

/-- Settles O27: the exponent field selects the class, and the scaled exponent is the pattern's own plus 16. -/
theorem decodedF32IsExact : Obligations.DecodedF32IsExact := by
  intro w e f p
  refine ⟨decodeF32_neg w, fun h1 h254 => ?_, fun h0 => ?_, fun h255 => ?_⟩
  · have hp : p = { cls := .finite, neg := w.getLsbD 31, mag := 2 ^ 23 + f, exp := (e : Int) - 134 } := by
      rw [show p = _ from decodeF32_eq_fields w, if_neg (show e ≠ 255 by omega), if_neg (show e ≠ 0 by omega)]
    rw [hp]
    refine ⟨rfl, rfl, rfl, ?_⟩
    rw [← mul_two_zpow_add_sixteen, show (e : Int) - 150 + 16 = e - 134 by omega]
  · have hp : p = { cls := .finite, neg := w.getLsbD 31, mag := f, exp := -133 } := by
      rw [show p = _ from decodeF32_eq_fields w, if_neg (show e ≠ 255 by omega), if_pos h0]
    rw [hp]
    refine ⟨rfl, rfl, rfl, ?_⟩
    rw [← mul_two_zpow_add_sixteen, show (-149 : Int) + 16 = -133 from rfl]
  · rw [show p = _ from decodeF32_eq_fields w, if_pos h255]
    exact ⟨rfl, rfl, rfl⟩

end Sys2Proof.Machine
end

section
/-! PROOF. Command control (40_command_control.md): what completion, NOP and the configuration see of a command, the
step that runs one, and that every accepted command ends where the platform answers. -/

namespace Sys2Proof.Machine

/-! ### The steps of the machine -/

/-- Settles O5: where the host waits the turn is the engine's, which runs the decoded word. -/
theorem stepRunsAcceptedCommand : Obligations.StepRunsAcceptedCommand := by
  intro s w i he hd hw
  simp [step, oneStep, engineTurn, he, hd, hw]

/-- Where the host does not wait, the turn is the host's. -/
theorem step_hostTurn {s : State} (h : s.hostWaits = false) : step s = .next (hostTurn s) := by
  rw [step, oneStep, h, if_neg Bool.false_ne_true]

/-- Settles O6: the turn is the host's, and the delay says whether its step is taken. -/
theorem hostStepsInterleave : Obligations.HostStepsInterleave := by
  intro s h rest hh hw
  rw [step_hostTurn hw, hostTurn, hh]
  exact ⟨fun hd => by simp [hd], fun n hd => by simp [hd]⟩

/-- Settles O52, by the lemma that runs a dispatched command through its engine steps. -/
theorem commandIsItsEngineSteps : Obligations.CommandIsItsEngineSteps :=
  fun _ _ _ he hd => exec_eq_engineSteps he hd

/-! ### Completion and NOP -/

theorem complete_eq_done (s : State) : s.complete = Spec.done s := rfl

/-- A command has ended in its lifecycle: the engine is idle, BUSY 0, DONE 1 (R127). -/
structure State.Completed (s : State) : Prop where
  idle : s.engine = .idle
  busy : s.status.busy = false
  done : s.status.done = true

theorem State.complete_completed (s : State) : s.complete.Completed := ⟨rfl, rfl, rfl⟩

/-- Only completion makes the engine of a begun command idle. -/
theorem continueStep_idle_completed {s : State} (h : s.engine = .idle → s.Completed)
    (hi : (continueStep s).engine = .idle) : (continueStep s).Completed := by
  cases he : s.engine with
  | idle => rw [continueStep_idle he]; exact h he
  | accepted w => simp [continueStep, he] at hi
  | sampling => rw [continueStep_sampling he] at hi; exact absurd hi (loopStep_begun s).ne_idle
  | completing c => rw [continueStep_completing he]; exact s.complete_completed
  | hung => rw [continueStep_hung he, he] at hi; cases hi

/-- Settles O22: the engine step of completion is `Complete()`, and only it makes the engine of a command idle. -/
theorem completionSetsDone : Obligations.CompletionSetsDone := by
  refine ⟨fun s c he => ?_, fun s t i h hidle => ?_⟩
  · rw [engineStep_eq_continueStep (by simp [he]), continueStep_completing he, complete_eq_done]
  · rw [exec_eq_continueFor] at h
    cases h
    have hc := continueFor_keeps (P := fun u => u.engine = .idle → u.Completed)
      (fun _ => continueStep_idle_completed) (stepBound s.par i - 1)
      (fun hi => absurd hi (beginInstr_begun i s).ne_idle) hidle
    exact ⟨hc.busy, hc.done⟩

/-- Settles O23: NOP is its completion, and its word is the one whose RSVD and OP are 0. -/
theorem nopOnlyCompletes : Obligations.NopOnlyCompletes := by
  refine ⟨fun s => rfl, fun w => ⟨fun h => (encode_of_decode_masked h rfl).symm, fun h => ?_⟩⟩
  have hlow : w.toNat % 65536 = 0 := by
    rw [← toNat_and_low, h]
    rfl
  refine decode_of_fields ?_ ?_ (by simp [Instr.takesRow])
  · rw [rsvdField_eq_zero_iff]
    omega
  · rw [opField_toNat, Instr.op]
    omega

/-! ### The configuration -/

theorem sampleStep_cfg (s : State) : (sampleStep s).state.cfg = s.cfg := (sampleStep_keepsRow s).cfg

theorem loopStep_cfg (s : State) : (loopStep s).cfg = s.cfg := by
  have hs := sampleStep_cfg s
  rcases loopStep_cases s with ⟨t, hg, -, hl⟩ | ⟨t, hg, -, hl⟩ | ⟨t, hg, hl⟩ <;> rw [hg] at hs <;> rw [hl] <;> exact hs

theorem continueStep_cfg (s : State) : (continueStep s).cfg = s.cfg := by
  unfold continueStep
  split
  · exact loopStep_cfg s
  · rfl
  · rfl
  · rfl
  · rfl

theorem continueFor_cfg (n : Nat) (s : State) : (continueFor n s).cfg = s.cfg :=
  continueFor_keeps (P := fun u => u.cfg = s.cfg) (fun u hu => (continueStep_cfg u).trans hu) n rfl

/-- What a command leaves in the configuration its first engine step has written (R128). -/
theorem exec_cfg {i : Instr} {s t : State} (h : exec i s = .next t) : t.cfg = (beginInstr i s).cfg := by
  rw [exec_eq_continueFor] at h
  cases h
  exact continueFor_cfg _ _

/-- A command that is no conversion keeps the configuration (R124). -/
theorem exec_cfg_of_not_cvt {i : Instr} {s t : State} (hs : i ≠ .cvtScale) (ho : i ≠ .cvtOffset)
    (h : exec i s = .next t) : t.cfg = s.cfg := by
  rw [exec_cfg h]
  cases i with
  | nop => rfl
  | cvtScale => exact absurd rfl hs
  | cvtOffset => exact absurd rfl ho
  | rowSetup y => exact (beginRowSetup_cfg_mem y s).1
  | sample => exact (beginSample_keepsRow s).1.cfg
  | rowFinish =>
    rw [beginInstr]
    rcases beginRowFinish_cases s with ⟨-, hb⟩ | ⟨-, hb⟩ <;> rw [hb]
    · exact loopStep_cfg s
    · rfl
  | rowRun y =>
    have hb := (rowSetupBody_cfg_mem y s).1
    rw [beginInstr, beginRowRun_eq_finish]
    cases hg : rowSetupBody y s with
    | goes u =>
      rw [hg] at hb
      obtain ⟨e, he⟩ := loopOrEnd_state u
      rw [Body.finish, he]
      exact hb
    | ends u => rw [hg] at hb; exact hb

theorem exec_cvtScale_cfg {s t : State} (h : exec .cvtScale s = .next t) :
    t.cfg = { s.cfg with scaleFx := t.cfg.scaleFx } := by
  rw [exec_cfg h, beginInstr]
  rcases beginCvtScale_cases s with ⟨v, -, hb⟩ | ⟨-, hb⟩ <;> rw [hb]
  rfl

theorem exec_cvtOffset_cfg {s t : State} (h : exec .cvtOffset s = .next t) :
    t.cfg = { s.cfg with offsetFx := t.cfg.offsetFx } := by
  rw [exec_cfg h, beginInstr]
  rcases beginCvtOffset_cases s with ⟨v, -, hb⟩ | ⟨-, hb⟩ <;> rw [hb]
  rfl

/-- Settles O55: a conversion writes its own register, and no other command writes any. -/
theorem commandsKeepConfiguration : Obligations.CommandsKeepConfiguration := by
  intro s t i h
  by_cases hs : i = .cvtScale
  · subst hs
    have hcfg := exec_cvtScale_cfg h
    have ho : t.cfg.offsetFx = s.cfg.offsetFx := by rw [hcfg]
    exact ⟨by rw [ho]; exact hcfg, fun hne => absurd rfl hne, fun _ => ho⟩
  · by_cases ho : i = .cvtOffset
    · subst ho
      have hcfg := exec_cvtOffset_cfg h
      have hs : t.cfg.scaleFx = s.cfg.scaleFx := by rw [hcfg]
      exact ⟨by rw [hs]; exact hcfg, fun _ => hs, fun hne => absurd rfl hne⟩
    · rw [exec_cfg_of_not_cvt hs ho h]
      exact ⟨rfl, fun _ => rfl, fun _ => rfl⟩

/-! ### Every accepted command ends where the platform answers -/

/-- Whether transactions are answered is the platform's alone. -/
theorem State.Answered.transfer {s t : State} (h : s.Answered) (hp : t.platform = s.platform) : t.Answered :=
  fun kind a n => by rw [busAnswer_congr hp]; exact h kind a n

/-- Where every transaction is answered, a body that has ended is completed next. -/
theorem advanceCursor_answered {s t : State} (h : s.Answered) (hg : advanceCursor s = .ends t) :
    t.engine = .completing none := by
  rcases advanceCursor_cases s with ⟨-, he⟩ | ⟨-, -, he⟩ | ⟨-, -, he⟩ <;> rw [he] at hg
  · cases hg
  · cases hg
  · rcases loadSrcByte_cases { s with row := s.row.moved } with ⟨-, hl⟩ | ⟨-, hl⟩ | ⟨ha, -⟩
    · rw [hl] at hg; cases hg
    · rw [hl] at hg; cases hg; rfl
    · exact absurd ha (h _ _ _)

theorem packBit_answered {bit : Bool} {s t : State} (h : s.Answered) (hg : packBit bit s = .ends t) :
    t.engine = .completing none := by
  rcases packBit_cases bit s with ⟨-, hp⟩ | ⟨-, hp⟩ <;> rw [hp] at hg
  · rcases flushUnit_cases { s with row := s.row.append bit } with ⟨-, hl⟩ | ⟨-, hl⟩ | ⟨ha, -⟩
    · rw [hl] at hg; cases hg
    · rw [hl] at hg; cases hg; rfl
    · exact absurd ha (h _ _ _)
  · cases hg

theorem sampleStep_answered {s t : State} (h : s.Answered) (hg : sampleStep s = .ends t) :
    t.engine = .completing none := by
  rcases sampleStep_eq_ends.1 hg with ha | ⟨a, ha, hp⟩
  · exact advanceCursor_answered h ha
  · obtain ⟨hsame, -⟩ := advanceCursor_confined s
    rw [ha] at hsame
    exact packBit_answered (h.transfer hsame.platform) hp

theorem rowSetupBody_answered {y : Nat} {s t : State} (h : s.Answered) (hg : rowSetupBody y s = .ends t) :
    t.engine = .completing none := by
  rcases rowSetupBody_cases y s with ⟨code, -, he⟩ | ⟨-, ⟨-, he⟩ | ⟨-, he⟩ | ⟨ha, -⟩⟩
  · rw [he] at hg; cases hg; rfl
  · rw [he] at hg; cases hg
  · rw [he] at hg; cases hg; rfl
  · exact absurd ha (h _ _ _)

/-- A body that has ended is completed by the next step, and stays so. -/
theorem continueFor_completed (n : Nat) {s : State} {c : Option (CvtTarget × Word)} (h : s.engine = .completing c) :
    (continueFor (n + 1) s).Completed := by
  rw [continueFor_completing n h]
  exact s.complete_completed

/-- The loop of a sound answered row ends within the samples the row has left (R129, R169). -/
theorem loopStep_completes (n : Nat) {s : State} (hinv : RowInv s.par s.row) (ha : s.status.rowActive = true)
    (hans : s.Answered) (hn : numSamples s.par ≤ s.row.taken + n) : (continueFor n (loopStep s)).Completed := by
  induction n generalizing s with
  | zero =>
    have := hinv.taken_lt
    omega
  | succ n ih =>
    rcases loopStep_cases s with ⟨t, hg, hact, hl⟩ | ⟨t, hg, -, hl⟩ | ⟨t, hg, hl⟩ <;> rw [hl]
    · obtain ⟨hsame, -, htaken, ⟨-, hinv'⟩ | ⟨hst, -⟩⟩ := sampleStep_goes hinv hg
      · rw [continueFor_succ, continueStep_sampling rfl]
        refine ih hinv' hact (hans.transfer hsame.platform) ?_
        change numSamples t.par ≤ t.row.taken + n
        rw [hsame.par, htaken]
        omega
      · simp [hst] at hact
    · exact continueFor_completed n rfl
    · exact continueFor_completed n (sampleStep_answered hans hg)

/-- A body that goes on to its end, or has ended with an answer, is completed by the next step. -/
theorem Body.finish_completes {b : Body} (h : ∀ t, b = .ends t → t.engine = .completing none) :
    (continueFor 1 (b.finish State.endBody)).Completed := by
  cases b with
  | goes t => exact continueFor_completed 0 rfl
  | ends t => exact continueFor_completed 0 (h t rfl)

/-- Every command of a sound answered state completes within its bound (R129). -/
theorem beginInstr_completes (i : Instr) {s : State} (hinv : BodyInv s) (hans : s.Answered) :
    (continueFor (stepBound s.par i - 1) (beginInstr i s)).Completed := by
  cases i with
  | nop => exact continueFor_completed 0 rfl
  | cvtScale =>
    obtain ⟨c, hc⟩ := beginCvtScale_completing s
    exact continueFor_completed 0 hc
  | cvtOffset =>
    obtain ⟨c, hc⟩ := beginCvtOffset_completing s
    exact continueFor_completed 0 hc
  | rowSetup y => exact Body.finish_completes fun _ => rowSetupBody_answered hans
  | sample =>
    rw [beginInstr]
    rcases beginSample_cases s with ⟨-, hb⟩ | ⟨-, hb⟩ <;> rw [hb]
    · exact Body.finish_completes fun _ => sampleStep_answered hans
    · exact continueFor_completed 0 rfl
  | rowFinish =>
    change (continueFor (numSamples s.par) (beginRowFinish s)).Completed
    rcases beginRowFinish_cases s with ⟨ha, hb⟩ | ⟨-, hb⟩ <;> rw [hb]
    · exact loopStep_completes _ (hinv.row ha) ha hans (Nat.le_add_left _ _)
    · obtain ⟨n, hn⟩ : ∃ n, numSamples s.par = n + 1 :=
        Nat.exists_eq_succ_of_ne_zero (by have := rowSize_pos hinv.params; unfold numSamples; omega)
      rw [hn]
      exact continueFor_completed n rfl
  | rowRun y =>
    change (continueFor (numSamples s.par + 1) ((rowSetupBody y s).finish loopOrEnd)).Completed
    cases hb : rowSetupBody y s with
    | goes u =>
      rcases rowSetupBody_cases y s with ⟨code, -, he⟩ | ⟨hc, ⟨-, he⟩ | ⟨-, he⟩ | ⟨-, he⟩⟩ <;> rw [he] at hb <;> cases hb
      exact loopStep_completes (s := { s.rowStarted y with engine := .sampling }) _
        (State.rowStarted_inv hinv.params hc) rfl (hans.transfer rfl) (Nat.le_add_left _ _)
    | ends u => exact continueFor_completed _ (rowSetupBody_answered hans hb)

/-- Settles O53: a sound state with an accepted word is inside its body, whose engine steps are those of the command. -/
theorem acceptedCommandsTerminate : Obligations.AcceptedCommandsTerminate := by
  intro s w i hinv hans he hd
  have hbody := hinv.body (by simp [he]) (by simp [he])
  have hsteps : continueFor (stepBound s.par i - 1) (beginInstr i s) = engineSteps (stepBound s.par i) s :=
    Host.Outcome.next.inj ((exec_eq_continueFor i s).symm.trans (exec_eq_engineSteps he hd))
  have hc := beginInstr_completes i hbody hans
  rw [hsteps] at hc
  exact ⟨hc.idle, hc.busy, hc.done⟩

end Sys2Proof.Machine
end

section
/-! PROOF. The host's register accesses while a command runs and while none does (40_command_control.md R120, R123 to
R126). -/

namespace Sys2Proof.Machine

/-! ### The access of a register and its offset -/

theorem Reg.access_w1c_iff (r : Reg) : r.access = .w1c ↔ r.offset = 0x10 := by cases r <;> decide

/-- CMD and the RW registers, the registers whose write a running command loses (R123, R124). -/
theorem Reg.access_lost_iff (r : Reg) :
    (r.access = .wo ∨ r.access = .rw) ↔ (r.offset = 0x0C ∨ r.offset = 0x14 ∨ (0x18 ≤ r.offset ∧ r.offset ≤ 0x3C)) := by
  cases r <;> decide

/-- Every aligned offset below the reserved ones holds a register (R30, R32). -/
theorem Reg.atOffset_none {off : Nat} (h4 : off % 4 = 0) (h : Reg.atOffset off = none) : 0x74 ≤ off := by
  have hall : ∀ k < 29, Reg.atOffset (4 * k) ≠ none := by decide
  by_contra hlt
  exact hall (off / 4) (by omega) (by rwa [show 4 * (off / 4) = off by omega])

/-! ### What a register write does -/

theorem State.regWrite_w1c {s : State} {r : Reg} (h : r.access = .w1c) (v : Word) : s.regWrite r v = s.clearStatus v := by
  rw [State.regWrite, h]

/-- A write that a running command loses sets OVR (R124). -/
theorem State.regWrite_busy {s : State} {r : Reg} (h : r.access = .wo ∨ r.access = .rw) (hb : s.status.busy = true)
    (v : Word) : s.regWrite r v = { s with status := { s.status with ovr := true } } := by
  rcases h with h | h <;> simp [State.regWrite, h, hb]

theorem State.regWrite_rw {s : State} {r : Reg} (h : r.access = .rw) (hb : s.status.busy = false) (v : Word) :
    s.regWrite r v = { s with cfg := s.cfg.write v r } := by
  simp [State.regWrite, h, hb]

theorem State.regWrite_cmd {s : State} (hb : s.status.busy = false) (v : Word) : s.regWrite .cmd v = s.accept v := by
  simp [State.regWrite, show Reg.access .cmd = .wo by decide, hb]

/-- A due 32-bit write at a register's offset is the write of that register. -/
theorem step_regWrite {s : State} {r : Reg} {off : Nat} {v : Word} {rest : List HostStep}
    (hr : Reg.atOffset off = some r)
    (hh : s.host = { delay := 0, act := .regWrite (Spec.at s off) .word v } :: rest) :
    step s = .next { State.regWrite { s with host := rest } r v with reply := .done } := by
  have ho := Reg.offset_of_atOffset hr
  have hw : windowOffset s.par (Spec.at s off) .word = some off :=
    windowOffset_word s.par (ho ▸ r.offset_aligned) (ho ▸ r.offset_lt)
  rw [step_due (by simp) hh, hostStep, State.accessWrite_reg (by exact hw) hr]

/-- A due 32-bit read at a register's offset is the read of that register. -/
theorem step_regRead {s : State} {r : Reg} {rest : List HostStep}
    (hh : s.host = { delay := 0, act := .regRead (Spec.at s r.offset) .word } :: rest) :
    step s = .next { (State.regRead { s with host := rest } r).2 with
      reply := .data (State.regRead { s with host := rest } r).1 } := by
  have hw : windowOffset s.par (Spec.at s r.offset) .word = some r.offset :=
    windowOffset_word s.par r.offset_aligned r.offset_lt
  rw [step_due (by simp) hh, hostStep]
  simp only [State.accessRead, hw, Reg.atOffset_offset]

/-! ### Writes -/

/-- Settles O7: the write reaches CMD, which accepts the word or loses the write. -/
theorem cmdWriteIsAccepted : Obligations.CmdWriteIsAccepted := by
  intro s v rest hh
  have hstep := step_regWrite (r := .cmd) rfl hh
  refine ⟨fun hb => ⟨?_, fun t ht => engineStep_accepted ht⟩, fun hb => ?_⟩
  · rw [hstep, State.regWrite_cmd (by exact hb)]
    rfl
  · rw [hstep, State.regWrite_busy (.inl (by decide)) (by exact hb)]

/-- Settles O8: the access of the register at the offset, if one stands there, says what the write does. -/
theorem busyWritesAreLost : Obligations.BusyWritesAreLost := by
  intro s off v rest h4 hlt hh hcase
  cases hr : Reg.atOffset off with
  | none =>
    have hres := Reg.atOffset_none h4 hr
    have hw : windowOffset s.par (Spec.at s off) .word = some off := windowOffset_word s.par h4 hlt
    rw [step_due (by simp) hh, hostStep, State.accessWrite_reserved (by exact hw) hr, if_neg (by omega),
      if_neg (by omega)]
  | some r =>
    have ho := Reg.offset_of_atOffset hr
    have hw1c := r.access_w1c_iff
    have hlost := r.access_lost_iff
    rw [ho] at hw1c hlost
    rw [step_regWrite hr hh]
    cases ha : r.access with
    | w1c =>
      rw [State.regWrite_w1c ha, if_pos (hw1c.1 ha)]
      rfl
    | wo =>
      have hl := hlost.1 (.inl ha)
      rw [State.regWrite_busy (.inl ha) (by exact hcase.resolve_right (not_not.2 hl)), if_neg (by omega), if_pos hl]
    | rw =>
      have hl := hlost.1 (.inr ha)
      rw [State.regWrite_busy (.inr ha) (by exact hcase.resolve_right (not_not.2 hl)), if_neg (by omega), if_pos hl]
    | ro =>
      rw [State.regWrite_ro ha, if_neg (mt hw1c.2 (by simp [ha])), if_neg (mt hlost.2 (by simp [ha]))]

/-- The two used bits of CTRL are those written (R33, R37, R38). -/
theorem ctrlWord_write (c : ConfigRegs) (v : Word) : (c.write v .ctrl).ctrlWord = (v.setWidth 2).setWidth 32 := by
  refine BitVec.eq_of_getLsbD_eq fun k hk => ?_
  rw [ConfigRegs.ctrlWord_bit, BitVec.getLsbD_setWidth, BitVec.getLsbD_setWidth]
  rcases k with _ | _ | k
  · simp [ConfigRegs.write]
  · simp [ConfigRegs.write]
  · simp

/-- An RW register reads back what was written, truncated to its width (R33, R123). -/
theorem State.regValue_write_same (s : State) {r : Reg} (h : r.access = .rw) (v : Word) :
    State.regValue { s with cfg := s.cfg.write v r } r = (v.setWidth r.width).setWidth 32 := by
  cases r with
  | ctrl => exact ctrlWord_write s.cfg v
  | srcBase | dstBase | scaleFx | offsetFx | scaleF32 | offsetF32 => simp [State.regValue, ConfigRegs.write, Reg.width]
  | srcWidth | srcHeight | srcStride | vOff => rfl
  | _ => exact absurd h (by decide)

/-- A write of one register leaves what every other one reads as (R123). -/
theorem State.regValue_write_other (s : State) {r q : Reg} (h : q ≠ r) (v : Word) :
    State.regValue { s with cfg := s.cfg.write v r } q = s.regValue q := by
  cases q with
  | ctrl | srcBase | srcWidth | srcHeight | srcStride | vOff | dstBase | scaleFx | offsetFx | scaleF32 | offsetF32 =>
    cases r <;> trivial
  | _ => rfl

/-- Settles O10: with no command running the write reaches the register and nothing else. -/
theorem idleWriteTakesEffect : Obligations.IdleWriteTakesEffect := by
  intro s r v rest ha hh hb
  have hstep := step_regWrite r.atOffset_offset hh
  rw [State.regWrite_rw ha (by exact hb)] at hstep
  exact ⟨_, hstep, s.regValue_write_same ha v, fun q hq => s.regValue_write_other hq v, rfl, rfl, rfl, rfl, rfl⟩

/-! ### Reads -/

/-- The host's steps to come are no part of a register. -/
theorem State.regValue_withHost (s : State) (l : List HostStep) (r : Reg) :
    State.regValue { s with host := l } r = s.regValue r := rfl

theorem State.regRead_idle {s : State} (hb : s.status.busy = false) (r : Reg) : s.regRead r = (s.regValue r, s) := by
  simp [State.regRead, hb]

theorem State.regRead_busy {s : State} (hb : s.status.busy = true) (r : Reg) : s.regRead r = s.busyRead r := by
  rw [State.regRead, if_pos hb]

/-- Settles O13: with no command running a read answers the register's value and draws nothing. -/
theorem idleReadsAreExact : Obligations.IdleReadsAreExact := by
  intro s r rest hh hb
  rw [step_regRead hh, State.regRead_idle (by exact hb), State.regValue_withHost]

/-- What CVT_SCALE writes, in the words of the rule (R142). -/
theorem scaleOfF32_eq (w : Word) : scaleOfF32 w =
    if Spec.ScaleAccepted w then some (BitVec.ofNat 32 (roundMag (decodeF32 w).mag (decodeF32 w).exp)) else none := by
  unfold scaleOfF32 maxScale
  dsimp only
  by_cases hin : (decodeF32 w).cls ≠ .finite ∨ (decodeF32 w).neg = true ∨ (decodeF32 w).mag = 0
  · rw [if_pos hin, if_neg]
    rintro ⟨hcls, hneg, hmag, -⟩
    simp [hcls, hneg, hmag] at hin
  · obtain ⟨hcls, hneg, hmag⟩ : (decodeF32 w).cls = .finite ∧ (decodeF32 w).neg = false ∧ (decodeF32 w).mag ≠ 0 := by
      simpa using hin
    rw [if_neg hin]
    by_cases hr : roundMag (decodeF32 w).mag (decodeF32 w).exp < 1 ∨
        0xFFFF0000 < roundMag (decodeF32 w).mag (decodeF32 w).exp
    · rw [if_pos hr, if_neg]
      rintro ⟨-, -, -, hlo, hhi⟩
      omega
    · rw [if_neg hr, if_pos ⟨hcls, hneg, hmag, by omega, by omega⟩]

/-- What CVT_OFFSET writes, in the words of the rule (R144). -/
theorem offsetOfF32_eq (w : Word) : offsetOfF32 w =
    if Spec.OffsetAccepted w then some (BitVec.ofInt 32 (Spec.truncated w)) else none := by
  unfold offsetOfF32
  dsimp only
  rw [← Spec.truncated]
  by_cases hcls : (decodeF32 w).cls = .finite
  · rw [if_neg (not_not.2 hcls)]
    by_cases hr : Spec.truncated w < -2 ^ 31 ∨ 2 ^ 31 - 1 < Spec.truncated w
    · rw [if_pos hr, if_neg]
      rintro ⟨-, hlo, hhi⟩
      omega
    · rw [if_neg hr, if_pos ⟨hcls, by omega, by omega⟩]
  · rw [if_pos hcls, if_neg fun h => hcls h.1]

theorem Engine.pending_accepted (w : Word) (i : Instr) :
    (Engine.accepted w).pending = some i ↔ decode w = .ok i := by
  change (decode w).toOption = some i ↔ decode w = .ok i
  cases decode w <;> simp [Except.toOption]

/-- A command is pending exactly while its word waits for its dispatch (R120, R122). -/
theorem Engine.pending_eq_some {e : Engine} {i : Instr} (h : e.pending = some i) :
    ∃ w, e = .accepted w ∧ decode w = .ok i := by
  cases e with
  | accepted w => exact ⟨w, rfl, (Engine.pending_accepted w i).1 h⟩
  | idle | sampling | completing c | hung => simp [Engine.pending] at h

/-- `other` is the second value that a read of the register of the conversion `i` may show: its old value after the
conversion's write, and before it the value `new` that the conversion writes, if any (R125, 93 S2). -/
abbrev State.ShowsAfter (s : State) (c : CvtTarget) (i : Instr) (new other : Option Word) : Prop :=
  (∃ old, s.engine = .completing (some (c, old)) ∧ other = some old) ∨
    ((∀ old, s.engine ≠ .completing (some (c, old))) ∧ other = if s.engine.pending = some i then new else none)

theorem State.otherScale_showsAfter (s : State) :
    s.ShowsAfter .scaleFx .cvtScale (scaleOfF32 s.cfg.scaleF32) s.otherScale := by
  unfold State.ShowsAfter State.otherScale
  split
  next old he => exact .inl ⟨old, he, rfl⟩
  next hne => exact .inr ⟨hne, rfl⟩

theorem State.otherOffset_showsAfter (s : State) :
    s.ShowsAfter .offsetFx .cvtOffset (offsetOfF32 s.cfg.offsetF32) s.otherOffset := by
  unfold State.ShowsAfter State.otherOffset
  split
  next old he => exact .inl ⟨old, he, rfl⟩
  next hne => exact .inr ⟨hne, rfl⟩

/-- What a read of a conversion's register shows while BUSY = 1, where the conversion accepts its input under `P` and then
writes `new` (R125, 93 S2). -/
theorem State.ShowsAfter.readEither {s : State} {c : CvtTarget} {i : Instr} {P : Prop} [Decidable P] {new : Word}
    {other : Option Word} (h : s.ShowsAfter c i (if P then some new else none) other) (v : Word) :
    (∀ old, s.engine = .completing (some (c, old)) → (s.readEither v other).1 = Spec.oneOf s v old) ∧
      (∀ w, s.engine = .accepted w → decode w = .ok i →
        (P → (s.readEither v other).1 = Spec.oneOf s v new) ∧ (¬P → (s.readEither v other).1 = v)) ∧
      ((∀ old, s.engine ≠ .completing (some (c, old))) → (∀ w, s.engine = .accepted w → decode w ≠ .ok i) →
        (s.readEither v other).1 = v) := by
  rcases h with ⟨old, he, rfl⟩ | ⟨hne, rfl⟩
  · refine ⟨fun old' he' => ?_, fun w hw => ?_, fun hne => absurd he (hne old)⟩
    · rw [he] at he'
      cases he'
      rfl
    · rw [he] at hw
      cases hw
  · refine ⟨fun old he => absurd he (hne old), fun w hw hd => ?_, fun _ hno => ?_⟩
    · rw [if_pos (by rw [hw]; exact (Engine.pending_accepted w i).2 hd)]
      exact ⟨fun hp => by rw [if_pos hp]; rfl, fun hp => by rw [if_neg hp]; rfl⟩
    · rw [if_neg]
      · rfl
      · intro hpend
        obtain ⟨w, hw, hd⟩ := Engine.pending_eq_some hpend
        exact hno w hw hd

/-- SCALE_FX reads as `Spec.ScaleShown` says. -/
theorem State.readEither_scale (s : State) : Spec.ScaleShown s (s.readEither s.cfg.scaleFx s.otherScale).1 := by
  have h := s.otherScale_showsAfter
  rw [scaleOfF32_eq] at h
  exact h.readEither s.cfg.scaleFx

/-- OFFSET_FX reads as `Spec.OffsetShown` says. -/
theorem State.readEither_offset (s : State) : Spec.OffsetShown s (s.readEither s.cfg.offsetFx s.otherOffset).1 := by
  have h := s.otherOffset_showsAfter
  rw [offsetOfF32_eq] at h
  exact h.readEither s.cfg.offsetFx

theorem State.busyRead_rowState (s : State) {r : Reg} (h : 0x40 ≤ r.offset) :
    (s.busyRead r).1 = ((Config.draw s.draws).setWidth r.width).setWidth 32 := by
  rw [State.busyRead, if_pos (show r.isRowState = true from decide_eq_true h)]

/-- A register that no command changes while it runs reads as its value (R125). -/
theorem State.busyRead_exact (s : State) {r : Reg} (h : r.offset < 0x40) (hst : r ≠ .status) (hs : r ≠ .scaleFx)
    (ho : r ≠ .offsetFx) : (s.busyRead r).1 = s.regValue r := by
  rw [State.busyRead, if_neg (by simpa [Reg.isRowState] using h), if_neg hst, if_neg hs, if_neg ho]

/-- Settles O14: the read is a busy one, and each group of registers has its lemma. -/
theorem busyReadsAreFreeForRowState : Obligations.BusyReadsAreFreeForRowState := by
  intro s r rest hh hb
  obtain ⟨n, hn⟩ := State.regRead_state { s with host := rest } r
  refine ⟨n, (State.busyRead { s with host := rest } r).1, ?_, ?_, ?_, ?_, ?_, ?_⟩
  · rw [step_regRead hh, hn, State.regRead_busy (by exact hb)]
  · exact State.busyRead_rowState _
  · rintro rfl
    exact ⟨drawBit s.draws, rfl⟩
  · rintro rfl
    exact State.readEither_scale { s with host := rest }
  · rintro rfl
    exact State.readEither_offset { s with host := rest }
  · intro hlow hst hs ho
    rw [State.busyRead_exact _ hlow hst hs ho, State.regValue_withHost]

end Sys2Proof.Machine
end

section
/-! PROOF. A transaction that is never answered (40_command_control.md R129): the engine waits for ever, with the registers
as the steps before the transaction left them. -/

namespace Sys2Proof.Machine

/-! ### Answered and unanswered transactions -/

theorem loadSrcByte_of_ok {s : State} (h : s.busAnswer .read s.row.srcAddr 1 = .ok) :
    loadSrcByte s = .goes (loadDone s) := by
  rw [loadSrcByte, h]

theorem loadSrcByte_of_never {s : State} (h : s.busAnswer .read s.row.srcAddr 1 = .never) :
    loadSrcByte s = .ends s.hang := by
  rw [loadSrcByte, h]

theorem flushUnit_of_never {s : State} (h : s.busAnswer .write s.row.unitAddr s.row.unitBytes = .never) :
    flushUnit s = .ends (flushHung s) := by
  rw [flushUnit, h]

/-! ### Step 4a in the words of the rules -/

/-- The registers of step 4a where it carries into the next byte (R165). -/
theorem RowRegs.moved_of_carry {r : RowRegs} (h : 8 ≤ Spec.shiftOf r) :
    r.moved = { r with
      curByte := Spec.nextByte r
      curBit := BitVec.ofNat 3 (Spec.shiftOf r % 8)
      curFrac := BitVec.ofNat 32 (r.curFrac.toNat % 65536) } :=
  if_neg (Nat.not_lt.2 h)

/-- Where there is no whole pixel to move, step 4a leaves the registers as they are (R165, R167). -/
theorem advanced_eq_self {s : State} (h : s.row.curFrac.toNat < 65536) : Spec.advanced s = s := by
  have hbit := s.row.curBit.isLt
  have hshift : Spec.shiftOf s.row = s.row.curBit.toNat := by
    unfold Spec.shiftOf
    omega
  unfold Spec.advanced
  dsimp only
  rw [hshift, if_pos hbit, Nat.mod_eq_of_lt h]
  simp [BitVec.ofNat_toNat]

/-- A byte carry needs whole pixels to move, so step 4a reloads there. -/
theorem advanceCursor_of_carry {s : State} (h : 8 ≤ Spec.shiftOf s.row) :
    advanceCursor s = loadSrcByte { s with row := s.row.moved } := by
  have hbit := s.row.curBit.isLt
  have hadv : s.row.advance = Spec.shiftOf s.row := rfl
  rcases advanceCursor_cases s with ⟨hf, -⟩ | ⟨-, ha, -⟩ | ⟨-, -, he⟩
  · unfold Spec.shiftOf at h
    omega
  · omega
  · exact he

/-- The address step 4a reloads from (R165). -/
theorem RowRegs.moved_srcAddr {r : RowRegs} (h : 8 ≤ Spec.shiftOf r) : r.moved.srcAddr = Spec.reloadAddr r := by
  rw [RowRegs.moved_of_carry h]
  rfl

/-- Step 4a goes on to the state the rules give, where its reload, if it makes one, is performed (R165). -/
theorem advanceCursor_served {s : State} (h : Spec.AdvanceServed s) : advanceCursor s = .goes (Spec.advanced s) := by
  rcases advanceCursor_cases s with ⟨hf, he⟩ | ⟨-, ha, he⟩ | ⟨-, ha, he⟩
  · rw [he, advanced_eq_self hf]
  · rw [he, RowRegs.moved, if_pos ha, Spec.advanced]
    dsimp only
    rw [if_pos (show Spec.shiftOf s.row < 8 from ha)]
    rfl
  · have hcarry : 8 ≤ Spec.shiftOf s.row := ha
    have haddr := RowRegs.moved_srcAddr hcarry
    have hok : State.busAnswer { s with row := s.row.moved } .read s.row.moved.srcAddr 1 = .ok := by
      rw [haddr]
      exact h hcarry
    have hdone : loadDone { s with row := s.row.moved } = Spec.advanced s := by
      unfold Spec.advanced loadDone
      dsimp only
      rw [if_neg (Nat.not_lt.2 hcarry), haddr, RowRegs.moved_of_carry hcarry]
      rfl
    rw [he, loadSrcByte_of_ok hok, hdone]

theorem advanced_same (s : State) :
    SameButRow s (Spec.advanced s) ∧ (Spec.advanced s).status = s.status ∧ (Spec.advanced s).mem = s.mem ∧
      (Spec.advanced s).row.acc = s.row.acc ∧ (Spec.advanced s).row.wCount = s.row.wCount ∧
      (Spec.advanced s).row.unitIdx = s.row.unitIdx := by
  unfold Spec.advanced
  dsimp only
  split <;> exact ⟨by constructor <;> rfl, rfl, rfl, rfl, rfl, rfl⟩

/-! ### Where the engine waits -/

/-- The engine waits from here on, in SAMPLE, ROW_FINISH and a step of the loop alike (R129). -/
theorem sampleStep_hung {s t : State} (ha : s.status.rowActive = true) (hg : sampleStep s = .ends t)
    (ht : t.engine = .hung) :
    exec .sample s = .next t ∧ exec .rowFinish s = .next t ∧ (s.engine = .sampling → engineStep s = t) := by
  have hsample : beginSample s = t := by rw [beginSample, if_pos ha, hg]
  have hloop : loopStep s = t := by rw [loopStep, hg]
  have hfinish : beginRowFinish s = t := by rw [beginRowFinish, if_pos ha, hloop]
  refine ⟨?_, ?_, fun he => ?_⟩
  · rw [exec_eq_continueFor, beginInstr, hsample, continueFor_hung _ ht]
  · rw [exec_eq_continueFor, beginInstr, hfinish, continueFor_hung _ ht]
  · rw [engineStep_eq_continueStep (by simp [he]), continueStep_sampling he, hloop]

/-- A reload that is never answered: step 4a has moved the cursor and no byte is loaded (R129, R165). -/
theorem sampleStep_reload_never {s : State} (hcarry : 8 ≤ Spec.shiftOf s.row)
    (hnever : s.busAnswer .read (Spec.reloadAddr s.row) 1 = .never) :
    sampleStep s = .ends (State.hang { s with row := s.row.moved }) := by
  rw [← RowRegs.moved_srcAddr hcarry] at hnever
  refine sampleStep_eq_ends.2 (.inl ?_)
  rw [advanceCursor_of_carry hcarry, loadSrcByte_of_never (by exact hnever)]

/-- The registers of a row after its source bit is appended (R165, R180, R181). -/
theorem append_srcBit (r : RowRegs) :
    r.append r.srcBit = { r with acc := Spec.accWith r, wCount := r.wCount + 1 } := rfl

/-- The state of a sample step whose unit is full and not yet stored (R165, R181). -/
def State.unitFull (s : State) : State :=
  { Spec.advanced s with row := (Spec.advanced s).row.append (Spec.advanced s).row.srcBit }

/-- A full unit is stored where the write cursor stood before the step (R182). -/
theorem State.unitFull_unit (s : State) :
    s.unitFull.row.unitAddr = Spec.unitAddr s.row ∧ s.unitFull.row.unitBytes = unitBytes s.row.lUnit32 ∧
      s.unitFull.row.unitData = Spec.unitData s.row.lUnit32 (Spec.accWith (Spec.advanced s).row) := by
  obtain ⟨hsame, -, -, -, -, hidx⟩ := advanced_same s
  obtain ⟨haddr, hbytes⟩ := hsame.unitAddr hidx
  refine ⟨haddr, hbytes, ?_⟩
  rw [← hsame.lUnit32]
  rfl

/-- The store of a full unit that is never answered (R129, R182). -/
theorem sampleStep_store_never {s : State} (hserved : Spec.AdvanceServed s)
    (hfull : s.row.wCount.toNat + 1 = unitBits s.row.lUnit32)
    (hnever : s.busAnswer .write (Spec.unitAddr s.row) (unitBytes s.row.lUnit32) = .never) :
    sampleStep s = .ends (flushHung s.unitFull) := by
  obtain ⟨hsame, -, -, -, hw, -⟩ := advanced_same s
  obtain ⟨haddr, hbytes, -⟩ := s.unitFull_unit
  refine sampleStep_eq_ends.2 (.inr ⟨_, advanceCursor_served hserved, ?_⟩)
  have hcount : s.unitFull.row.wCount.toNat = (Spec.advanced s).row.unitBits := by
    change ((Spec.advanced s).row.wCount + 1).toNat = unitBits (Spec.advanced s).row.lUnit32
    have hle := s.row.unitBits_le
    rw [RowRegs.unitBits] at hle
    rw [hw, hsame.lUnit32, BitVec.toNat_add, ← hfull, show (1 : BitVec 6).toNat = 1 from rfl]
    exact Nat.mod_eq_of_lt (by omega)
  have hbus : s.unitFull.busAnswer .write s.unitFull.row.unitAddr s.unitFull.row.unitBytes = .never := by
    rw [haddr, hbytes, busAnswer_congr (show s.unitFull.platform = s.platform from hsame.platform)]
    exact hnever
  rcases packBit_cases (Spec.advanced s).row.srcBit (Spec.advanced s) with ⟨-, hp⟩ | ⟨hne, -⟩
  · rw [hp]
    exact flushUnit_of_never hbus
  · exact absurd hcount hne

/-- Without a race, a store that is never answered has stored the unit or nothing (log 19). -/
theorem flushHung_mem_of_not_raced {s : State} (h : s.raced = []) :
    (flushHung s).mem = s.mem ∨ (flushHung s).mem = s.mem.writeList s.row.unitAddr s.row.unitData := by
  rcases flushHung_mem s with hm | hm
  · exact .inl hm
  · rw [State.storeBytes_of_not_raced (by exact h)] at hm
    exact .inr hm

/-- The first source byte of a row that passed its checks (R160, R164). -/
theorem latched_srcAddr {s : State} {y : Nat} (hc : Spec.ChecksPass s.par s.cfg y) :
    (s.latched y).row.srcAddr = Spec.firstSrc s.cfg y := by
  obtain ⟨-, hgeom, -⟩ := hc
  obtain ⟨hpos, -⟩ := wrapSplit_bounds s.cfg.offsetFx (width := s.cfg.srcWidth.toNat)
    (Nat.pos_of_ne_zero fun h => hgeom (.inl h))
  have hwidth := s.cfg.srcWidth.isLt
  have hbyte : (BitVec.ofNat 16 (Spec.wrapped s.cfg / 65536 / 8)).toNat = Spec.wrapped s.cfg / 65536 / 8 := by
    have hoff : (wrapSplit s.cfg.offsetFx s.cfg.srcWidth.toNat).byteOffset = Spec.wrapped s.cfg / 65536 / 8 := rfl
    rw [BitVec.toNat_ofNat, Nat.mod_eq_of_lt (by omega)]
  change Spec.srcRow s.cfg y + (BitVec.ofNat 16 (Spec.wrapped s.cfg / 65536 / 8)).setWidth 32 = _
  rw [Spec.firstSrc, ← BitVec.ofNat_toNat, hbyte]

/-- The first read of a row that is never answered, in ROW_SETUP and ROW_RUN alike (R129, R160). -/
theorem exec_setup_never {s : State} {y : Nat} {i : Instr} (hi : i = .rowSetup y ∨ i = .rowRun y)
    (hc : Spec.ChecksPass s.par s.cfg y) (hnever : s.busAnswer .read (Spec.firstSrc s.cfg y) 1 = .never) :
    exec i s = .next (s.latched y).hang := by
  have hbody : rowSetupBody y s = .ends (s.latched y).hang := by
    rw [← latched_srcAddr hc] at hnever
    rcases rowSetupBody_cases y s with ⟨code, he, -⟩ | ⟨-, ⟨he, -⟩ | ⟨he, -⟩ | ⟨-, he⟩⟩
    · rw [rowChecks_of_checksPass hc] at he; cases he
    · rw [hnever] at he; cases he
    · rw [hnever] at he; cases he
    · exact he
  have hbegin : beginInstr i s = (s.latched y).hang := by
    rcases hi with rfl | rfl <;> rw [beginInstr]
    · rw [beginRowSetup_eq_finish, hbody, Body.finish]
    · rw [beginRowRun_eq_finish, hbody, Body.finish]
  rw [exec_eq_continueFor, hbegin, continueFor_hung _ rfl]

/-! ### The statement -/

/-- Settles O38: the reload, the store and the first read hang the engine where they stand, and a hung engine stays. -/
theorem unansweredTransactionStalls : Obligations.UnansweredTransactionStalls := by
  refine ⟨fun s ha hcarry hnever => ?_, fun s ha hserved hfull hnever => ?_, fun s y i hi hc hnever => ?_,
    fun s n he => ?_⟩
  · have hx := sampleStep_hung ha (sampleStep_reload_never hcarry hnever) rfl
    rwa [RowRegs.moved_of_carry hcarry] at hx
  · obtain ⟨hsame, hst, hmem, -, hw, -⟩ := advanced_same s
    obtain ⟨haddr, -, hdata⟩ := s.unitFull_unit
    have hg := sampleStep_store_never hserved hfull hnever
    obtain ⟨hsample, hfinish, hloop⟩ := sampleStep_hung ha hg (flushHung_engine s.unitFull)
    refine ⟨_, hsample, hfinish, hloop, flushHung_engine _, (flushHung_status _).trans hst,
      (flushHung_cfg _).trans hsame.cfg, ?_, fun hraced => ?_, fun a hne => ?_⟩
    · rw [flushHung_row, ← hw]
      exact append_srcBit _
    · have hm := flushHung_mem_of_not_raced (s := s.unitFull) (hsame.raced.trans hraced)
      rwa [haddr, hdata, show s.unitFull.mem = s.mem from hmem] at hm
    · obtain ⟨-, -, hframe, -⟩ := sampleStep_confined s
      rw [hg] at hframe
      exact hframe a hne
  · exact exec_setup_never hi hc hnever
  · rw [engineSteps_eq_continueFor n (by simp [he]), continueFor_hung n he]

end Sys2Proof.Machine
end

section
/-! PROOF. The fixed-point scaler (41_fixed_point_scaler.md R141, R142, R144, R146): its two conversions, the rounding
they use, and the wrapped offset. -/

namespace Sys2Proof

theorem Instr.row_eq_zero {i : Instr} (ht : i.takesRow = false) : i.row = 0 := by
  cases i <;> simp [Instr.row, Instr.takesRow] at ht ⊢

/-- The words of a command that ignores ROW are those that hold its encoding in their low half (R102, R104). -/
theorem decode_ok_iff_low {i : Instr} (ht : i.takesRow = false) (w : Word) :
    decode w = .ok i ↔ w &&& 0x0000FFFF = encode i := by
  refine ⟨fun h => (encode_of_decode_masked h ht).symm, fun h => ?_⟩
  have hrow := Instr.row_eq_zero ht
  have hop := i.op_lt
  have hlow : w.toNat % 65536 = i.op := by
    rw [← toNat_and_low, h, encode_toNat (i.wellFormed_iff_row_lt.2 (by omega)), hrow, Nat.zero_mul, Nat.zero_add]
  refine decode_of_fields ?_ ?_ (by simp [ht])
  · rw [rsvdField_eq_zero_iff]
    omega
  · rw [opField_toNat]
    omega

end Sys2Proof

namespace Sys2Proof.Machine

/-! ### The conversions -/

/-- CVT_SCALE writes SCALE_FX where the rule accepts SCALE_F32, and raises ERR_SCALE where it does not (R142, R205). -/
theorem exec_cvtScale (s : State) : exec .cvtScale s = .next (
    if Spec.ScaleAccepted s.cfg.scaleF32 then Spec.done { s with cfg := { s.cfg with
      scaleFx := BitVec.ofNat 32 (roundMag (decodeF32 s.cfg.scaleF32).mag (decodeF32 s.cfg.scaleF32).exp) } }
    else Spec.failed 4 s) := by
  rw [exec, execCvtScale, beginCvtScale, scaleOfF32_eq]
  by_cases h : Spec.ScaleAccepted s.cfg.scaleF32
  · rw [if_pos h, if_pos h]
    rfl
  · rw [if_neg h, if_neg h]
    rfl

/-- CVT_OFFSET writes OFFSET_FX where the rule accepts OFFSET_F32, and raises ERR_RANGE where it does not (R144, R205). -/
theorem exec_cvtOffset (s : State) : exec .cvtOffset s = .next (
    if Spec.OffsetAccepted s.cfg.offsetF32 then Spec.done { s with cfg := { s.cfg with
      offsetFx := BitVec.ofInt 32 (Spec.truncated s.cfg.offsetF32) } }
    else Spec.failed 6 s) := by
  rw [exec, execCvtOffset, beginCvtOffset, offsetOfF32_eq]
  by_cases h : Spec.OffsetAccepted s.cfg.offsetF32
  · rw [if_pos h, if_pos h]
    rfl
  · rw [if_neg h, if_neg h]
    rfl

/-- Settles O24: the two cases are those of the rule's acceptance, and the word's low half is the encoding. -/
theorem cvtScaleFollowsRule : Obligations.CvtScaleFollowsRule := by
  refine ⟨fun s => ⟨fun hcls hneg hmag hlo hhi => ?_, fun h => ?_⟩, decode_ok_iff_low rfl⟩ <;> rw [exec_cvtScale]
  · rw [if_pos ⟨hcls, hneg, hmag, hlo, hhi⟩]
  · rw [if_neg]
    rintro ⟨hcls, hneg, hmag, hlo, hhi⟩
    rcases h with h | h | h | h | h
    · exact h hcls
    · exact Bool.false_ne_true (hneg.symm.trans h)
    · exact hmag h
    · exact absurd hlo (not_le.2 h)
    · exact absurd hhi (not_le.2 h)

/-- Settles O25: the two cases are those of the rule's acceptance, and the word's low half is the encoding. -/
theorem cvtOffsetFollowsRule : Obligations.CvtOffsetFollowsRule := by
  refine ⟨fun s => ⟨fun hcls hlo hhi => ?_, fun h => ?_⟩, decode_ok_iff_low rfl⟩ <;> rw [exec_cvtOffset]
  · rw [if_pos ⟨hcls, hlo, hhi⟩]
    rfl
  · rw [if_neg]
    rintro ⟨hcls, hlo, hhi⟩
    rcases h with h | h | h
    · exact h hcls
    · exact absurd hlo (not_le.2 h)
    · exact absurd hhi (not_le.2 h)

/-! ### The rounding -/

theorem truncMag_of_nonneg {k : Int} (h : 0 ≤ k) (m : Nat) : truncMag m k = m * 2 ^ k.toNat := if_pos h

theorem roundMag_of_nonneg {k : Int} (h : 0 ≤ k) (m : Nat) : roundMag m k = m * 2 ^ k.toNat := if_pos h

theorem truncMag_of_neg {k : Int} (h : k < 0) (m : Nat) : truncMag m k = m / 2 ^ (-k).toNat := if_neg (not_le.2 h)

/-- Below an exponent of 0 RoundMag adds half the divisor and takes the floor (R141). -/
theorem roundMag_of_neg {k : Int} (h : k < 0) (m : Nat) :
    roundMag m k = (m + 2 ^ (-k).toNat / 2) / 2 ^ (-k).toNat := by
  have hhalf : 2 ^ (-k).toNat / 2 = 2 ^ ((-k).toNat - 1) := Nat.pow_div (show 1 ≤ (-k).toNat by omega) two_pos
  rw [hhalf]
  exact if_neg (not_le.2 h)

/-- Settles O26: both are floors by the same divisor, RoundMag's after adding half of it, which is exact for a positive
power of two. -/
theorem magnitudesRoundAsStated : Obligations.MagnitudesRoundAsStated := by
  refine fun m k => ⟨fun h => ⟨truncMag_of_nonneg h m, roundMag_of_nonneg h m⟩, fun h => ?_⟩
  rw [truncMag_of_neg h, roundMag_of_neg h]
  have heven : 2 ^ (-k).toNat / 2 * 2 = 2 ^ (-k).toNat := Nat.div_mul_cancel (dvd_pow_self 2 (by omega))
  have hpos : 0 < 2 ^ (-k).toNat := Nat.two_pow_pos _
  have hlo := Nat.div_mul_le_self (m + 2 ^ (-k).toNat / 2) (2 ^ (-k).toNat)
  have hhi := Nat.lt_mul_of_div_lt (Nat.lt_add_one ((m + 2 ^ (-k).toNat / 2) / 2 ^ (-k).toNat)) hpos
  refine ⟨Nat.div_mul_le_self m _, Nat.lt_mul_of_div_lt (Nat.lt_add_one _) hpos, ?_, ?_⟩
  · rw [Nat.mul_assoc]
    omega
  · rw [Nat.mul_assoc]
    omega

/-! ### The wrapped offset -/

/-- WrapSplit's parts, put together again, are the offset's floor modulo the row width (R146). -/
theorem wrapSplit_value (x : Word) {width : Nat} (h : 0 < width) :
    ((wrapSplit x width).byteOffset * 8 + (wrapSplit x width).bitOffset : Int) * 65536 +
      (wrapSplit x width).fracFixed = x.toInt % (width * 65536) := by
  have hnonneg := Int.emod_nonneg x.toInt (b := (width * 65536 : Int)) (by omega)
  unfold wrapSplit
  push_cast
  omega

/-- Settles O28: the offset is the quotient's multiple of the row width and the remainder that WrapSplit splits. -/
theorem wrapSplitLandsInRow : Obligations.WrapSplitLandsInRow := by
  intro x width h
  obtain ⟨hpos, hfrac⟩ := wrapSplit_bounds x h
  refine ⟨hpos, Nat.mod_lt _ (by decide), hfrac, x.toInt / (width * 65536), ?_⟩
  rw [wrapSplit_value x h, Int.ediv_mul_add_emod]

end Sys2Proof.Machine
end

section
/-! PROOF. ROW_SETUP, and the checks and the first read it shares with ROW_RUN (42_scanline_resampler.md R160 to
R164). -/

namespace Sys2Proof.Machine

/-! ### Commands whose first engine step ends their body -/

/-- A body that its first engine step has ended is completed by the next (R127, R128). -/
theorem exec_completing {i : Instr} {s t : State} {c : Option (CvtTarget × Word)} (hbound : 2 ≤ stepBound s.par i)
    (hbegin : beginInstr i s = t) (ht : t.engine = .completing c) : exec i s = .next (Spec.done t) := by
  obtain ⟨n, hn⟩ := Nat.exists_eq_add_of_le' hbound
  rw [exec_eq_continueFor, hn, hbegin]
  exact congrArg Host.Outcome.next (continueFor_completing n ht)

/-- A setup that ends the body ends ROW_SETUP and ROW_RUN alike (R163, R164). -/
theorem exec_setup_ends {s t : State} {y : Nat} {i : Instr} (hi : i = .rowSetup y ∨ i = .rowRun y)
    (hbody : rowSetupBody y s = .ends t) (ht : t.engine = .completing none) : exec i s = .next (Spec.done t) := by
  rcases hi with rfl | rfl
  · exact exec_completing le_rfl (by rw [beginInstr, beginRowSetup_eq_finish, hbody, Body.finish]) ht
  · exact exec_completing (Nat.le_add_left 2 _) (by rw [beginInstr, beginRowRun_eq_finish, hbody, Body.finish]) ht

/-! ### The checks -/

/-- The order of the checks, in the words of the rules (R162, R202). -/
theorem rowChecks_eq (p : Params) (c : ConfigRegs) (y : Nat) : rowChecks p c y =
    if p.rows.toNat ≤ y then some .row
    else if Spec.GeomBad c then some .geom
    else if Spec.ScaleBad c then some .scale
    else if Spec.AlignBad c then some .align
    else none := by
  have hscale : (badScale c = true) = Spec.ScaleBad c := decide_eq_true_eq
  simp only [rowChecks, badGeometry, hscale, badAlign, decide_eq_true_eq, Bool.and_eq_true]

/-- A failed check raises its code and leaves everything else (R163). -/
theorem exec_setup_refused {s : State} {y : Nat} {i : Instr} {code : ErrCode}
    (hi : i = .rowSetup y ∨ i = .rowRun y) (hc : rowChecks s.par s.cfg y = some code) :
    exec i s = .next (Spec.failed code.number s) :=
  exec_setup_ends hi (t := s.raiseError code) (by rw [rowSetupBody, hc]) rfl

/-- Settles O31: of the checks in their order, the first that applies gives the code. -/
theorem failedChecksChangeNothing : Obligations.FailedChecksChangeNothing := by
  refine fun s y i hi => ⟨fun hrow => ?_, fun hrow hgeom => ?_, fun hrow hgeom hscale => ?_,
    fun hrow hgeom hscale halign => ?_⟩
  · exact exec_setup_refused (code := .row) hi (by rw [rowChecks_eq, if_pos hrow])
  · exact exec_setup_refused (code := .geom) hi (by rw [rowChecks_eq, if_neg (Nat.not_le.2 hrow), if_pos hgeom])
  · exact exec_setup_refused (code := .scale) hi
      (by rw [rowChecks_eq, if_neg (Nat.not_le.2 hrow), if_neg hgeom, if_pos hscale])
  · exact exec_setup_refused (code := .align) hi
      (by rw [rowChecks_eq, if_neg (Nat.not_le.2 hrow), if_neg hgeom, if_neg hscale, if_pos halign])

/-! ### The first read -/

theorem loadSrcByte_of_error {s : State} (h : s.busAnswer .read s.row.srcAddr 1 = .error) :
    loadSrcByte s = .ends s.raiseBusError := by
  rw [loadSrcByte, h]

/-- With the checks passed the body of ROW_SETUP is its read and ROW_ACTIVE's write (R160). -/
theorem rowSetupBody_of_checksPass {s : State} {y : Nat} (hc : Spec.ChecksPass s.par s.cfg y) :
    rowSetupBody y s = (loadSrcByte (s.latched y)).andThen fun t =>
      .goes { t with status := { t.status with rowActive := true } } := by
  rw [rowSetupBody, rowChecks_of_checksPass hc]
  rfl

/-- With the checks passed and the first read performed the row is set up (R160, R164). -/
theorem rowSetupBody_of_ok {s : State} {y : Nat} (hc : Spec.ChecksPass s.par s.cfg y)
    (hok : s.busAnswer .read (Spec.firstSrc s.cfg y) 1 = .ok) : rowSetupBody y s = .goes (s.rowStarted y) := by
  rw [← latched_srcAddr hc] at hok
  rw [rowSetupBody_of_checksPass hc, loadSrcByte_of_ok (by exact hok)]
  rfl

/-- With the checks passed a bus error on the first read ends the setup with its registers written (R164, R206). -/
theorem rowSetupBody_of_error {s : State} {y : Nat} (hc : Spec.ChecksPass s.par s.cfg y)
    (herror : s.busAnswer .read (Spec.firstSrc s.cfg y) 1 = .error) :
    rowSetupBody y s = .ends (s.latched y).raiseBusError := by
  rw [← latched_srcAddr hc] at herror
  rw [rowSetupBody_of_checksPass hc, loadSrcByte_of_error (by exact herror)]
  rfl

/-- The state of a row that is set up, with R160's registers and the first byte loaded. -/
theorem rowStarted_eq {s : State} {y : Nat} (hc : Spec.ChecksPass s.par s.cfg y) :
    s.rowStarted y = { s.afterRead (Spec.firstSrc s.cfg y) with
      row := { Spec.setupRow s.par s.cfg y s.row with srcByte := s.seen (Spec.firstSrc s.cfg y) }
      status := { s.status with rowActive := true } } := by
  rw [State.rowStarted, loadDone, latched_srcAddr hc]
  rfl

/-- ROW_SETUP of a row that can be set up is the setup and completion (R160). -/
theorem exec_rowSetup_goes {s t : State} {y : Nat} (hbody : rowSetupBody y s = .goes t) :
    exec (.rowSetup y) s = .next (Spec.done t) :=
  exec_completing le_rfl (t := t.endBody) (by rw [beginInstr, beginRowSetup_eq_finish, hbody, Body.finish]) rfl

/-- Settles O29: the setup goes on, and its state is the one of R160's list. -/
theorem rowSetupLatchesRow : Obligations.RowSetupLatchesRow := by
  intro s y hc hok
  rw [exec_rowSetup_goes (rowSetupBody_of_ok hc hok), rowStarted_eq hc]

/-- Settles O32: a bus error on the first read comes after the registers of R160's list are written. -/
theorem setupReadBusError : Obligations.SetupReadBusError := fun _ _ _ hi hc herror =>
  exec_setup_ends hi (t := (State.latched _ _).raiseBusError) (rowSetupBody_of_error hc herror) rfl

/-! ### The selected source row -/

/-- However the first read ends, a row that passed its checks has its source row selected (R160, R164). -/
theorem beginRowSetup_srcRowIdx {s : State} {y : Nat} (hc : Spec.ChecksPass s.par s.cfg y) :
    (beginRowSetup y s).row.srcRowIdx = BitVec.ofNat 16 ((s.cfg.vOff.toNat + y) % s.cfg.srcHeight.toNat) := by
  rw [beginRowSetup_eq_finish, rowSetupBody_of_checksPass hc]
  rcases loadSrcByte_cases (s.latched y) with ⟨-, hl⟩ | ⟨-, hl⟩ | ⟨-, hl⟩ <;> rw [hl] <;> rfl

/-- The first engine step of ROW_SETUP ends its body (R128). -/
theorem beginRowSetup_ended (y : Nat) (s : State) : (beginRowSetup y s).engine.Ended := by
  rw [beginRowSetup_eq_finish]
  cases hb : rowSetupBody y s with
  | goes t => exact .inl ⟨none, rfl⟩
  | ends t => exact rowSetupBody_ended hb

/-- Settles O30: completion keeps the selected row, and a remainder by the 16-bit height fits its register. -/
theorem selectedRowIsInBitmap : Obligations.SelectedRowIsInBitmap := by
  intro s t y hc h
  have hidx : t.row.srcRowIdx = BitVec.ofNat 16 ((s.cfg.vOff.toNat + y) % s.cfg.srcHeight.toNat) := by
    rw [exec_eq_continueFor, beginInstr] at h
    cases h
    rcases continueFor_ended _ (beginRowSetup_ended y s) with he | he <;> rw [he]
    · exact beginRowSetup_srcRowIdx hc
    · exact beginRowSetup_srcRowIdx hc
  obtain ⟨-, hgeom, -⟩ := hc
  have hpos : 0 < s.cfg.srcHeight.toNat := Nat.pos_of_ne_zero fun h0 => hgeom (.inr (.inr (.inl h0)))
  have hlt := Nat.mod_lt (s.cfg.vOff.toNat + y) hpos
  have hheight := s.cfg.srcHeight.isLt
  rw [hidx, BitVec.toNat_ofNat, Nat.mod_eq_of_lt (by omega)]
  exact ⟨rfl, hlt⟩

end Sys2Proof.Machine
end

section
/-! PROOF. SAMPLE, and the sample step of ROW_FINISH's and ROW_RUN's loop (42_scanline_resampler.md R165 to R168,
43_bit_packer.md R180 to R184). -/

namespace Sys2Proof.Machine

/-! ### Without an active row -/

/-- A row has a sample, so ROW_FINISH has a step for its completion after its first (R129). -/
theorem two_le_stepBound_rowFinish {p : Params} (hp : p.wf) : 2 ≤ stepBound p .rowFinish := by
  have := rowSize_pos hp
  rw [stepBound, numSamples]
  omega

/-- Settles O33: both commands raise ERR_NOROW in their first step. -/
theorem noActiveRowIsRefused : Obligations.NoActiveRowIsRefused := by
  intro s i hp hi ha
  rcases hi with rfl | rfl
  · have hbegin : beginSample s = s.raiseError .noRow := by simp [beginSample, ha]
    exact exec_completing (t := s.raiseError .noRow) le_rfl hbegin rfl
  · have hbegin : beginRowFinish s = s.raiseError .noRow := by simp [beginRowFinish, ha]
    exact exec_completing (t := s.raiseError .noRow) (two_le_stepBound_rowFinish hp) hbegin rfl

/-! ### Stores and the registers of the row -/

/-- A store looks at memory, the races and the draws only. -/
theorem State.storeBytes_with (s : State) (r : RowRegs) (st : Status) (e : Engine) (l : List StoredUnit) (a : Word)
    (vs : List Byte) : State.storeBytes { s with row := r, status := st, engine := e, stored := l } a vs =
      { s.storeBytes a vs with row := r, status := st, engine := e, stored := l } := by
  induction vs generalizing s a with
  | nil => rfl
  | cons v vs ih =>
    have hbyte : State.storeByte { s with row := r, status := st, engine := e, stored := l } a v =
        { s.storeByte a v with row := r, status := st, engine := e, stored := l } := by
      unfold State.storeByte
      rw [show State.isRaced { s with row := r, status := st, engine := e, stored := l } a = s.isRaced a from rfl]
      split <;> rfl
    rw [State.storeBytes, hbyte, ih, State.storeBytes]

theorem State.storeBytes_withRow (s : State) (r : RowRegs) (a : Word) (vs : List Byte) :
    State.storeBytes { s with row := r } a vs = { s.storeBytes a vs with row := r } := by
  simpa only [storeBytes_status, storeBytes_engine, storeBytes_stored] using
    s.storeBytes_with r s.status s.engine s.stored a vs

/-- A performed flush: the unit's bytes are stored, the registers flushed, and ROW_ACTIVE falls with the last unit
(R182, R184). -/
theorem flushDone_eq (s : State) : flushDone s =
    { (s.storeBytes s.row.unitAddr s.row.unitData).noteUnit s.cursorUnit with
      row := s.row.flushed
      status := { s.status with
        rowActive := s.status.rowActive && !decide ((s.row.unitIdx + 1).toNat = numUnits s.par s.row.lUnit32) } } := by
  rw [flushDone, rowDoneCheck, State.storeBytes_noteUnit]
  simp only [State.noteUnit_par, State.storeBytes_par, RowRegs.flushed_unitIdx, RowRegs.flushed_lUnit32,
    State.noteUnit_status, State.storeBytes_status]
  by_cases h : (s.row.unitIdx + 1).toNat = numUnits s.par s.row.lUnit32
  · simp only [if_pos h, decide_eq_true h, Bool.not_true, Bool.and_false]
  · simp only [if_neg h, decide_eq_false h, Bool.not_false, Bool.and_true]

/-! ### Sample steps whose cursor move goes on -/

/-- WCOUNT holds every count a full unit can have, so it shows N exactly where N samples are counted (R60). -/
theorem wCount_succ_eq_unitBits (w : BitVec 6) (b : Bool) : (w + 1).toNat = unitBits b ↔ w.toNat + 1 = unitBits b := by
  have hw := w.isLt
  rw [BitVec.toNat_add, show (1 : BitVec 6).toNat = 1 from rfl]
  rcases unitBits_cases b with ⟨-, h⟩ | ⟨-, h⟩ <;> rw [h] <;> omega

/-- The packer's test for a full unit, in the registers before the step (R181). -/
theorem advanced_append_full (s : State) :
    ((Spec.advanced s).row.append (Spec.advanced s).row.srcBit).wCount.toNat = (Spec.advanced s).row.unitBits ↔
      s.row.wCount.toNat + 1 = unitBits s.row.lUnit32 := by
  obtain ⟨hsame, -, -, -, hw, -⟩ := advanced_same s
  rw [RowRegs.append_wCount, RowRegs.unitBits, hw, hsame.lUnit32]
  exact wCount_succ_eq_unitBits s.row.wCount s.row.lUnit32

/-- A served sample that does not fill its unit is appended, and the step goes on (R165, R181). -/
theorem sampleStep_appends {s : State} (hserved : Spec.AdvanceServed s)
    (hw : s.row.wCount.toNat + 1 ≠ unitBits s.row.lUnit32) :
    sampleStep s = .goes (addScale { Spec.advanced s with
      row := (Spec.advanced s).row.append (Spec.advanced s).row.srcBit }) := by
  refine sampleStep_eq_goes.2 ⟨_, _, advanceCursor_served hserved, ?_, rfl⟩
  rcases packBit_cases (Spec.advanced s).row.srcBit (Spec.advanced s) with ⟨hfull, -⟩ | ⟨-, hp⟩
  · exact absurd ((advanced_append_full s).1 hfull) hw
  · exact hp

/-- A served sample that fills its unit flushes it (R165, R181). -/
theorem sampleStep_fills {s : State} (hserved : Spec.AdvanceServed s)
    (hfull : s.row.wCount.toNat + 1 = unitBits s.row.lUnit32) :
    sampleStep s = (flushUnit s.unitFull).andThen fun t => .goes (addScale t) := by
  have hpack : packBit (Spec.advanced s).row.srcBit (Spec.advanced s) = flushUnit s.unitFull := by
    rcases packBit_cases (Spec.advanced s).row.srcBit (Spec.advanced s) with ⟨-, hp⟩ | ⟨hne, -⟩
    · exact hp
    · exact absurd ((advanced_append_full s).2 hfull) hne
  rw [sampleStep, advanceCursor_served hserved, Body.andThen_goes, hpack]

/-- The platform's answer to the store of a full unit, in the registers before the step (R182). -/
theorem State.unitFull_busAnswer (s : State) :
    s.unitFull.busAnswer .write s.unitFull.row.unitAddr s.unitFull.row.unitBytes =
      s.busAnswer .write (Spec.unitAddr s.row) (unitBytes s.row.lUnit32) := by
  obtain ⟨hsame, -⟩ := advanced_same s
  obtain ⟨haddr, hbytes, -⟩ := s.unitFull_unit
  rw [haddr, hbytes]
  exact busAnswer_congr hsame.platform ..

theorem flushUnit_of_ok {s : State} (h : s.busAnswer .write s.row.unitAddr s.row.unitBytes = .ok) :
    flushUnit s = .goes (flushDone s) := by
  rw [flushUnit, h]

theorem flushUnit_of_error {s : State} (h : s.busAnswer .write s.row.unitAddr s.row.unitBytes = .error) :
    flushUnit s = .ends (flushFailed s) := by
  rw [flushUnit, h]

/-- Settles O34: the appended sample's step goes on, and step 4a keeps WCOUNT and the latches. -/
theorem sampleAppendsOneBit : Obligations.SampleAppendsOneBit := by
  intro s ha hserved hw
  obtain ⟨hsame, -, -, -, hcount, -⟩ := advanced_same s
  rw [exec_sample_goes ha (sampleStep_appends hserved hw), ← hcount, ← hsame.lScale]
  rfl

/-- Settles O35: the full unit's step goes on past its store, and completion forgets the unit that was stored. -/
theorem sampleFlushesFullUnit : Obligations.SampleFlushesFullUnit := by
  intro s ha hserved hfull hok
  obtain ⟨hsame, hst, -, -, -, hidx⟩ := advanced_same s
  obtain ⟨haddr, -, hdata⟩ := s.unitFull_unit
  have hg : sampleStep s = .goes (addScale (flushDone s.unitFull)) := by
    rw [sampleStep_fills hserved hfull, flushUnit_of_ok (s.unitFull_busAnswer.trans hok), Body.andThen_goes]
  rw [exec_sample_goes ha hg, flushDone_eq, haddr, hdata, ← hidx, ← hsame.lScale, ← hsame.par, ← hsame.lUnit32,
    State.unitFull, State.storeBytes_withRow]
  simp only [hst, ha, Bool.true_and]
  rfl

/-! ### Bus errors -/

/-- A sample step that a bus error ends, in SAMPLE, in ROW_FINISH and in a step of the loop alike (R165, R206). -/
theorem sampleStep_completing {s t : State} (hp : s.par.wf) (ha : s.status.rowActive = true)
    (hg : sampleStep s = .ends t) (ht : t.engine = .completing none) :
    exec .sample s = .next (Spec.done t) ∧ exec .rowFinish s = .next (Spec.done t) ∧
      (s.engine = .sampling → engineStep s = t) := by
  have hsample : beginSample s = t := by rw [beginSample, if_pos ha, hg]
  have hloop : loopStep s = t := by rw [loopStep, hg]
  have hfinish : beginRowFinish s = t := by rw [beginRowFinish, if_pos ha, hloop]
  refine ⟨exec_completing le_rfl hsample ht, exec_completing (two_le_stepBound_rowFinish hp) hfinish ht, fun he => ?_⟩
  rw [engineStep_eq_continueStep (by simp [he]), continueStep_sampling he, hloop]

/-- Settles O36: the reload comes after step 4a has moved the cursor, and its error ends the step. -/
theorem sampleReloadBusError : Obligations.SampleReloadBusError := by
  intro s hp ha hcarry herror
  have hg : sampleStep s = .ends (State.raiseBusError { s with row := s.row.moved }) := by
    rw [← RowRegs.moved_srcAddr hcarry] at herror
    refine sampleStep_eq_ends.2 (.inl ?_)
    rw [advanceCursor_of_carry hcarry, loadSrcByte_of_error (by exact herror)]
  rw [RowRegs.moved_of_carry hcarry] at hg
  exact sampleStep_completing hp ha hg rfl

/-- Settles O37: the failed store leaves the full unit's registers, and writes nothing outside the unit. -/
theorem sampleStoreBusError : Obligations.SampleStoreBusError := by
  intro s hp ha hserved hfull herror
  obtain ⟨hsame, hst, -, -, hw, -⟩ := advanced_same s
  have hg : sampleStep s = .ends (flushFailed s.unitFull) := by
    rw [sampleStep_fills hserved hfull, flushUnit_of_error (s.unitFull_busAnswer.trans herror), Body.andThen_ends]
  obtain ⟨hsample, hfinish, hloop⟩ := sampleStep_completing hp ha hg rfl
  refine ⟨_, hsample, hfinish, hloop, ?_, ?_, rfl, (flushFailed_cfg _).trans hsame.cfg, fun a hne => ?_⟩
  · rw [flushFailed_row, ← hw]
    exact append_srcBit _
  · rw [flushFailed_status, show s.unitFull.status = s.status from hst]
    rfl
  · obtain ⟨-, -, hframe, -⟩ := sampleStep_confined s
    rw [hg] at hframe
    exact hframe a hne

end Sys2Proof.Machine
end

section
/-! PROOF. Whole rows (42_scanline_resampler.md R168 to R172, R186): the sample steps of a row in a chain, which ROW_RUN
and ROW_FINISH run in their loop and SAMPLE takes one by one, and the pixels and bytes they leave. -/

namespace Sys2Proof.Machine

/-! ### A sample step does not depend on the engine's progress -/

/-- The state with another progress of the engine through its command: the lifecycle bits, the engine's place, and the
units the command has stored. -/
def State.withProgress (s : State) (busy done : Bool) (e : Engine) (l : List StoredUnit) : State :=
  { s with status := { s.status with busy := busy, done := done }, engine := e, stored := l }

/-- A completed command has no progress, where no access raced. -/
theorem done_eq_withProgress {s : State} (h : s.raced = []) : Spec.done s = s.withProgress false true .idle [] := by
  rw [Spec.done, State.withProgress, ← h]

section
variable (busy done : Bool) (e : Engine) (l : List StoredUnit)

theorem advanceCursor_withProgress {s a : State} (hg : advanceCursor s = .goes a) :
    advanceCursor (s.withProgress busy done e l) = .goes (a.withProgress busy done e l) := by
  rcases advanceCursor_cases s with ⟨hf, he⟩ | ⟨hf, hlt, he⟩ | ⟨hf, hcarry, he⟩ <;> rw [he] at hg
  · cases hg
    exact if_pos hf
  · cases hg
    exact (if_neg (Nat.not_lt.2 hf)).trans (if_pos hlt)
  · rcases loadSrcByte_cases { s with row := s.row.moved } with ⟨hok, hl⟩ | ⟨-, hl⟩ | ⟨-, hl⟩ <;>
      rw [hl] at hg <;> cases hg
    exact (if_neg (Nat.not_lt.2 hf)).trans ((if_neg (Nat.not_lt.2 hcarry)).trans (loadSrcByte_of_ok hok))

/-- A performed flush adds its unit to whatever the command has stored (log 8). -/
theorem flushDone_withProgress (s : State) : flushDone (s.withProgress busy done e l) =
    (flushDone s).withProgress busy done e (s.cursorUnit :: l) := by
  rw [flushDone_eq, flushDone_eq, State.withProgress, State.storeBytes_with s s.row]
  rfl

theorem packBit_withProgress {bit : Bool} {s t : State} (hg : packBit bit s = .goes t) :
    ∃ l', packBit bit (s.withProgress busy done e l) = .goes (t.withProgress busy done e l') := by
  rcases packBit_cases bit s with ⟨hfull, hp⟩ | ⟨hw, hp⟩ <;> rw [hp] at hg
  · rcases flushUnit_cases { s with row := s.row.append bit } with ⟨hok, hl⟩ | ⟨-, hl⟩ | ⟨-, hl⟩ <;>
      rw [hl] at hg <;> cases hg
    refine ⟨State.cursorUnit { s with row := s.row.append bit } :: l, ?_⟩
    rw [← flushDone_withProgress]
    exact (if_pos hfull).trans (flushUnit_of_ok hok)
  · cases hg
    exact ⟨l, if_neg hw⟩

/-- A sample step that goes on does so at every progress of the engine (R165). -/
theorem sampleStep_withProgress {s t : State} (hg : sampleStep s = .goes t) :
    ∃ l', sampleStep (s.withProgress busy done e l) = .goes (t.withProgress busy done e l') := by
  obtain ⟨a, b, hadv, hpack, rfl⟩ := sampleStep_eq_goes.1 hg
  obtain ⟨l', hpack'⟩ := packBit_withProgress busy done e l hpack
  exact ⟨l', sampleStep_eq_goes.2 ⟨_, _, advanceCursor_withProgress busy done e l hadv, hpack', rfl⟩⟩

end

/-! ### Chains of sample steps -/

/-- `Samples n s t`: from `s` the active row takes `n` sample steps that go on, to `t`. -/
inductive Samples : Nat → State → State → Prop where
  | none (s : State) : Samples 0 s s
  | more {n : Nat} {s m t : State} (active : s.status.rowActive = true) (step : sampleStep s = .goes m)
      (rest : Samples n m t) : Samples (n + 1) s t

theorem Samples.trans {m n : Nat} {s t u : State} (h : Samples m s t) (k : Samples n t u) : Samples (m + n) s u := by
  induction h with
  | none s => rwa [Nat.zero_add]
  | more active step _ ih =>
    rw [Nat.succ_add]
    exact .more active step (ih k)

theorem SameButRow.latches {s t : State} (h : SameButRow s t) : Spec.SameLatches t.row s.row :=
  ⟨h.rowY, h.srcRowIdx, h.lSrcRow, h.lDstRow, h.lStride, h.lUnit32, h.lScale⟩

/-- A served sound row takes every number of samples that leaves one to take, and stays sound and active (R70, R169). -/
theorem Samples.served {s : State} (hinv : RowInv s.par s.row) (ha : s.status.rowActive = true)
    (hserved : s.RowServed s.row) {n : Nat} (hn : s.row.taken + n < numSamples s.par) :
    ∃ t, Samples n s t ∧ SameButRow s t ∧ t.status = s.status ∧ RowInv t.par t.row ∧
      t.row.taken = s.row.taken + n := by
  induction n with
  | zero => exact ⟨s, .none s, .refl s, rfl, hinv, rfl⟩
  | succ n ih =>
    obtain ⟨m, hsamples, hsame, hst, hinvm, htaken⟩ := ih (by omega)
    obtain ⟨t, hg⟩ := sampleStep_served hinvm (hserved.transfer hsame.platform hsame.par hsame.latches)
    obtain ⟨hsame', -, htaken', ⟨hst', hinv'⟩ | ⟨-, hlast, -⟩⟩ := sampleStep_goes hinvm hg
    · exact ⟨t, hsamples.trans (.more (by rwa [hst]) hg (.none t)), hsame.trans hsame', hst'.trans hst, hinv',
        by rw [htaken', htaken, Nat.add_assoc]⟩
    · rw [hsame.par] at hlast
      omega

/-- The last sample of a served sound row ends it with all its units stored (R169, R184). -/
theorem Samples.served_to_end {s : State} (hinv : RowInv s.par s.row) (ha : s.status.rowActive = true)
    (hserved : s.RowServed s.row) {n : Nat} (hn : s.row.taken + (n + 1) = numSamples s.par) :
    ∃ t, Samples (n + 1) s t ∧ SameButRow s t ∧ t.status = { s.status with rowActive := false } ∧
      t.row.unitIdx.toNat = numUnits s.par s.row.lUnit32 ∧ t.row.wCount = 0 ∧ t.row.acc = 0 := by
  obtain ⟨m, hsamples, hsame, hst, hinvm, htaken⟩ := Samples.served hinv ha hserved (n := n) (by omega)
  obtain ⟨t, hg⟩ := sampleStep_served hinvm (hserved.transfer hsame.platform hsame.par hsame.latches)
  obtain ⟨hsame', -, htaken', ⟨-, hinv'⟩ | ⟨hst', -, hacc, hw, hidx⟩⟩ := sampleStep_goes hinvm hg
  · have hlt := hinv'.taken_lt
    rw [hsame'.par, hsame.par] at hlt
    omega
  · rw [hsame.par, hsame.lUnit32] at hidx
    exact ⟨t, hsamples.trans (.more (by rwa [hst]) hg (.none t)), hsame.trans hsame', by rw [hst', hst], hidx, hw, hacc⟩

/-! ### The loop runs a chain -/

/-- The sample loop takes the samples of a chain one by one (R128, R168, R170). -/
theorem Samples.loop {n : Nat} {s t : State} (h : Samples n s t) (busy done : Bool) (e : Engine)
    (l : List StoredUnit) : ∃ l', continueFor n (loopOrEnd (s.withProgress busy done e l)) =
      loopOrEnd (t.withProgress busy done e l') := by
  induction h generalizing l with
  | none s => exact ⟨l, rfl⟩
  | @more n s m t active step _ ih =>
    obtain ⟨l₁, hstep⟩ := sampleStep_withProgress busy done .sampling l step
    obtain ⟨l₂, hrest⟩ := ih l₁
    refine ⟨l₂, ?_⟩
    have hstart : loopOrEnd (s.withProgress busy done e l) = s.withProgress busy done .sampling l := if_pos active
    rw [hstart, continueFor_succ, continueStep_sampling rfl, loopStep_eq_finish, hstep, Body.finish, ← hrest]
    rfl

/-- A chain that ends its row ends the loop, and the next step completes the command (R127, R184). -/
theorem Samples.completes {n : Nat} {s t : State} (h : Samples n s t) (hend : t.status.rowActive = false) (k : Nat) :
    continueFor (n + (k + 1)) (loopOrEnd s) = Spec.done t := by
  obtain ⟨l, hloop⟩ : ∃ l, continueFor n (loopOrEnd s) =
      loopOrEnd (t.withProgress s.status.busy s.status.done s.engine l) :=
    h.loop s.status.busy s.status.done s.engine s.stored
  rw [continueFor_add, hloop, loopOrEnd, if_neg (by simp [State.withProgress, hend]), continueFor_completing k rfl]
  rfl

/-- ROW_RUN is its setup, the samples of its row, and completion (R170). -/
theorem exec_rowRun_samples {s u t : State} {y : Nat} (hbody : rowSetupBody y s = .goes u)
    (h : Samples (numSamples s.par) u t) (hend : t.status.rowActive = false) :
    exec (.rowRun y) s = .next (Spec.done t) := by
  rw [← h.completes hend 0, exec_eq_continueFor, beginInstr, beginRowRun_eq_finish, hbody, Body.finish]
  rfl

/-- ROW_FINISH is the samples its row has left, and completion, within its bound (R129, R168). -/
theorem exec_rowFinish_samples {n : Nat} {s t : State} (h : Samples (n + 1) s t) (hend : t.status.rowActive = false)
    (hn : n + 1 ≤ numSamples s.par) : exec .rowFinish s = .next (Spec.done t) := by
  obtain ⟨k, hk⟩ := Nat.exists_eq_add_of_le' hn
  cases h with
  | @more _ _ m _ active step rest =>
    have hbegin : beginRowFinish s = loopOrEnd m := by rw [beginRowFinish, if_pos active, loopStep, step]
    rw [exec, execRowFinish, hbegin, hk, ← rest.completes hend k]
    congr 2
    omega

/-! ### ROW_FINISH and ROW_RUN complete their row -/

/-- Settles O41: the row takes the samples it has left, and its last sample ends it. -/
theorem rowFinishCompletesRow : Obligations.RowFinishCompletesRow := by
  intro s ha hinv hserved
  obtain ⟨n, hn⟩ := Nat.exists_eq_add_of_lt hinv.taken_lt
  obtain ⟨t, hsamples, hsame, hst, hidx, hw, hacc⟩ := Samples.served_to_end hinv ha hserved (n := n) (by omega)
  refine ⟨_, exec_rowFinish_samples hsamples (by rw [hst]) (by omega), ?_, rfl, hidx, hw, hacc, hsame.latches,
    hsame.cfg⟩
  rw [Spec.done, hst]

/-- A row that passed its checks and is served is set up, sound, and served from there on (R160, R162). -/
theorem rowSetupBody_served {s : State} {y : Nat} (hp : s.par.wf) (hc : Spec.ChecksPass s.par s.cfg y)
    (hserved : s.RowServed (Spec.setupRow s.par s.cfg y s.row)) :
    rowSetupBody y s = .goes (s.rowStarted y) ∧ RowInv s.par (s.rowStarted y).row ∧
      (s.rowStarted y).RowServed (s.rowStarted y).row := by
  have hchecks := rowChecks_of_checksPass hc
  have hfirst : s.busAnswer .read (Spec.firstSrc s.cfg y) 1 = .ok := by
    rw [← latched_srcAddr hc, RowRegs.srcAddr_eq]
    exact hserved.1 _ (latchRow_inv hp hchecks s.row).curByte
  exact ⟨rowSetupBody_of_ok hc hfirst, State.rowStarted_inv hp hchecks, hserved⟩

theorem rowStarted_taken (s : State) (y : Nat) : (s.rowStarted y).row.taken = 0 := by
  change 0 * _ + 0 = 0
  rw [Nat.zero_mul]

/-- A row has at least one sample (R8, R11). -/
theorem exists_numSamples_eq_succ {p : Params} (hp : p.wf) : ∃ n, numSamples p = n + 1 := by
  have := rowSize_pos hp
  exact ⟨numSamples p - 1, by unfold numSamples; omega⟩

/-- Settles O42: the row that is set up takes all its samples, and the last one ends it. -/
theorem rowRunCompletesRow : Obligations.RowRunCompletesRow := by
  intro s y hp hc hserved
  obtain ⟨hbody, hinv, hserved'⟩ := rowSetupBody_served hp hc hserved
  obtain ⟨n, hn⟩ := exists_numSamples_eq_succ hp
  obtain ⟨t, hsamples, hsame, hst, hidx, hw, hacc⟩ := Samples.served_to_end hinv rfl hserved' (n := n)
    (by rw [rowStarted_taken, Nat.zero_add]; exact hn.symm)
  rw [← hn] at hsamples
  refine ⟨_, exec_rowRun_samples hbody hsamples (by rw [hst]), ?_, rfl, hidx, hw, hacc, hsame.latches, hsame.cfg⟩
  rw [Spec.done, hst]
  rfl

/-! ### A stepped row -/

/-- A chain goes on at every progress of the engine. -/
theorem Samples.withProgress {n : Nat} {s t : State} (h : Samples n s t) (busy done : Bool) (e : Engine)
    (l : List StoredUnit) : ∃ l', Samples n (s.withProgress busy done e l) (t.withProgress busy done e l') := by
  induction h generalizing l with
  | none s => exact ⟨l, .none _⟩
  | more active step _ ih =>
    obtain ⟨l₁, hstep⟩ := sampleStep_withProgress busy done e l step
    obtain ⟨l₂, hrest⟩ := ih l₁
    exact ⟨l₂, .more active hstep hrest⟩

/-- A sample step that goes on is a SAMPLE of the row as the command before it left it, where no access raced (R166). -/
theorem exec_sample_done {s t : State} (hraced : s.raced = []) (ha : s.status.rowActive = true)
    (hg : sampleStep s = .goes t) : exec .sample (Spec.done s) = .next (Spec.done t) := by
  obtain ⟨l, hstep⟩ := sampleStep_withProgress false true .idle [] hg
  rw [done_eq_withProgress hraced]
  rw [exec_sample_goes (by exact ha) hstep]
  rfl

/-- ROW_FINISH of the row as the command before it left it takes the samples that are left (R168). -/
theorem exec_rowFinish_done {n : Nat} {s t : State} (h : Samples (n + 1) s t) (hraced : s.raced = [])
    (hend : t.status.rowActive = false) (hn : n + 1 ≤ numSamples s.par) :
    exec .rowFinish (Spec.done s) = .next (Spec.done t) := by
  obtain ⟨l, hsamples⟩ := h.withProgress false true .idle []
  rw [done_eq_withProgress hraced]
  rw [exec_rowFinish_samples hsamples hend hn]
  rfl

/-- Commands one after another: the first, then the others from the state it leaves. -/
theorem runCommands_cons {i : Instr} {s t : State} (h : exec i s = .next t) (is : List Instr) :
    runCommands (i :: is) s = runCommands is t := by
  rw [runCommands, h]

/-- A chain of `n` sample steps is `n` SAMPLE commands, where no access raced (R166, R186). -/
theorem runCommands_samples {n : Nat} {s t : State} (h : Samples n s t) (hraced : s.raced = []) (is : List Instr) :
    runCommands (List.replicate n .sample ++ is) (Spec.done s) = runCommands is (Spec.done t) := by
  induction h with
  | none s => rfl
  | @more n s m t active step _ ih =>
    have hsame := (sampleStep_confined s).1
    rw [step, Body.state_goes] at hsame
    rw [List.replicate_succ, List.cons_append, runCommands_cons (exec_sample_done hraced active step)]
    exact ih (hsame.raced.trans hraced)

/-- Settles O46: both sides take the chain of the row's NSAMPLES sample steps, in the loop or command by command. -/
theorem steppedRowEqualsRowRun : Obligations.SteppedRowEqualsRowRun := by
  intro s y hp hc hraced hserved
  obtain ⟨hbody, hinv, hserved'⟩ := rowSetupBody_served hp hc hserved
  have hsetup := exec_rowSetup_goes hbody
  have h0 := rowStarted_taken s y
  refine ⟨fun k hk => ?_, ?_⟩
  · obtain ⟨n, hn⟩ := Nat.exists_eq_add_of_lt hk
    rw [Nat.add_assoc] at hn
    obtain ⟨m, hfirst, hsame, hst, hinvm, htaken⟩ := Samples.served hinv rfl hserved' (n := k)
      (by rwa [h0, Nat.zero_add])
    rw [h0, Nat.zero_add] at htaken
    obtain ⟨t, hrest, -, hend, -⟩ := Samples.served_to_end hinvm (by rw [hst]; rfl)
      (hserved'.transfer hsame.platform hsame.par hsame.latches) (n := n) (by rw [htaken, hsame.par]; exact hn.symm)
    have hinactive : t.status.rowActive = false := by rw [hend]
    have hall : Samples (numSamples s.par) (s.rowStarted y) t := by
      rw [hn]
      exact hfirst.trans hrest
    have hle : n + 1 ≤ numSamples m.par := by
      rw [hsame.par]
      exact (Nat.le_add_left _ k).trans_eq hn.symm
    rw [runCommands_cons (exec_rowRun_samples hbody hall hinactive), List.cons_append, runCommands_cons hsetup,
      runCommands_samples hfirst hraced,
      runCommands_cons (exec_rowFinish_done hrest (hsame.raced.trans hraced) hinactive hle)]
  · obtain ⟨n, hn⟩ := exists_numSamples_eq_succ hp
    obtain ⟨t, hall, -, hend, -⟩ := Samples.served_to_end hinv rfl hserved' (n := n)
      (by rw [h0, Nat.zero_add]; exact hn.symm)
    rw [← hn] at hall
    have hinactive : t.status.rowActive = false := by rw [hend]
    rw [runCommands_cons (exec_rowRun_samples hbody hall hinactive), runCommands_cons hsetup,
      ← runCommands_samples hall hraced, List.append_nil]

/-! ### The pixels and bytes of a row -/

/-- Settles O43: the position law of ROW_RUN. -/
theorem rowRunFollowsPositionLaw : Obligations.RowRunFollowsPositionLaw :=
  fun _ _ _ _ hp hwf hraced hc hserved hapart hexec hj => exec_rowRun_pixel hp hwf hraced hc hserved hapart hexec hj

/-- Bytes with the same eight pixels are the same, wherever they stand (R82). -/
theorem read_eq_of_pixels_at {m n : Memory} {base base' : Word} {k k' : Nat}
    (h : ∀ i < 8, Spec.pixel m base (8 * k + i) = Spec.pixel n base' (8 * k' + i)) :
    m.read (base + BitVec.ofNat 32 k) = n.read (base' + BitVec.ofNat 32 k') := by
  have hbit : ∀ (m : Memory) (base : Word) (k : Nat), ∀ i < 8, Spec.pixel m base (8 * k + (7 - i)) =
      (m.read (base + BitVec.ofNat 32 k)).getLsbD i := by
    intro m base k i hi
    have hdiv : (8 * k + (7 - i)) / 8 = k := by omega
    have hmod : 7 - (8 * k + (7 - i)) % 8 = i := by omega
    rw [Spec.pixel, hdiv, hmod]
  refine BitVec.eq_of_getLsbD_eq fun i hi => ?_
  rw [← hbit m base k i hi, ← hbit n base' k' i hi]
  exact h (7 - i) (by omega)

/-- An offset of `8m` whole pixels wraps to `m` whole bytes modulo the row's width (R146). -/
theorem wrapped_wholeBytes {c : ConfigRegs} {m : Int} (hwidth : c.srcWidth.toNat % 8 = 0)
    (hoff : c.offsetFx.toInt = 8 * m * 65536) :
    Spec.wrapped c = 65536 * (8 * (m % (c.srcWidth.toNat / 8 : Nat)).toNat) := by
  have hspan : ((c.srcWidth.toNat * 65536 : Nat) : Int) = 524288 * (c.srcWidth.toNat / 8 : Nat) := by omega
  have hx : c.offsetFx.toInt = 524288 * m := by omega
  rw [Spec.wrapped, hspan, hx, Int.mul_emod_mul_of_pos _ _ (by decide)]
  omega

/-- Wrapping at the row's width first does not matter where `m` lies in it, or where the row has no padding (R172). -/
theorem wrapped_byte_emod {m : Int} {w stride : Nat} (hw : 0 < w) (hm : (0 ≤ m ∧ m < w) ∨ stride = w) (k : Nat) :
    (((m % w).toNat + k : Nat) : Int) % stride = (m + k) % stride := by
  rw [Nat.cast_add, Int.toNat_of_nonneg (Int.emod_nonneg m (by omega))]
  rcases hm with ⟨hlo, hhi⟩ | rfl
  · rw [Int.emod_eq_of_lt hlo hhi]
  · exact Int.emod_add_emod m stride k

/-- At scale 1.0 and an offset of `8m` whole pixels, destination pixel `8k + i` is pixel `i` of source byte
`(m + k) mod L_STRIDE` (R171, R172). -/
theorem position_scaleOne {c : ConfigRegs} {m : Int} {k i : Nat} (hgeom : ¬Spec.GeomBad c)
    (hscale : c.scaleFx = 0x00010000) (hoff : c.offsetFx.toInt = 8 * m * 65536)
    (hm : (0 ≤ m ∧ m < (c.srcWidth.toNat / 8 : Nat)) ∨ c.srcStride.toNat = c.srcWidth.toNat / 8) (hi : i < 8) :
    Spec.position c (8 * k + i) = 8 * ((m + k) % (c.srcStride.toNat : Int)).toNat + i := by
  simp only [not_or, not_not] at hgeom
  obtain ⟨hw0, hw8, -⟩ := hgeom
  have hemod := wrapped_byte_emod (w := c.srcWidth.toNat / 8) (by omega) hm k
  have hwrapped := wrapped_wholeBytes hw8 hoff
  generalize (m % (c.srcWidth.toNat / 8 : Nat)).toNat = b at hemod hwrapped
  have hplace : Spec.wrapped c / 65536 + (Spec.wrapped c % 65536 + (8 * k + i) * c.scaleFx.toNat) / 65536 =
      8 * (b + k) + i := by
    rw [hwrapped, hscale, show (0x00010000 : Word).toNat = 65536 from rfl]
    omega
  have hpixel : (8 * (b + k) + i) % 8 = i := by omega
  have hbyte : (8 * (b + k) + i) / 8 = b + k := by omega
  rw [Spec.position, hplace, Nat.mod_mul, hpixel, hbyte, ← hemod, ← Int.natCast_emod, Int.toNat_natCast, Nat.add_comm]

/-- Settles O44: the eight pixels of the destination byte are those of the source byte, by the position law. -/
theorem scaleOneCopiesBytes : Obligations.ScaleOneCopiesBytes := by
  intro s t y k m hp hwf hraced hc hserved hapart hscale hoff hm hexec hk
  obtain ⟨-, hgeom, -⟩ := id hc
  refine read_eq_of_pixels_at fun i hi => ?_
  have hj : 8 * k + i < numSamples s.par := by
    unfold numSamples
    omega
  rw [exec_rowRun_pixel hp hwf hraced hc hserved hapart hexec hj, position_scaleOne hgeom hscale hoff hm hi]

end Sys2Proof.Machine
end

section
/-! PROOF. The interrupt output as a level of CTRL and STATUS (60_exceptions.md R210). -/

namespace Sys2Proof.Machine

theorem State.irq_of_done {s : State} (h : s.status.done = true) : s.irq = s.cfg.irqEn := by
  rw [State.irq, h, Bool.true_or, Bool.and_true]

theorem State.irq_of_quiet {s : State} (hd : s.status.done = false) (he : s.status.err = false) : s.irq = false := by
  rw [State.irq, hd, he, Bool.or_false, Bool.and_false]

/-- A STATUS write with a one in the bits of DONE and ERR takes the output away. -/
theorem State.clearStatus_irq (s : State) {v : Word} (hd : v.getLsbD 1 = true) (he : v.getLsbD 2 = true) :
    (s.clearStatus v).irq = false :=
  irq_of_quiet (by simp [hd]) (by simp [he])

theorem State.reset_irq : State.reset.irq = false := irq_of_quiet rfl rfl

/-- Settles O17: a command that has ended shows DONE, by the lemma of completion, so only IRQ_EN masks the output. -/
theorem interruptIsALevel : Obligations.InterruptIsALevel := by
  refine ⟨fun _ => rfl, fun s t i hexec hidle => ?_, fun s _ => s.clearStatus_irq, State.reset_irq⟩
  obtain ⟨-, hended⟩ := completionSetsDone
  obtain ⟨-, hdone⟩ := hended s t i hexec hidle
  exact State.irq_of_done hdone

end Sys2Proof.Machine
end

section
/-! PROOF. Reset and races (70_reset_and_hazards.md R230, R240): the registers after a reset, and what an engine access
to a byte the host raced can see or leave. -/

namespace Sys2Proof.Machine

/-! ### Register values and invariants at reset -/

/-- The parameters of the block lie in the ranges of R8 and R9, whatever the platform chooses (D5). -/
theorem params_wf : Config.params.wf := by
  have ofNat_succ : ∀ n : Fin 65535, (BitVec.ofNat 16 (n.val + 1)).toNat = n.val + 1 := fun n => by
    have := n.isLt
    rw [BitVec.toNat_ofNat]
    omega
  constructor
  · exact (ofNat_succ Config.columnsPred).symm ▸ Nat.le_add_left 1 _
  · exact (ofNat_succ Config.rowsPred).symm ▸ Nat.le_add_left 1 _

/-- Settles O20: nothing runs, no row is active, and every count is 0. -/
theorem soundAtReset : Obligations.SoundAtReset where
  params := params_wf
  memory := ⟨.nil, by simp [State.reset]⟩
  errCodeZero := fun _ => rfl
  errCodeMax := Nat.zero_le _
  busy := by decide
  sampling := by decide
  wCount := Nat.zero_le _
  unitIdx := Nat.zero_le _
  quiet := fun _ => ⟨rfl, rfl⟩
  fresh := fun _ _ => rfl
  stored := by simp [State.reset]
  row := fun ha => absurd ha (by decide)

/-- Registers at their reset values read as R230's table says; the identification words are the block's own. -/
theorem State.regValue_of_reset {s : State} (hcfg : s.cfg = ConfigRegs.reset) (hstatus : s.status = Status.reset)
    (hrow : s.row = RowRegs.reset) (r : Reg) : s.regValue r = Spec.resetValue s.par r := by
  cases r with
  | info => exact ofNat_halves s.par.rows s.par.columns
  | _ => simp only [State.regValue, hcfg, hstatus, hrow]; rfl

/-- Settles O18: power-on and reset events leave the same register values, and those read as the table says. -/
theorem resetRegisterValues : Obligations.ResetRegisterValues := by
  refine ⟨⟨State.regValue_of_reset rfl rfl rfl, State.reset_irq, rfl⟩, fun s t mid rest hhost hstep => ?_⟩
  rw [step_due (by simp) hhost] at hstep
  cases hstep
  obtain ⟨hpar, hcfg, hstatus, hrow, hengine, -, -⟩ := resetEvent_fields { s with host := rest } mid
  refine ⟨fun r => ?_, State.irq_of_quiet (congrArg Status.done hstatus) (congrArg Status.err hstatus), hengine⟩
  exact (State.regValue_of_reset hcfg hstatus hrow r).trans (by rw [hpar])

/-! ### Raced accesses -/

/-- A raced read is the byte it started from or one a host write covered. -/
theorem seenByte_cases (cur : Byte) (draws a : Nat) (raced : List Host.Cell) :
    (seenByte cur draws a raced).1 = cur ∨ ∃ c ∈ raced, c.1 = a ∧ (seenByte cur draws a raced).1 = c.2 := by
  induction raced generalizing cur draws with
  | nil => exact .inl rfl
  | cons c cs ih =>
    rw [seenByte]
    split_ifs with ha hdraw
    · rcases ih c.2 (draws + 1) with h | ⟨d, hd, hda, h⟩
      · exact .inr ⟨c, List.mem_cons_self, ha, h⟩
      · exact .inr ⟨d, List.mem_cons_of_mem c hd, hda, h⟩
    · exact .inl rfl
    · rcases ih cur draws with h | ⟨d, hd, hda, h⟩
      · exact .inl h
      · exact .inr ⟨d, List.mem_cons_of_mem c hd, hda, h⟩

/-- Settles O56, by induction on the host's raced writes. -/
theorem racedReadSeesOldOrNew : Obligations.RacedReadSeesOldOrNew := fun s a =>
  seenByte_cases (s.mem.read a) s.draws a.toNat s.raced

/-- A performed store of a byte writes it, or, only where the host raced it, leaves memory alone. -/
theorem State.storeByte_mem_cases (s : State) (a : Word) (v : Byte) :
    (s.storeByte a v).mem = s.mem.write a v ∨ (s.isRaced a = true ∧ (s.storeByte a v).mem = s.mem) := by
  unfold State.storeByte
  cases s.isRaced a with
  | false => exact .inl rfl
  | true => cases drawBit s.draws <;> simp

/-- Settles O57: the engine's value where the store writes, the host's where it does not. -/
theorem racedStoreLeavesEitherValue : Obligations.RacedStoreLeavesEitherValue := by
  refine fun s a v hwf => ⟨?_, fun b hb => s.storeByte_read_ne v hb⟩
  rcases s.storeByte_mem_cases a v with h | ⟨hraced, h⟩ <;> rw [h]
  · exact .inl (Memory.read_write_same hwf a v)
  · exact .inr ⟨hraced, rfl⟩

end Sys2Proof.Machine
end

section
/-! PROOF. What an active row depends on (70_reset_and_hazards.md R231, R237, R241): every step of a row command keeps
the relations of states that agree on what the command reads. This is shown once for all such relations, and each
statement follows by its choice of one. -/

namespace Sys2Proof.Machine

/-! ### Relations of states that every step of a row keeps -/

/-- What the steps of a row read: the state without the configuration, the STATUS bits other than ROW_ACTIVE, the units
stored so far and the host's side. -/
def State.rowView (s : State) : State :=
  { s with
    cfg := ConfigRegs.reset
    status := { Status.reset with rowActive := s.status.rowActive }
    stored := []
    host := []
    reply := .none }

/-- States the steps of a row do not tell apart. -/
abbrev SameView (s t : State) : Prop := s.rowView = t.rowView

section
variable {s t : State} (h : SameView s t)
include h

theorem SameView.par : t.par = s.par := (congrArg State.par h).symm
theorem SameView.rowActive : t.status.rowActive = s.status.rowActive := (congrArg (·.status.rowActive) h).symm
theorem SameView.row : t.row = s.row := (congrArg State.row h).symm
theorem SameView.engine : t.engine = s.engine := (congrArg State.engine h).symm
theorem SameView.mem : t.mem = s.mem := (congrArg State.mem h).symm
theorem SameView.raced : t.raced = s.raced := (congrArg State.raced h).symm
theorem SameView.draws : t.draws = s.draws := (congrArg State.draws h).symm

theorem SameView.busAnswer (kind : BusKind) (a : Word) (n : Nat) : t.busAnswer kind a n = s.busAnswer kind a n :=
  busAnswer_congr (congrArg State.platform h).symm kind a n

theorem SameView.seen (a : Word) : t.seen a = s.seen a := by
  rw [State.seen, h.mem, h.draws, h.raced, State.seen]

theorem SameView.isRaced (a : Word) : t.isRaced a = s.isRaced a := by
  rw [State.isRaced, h.raced, State.isRaced]

theorem SameView.cursorUnit : t.cursorUnit = s.cursorUnit := by
  rw [State.cursorUnit, h.row, h.mem, State.cursorUnit]

end

/-- A relation of states with the same view that every elementary change of the engine keeps. -/
structure RowCongruence (R : State → State → Prop) : Prop where
  view {s t} : R s t → SameView s t
  row {s t} {r q : RowRegs} : r = q → R s t → R { s with row := r } { t with row := q }
  memory {s t} {m n : Memory} {d e : Nat} : m = n → d = e → R s t →
    R { s with mem := m, draws := d } { t with mem := n, draws := e }
  engine {s t} (e : Engine) : R s t → R { s with engine := e } { t with engine := e }
  noteUnit {s t} (u : StoredUnit) : R s t → R (s.noteUnit u) (t.noteUnit u)
  rowEnd {s t} : R s t →
    R { s with status := { s.status with rowActive := false } }
      { t with status := { t.status with rowActive := false } }
  raiseError {s t} (code : ErrCode) : R s t → R (s.raiseError code) (t.raiseError code)
  complete {s t} : R s t → R s.complete t.complete

/-- Two bodies that both go on, or have both ended, in related states. -/
inductive Body.Rel (R : State → State → Prop) : Body → Body → Prop where
  | goes {s t : State} (h : R s t) : Rel R (.goes s) (.goes t)
  | ends {s t : State} (h : R s t) : Rel R (.ends s) (.ends t)

theorem Body.Rel.andThen {R : State → State → Prop} {b c : Body} {f g : State → Body} (h : Body.Rel R b c)
    (hfg : ∀ {s t}, R s t → Body.Rel R (f s) (g t)) : Body.Rel R (b.andThen f) (c.andThen g) := by
  cases h with
  | goes h => exact hfg h
  | ends h => exact .ends h

theorem Body.Rel.finish {R : State → State → Prop} {b c : Body} {f : State → State} (h : Body.Rel R b c)
    (hf : ∀ {s t}, R s t → R (f s) (f t)) : R (b.finish f) (c.finish f) := by
  cases h with
  | goes h => exact hf h
  | ends h => exact h

namespace RowCongruence

variable {R : State → State → Prop} (hR : RowCongruence R) {s t : State}
include hR

theorem raiseBusError (h : R s t) : R s.raiseBusError t.raiseBusError := hR.raiseError .bus (hR.rowEnd h)

theorem storeByte (h : R s t) (a : Word) (b : Byte) : R (s.storeByte a b) (t.storeByte a b) := by
  have v := hR.view h
  unfold State.storeByte
  rw [v.isRaced]
  split
  · exact hR.memory (by rw [v.mem, v.draws]) (by rw [v.draws]) h
  · exact hR.memory (by rw [v.mem]) v.draws.symm h

theorem storeBytes (h : R s t) (a : Word) (bs : List Byte) : R (s.storeBytes a bs) (t.storeBytes a bs) := by
  induction bs generalizing s t a with
  | nil => exact h
  | cons b bs ih => exact ih (hR.storeByte h a b) (a + 1)

theorem scramble (h : R s t) (a : Word) (n : Nat) : R (s.scramble a n) (t.scramble a n) := by
  induction n generalizing s t a with
  | zero => exact h
  | succ n ih =>
    have v := hR.view h
    exact ih (hR.memory (by rw [v.mem, v.draws]) (by rw [v.draws]) h) (a + 1)

/-- A load of the cursor's byte (R164, R165). -/
theorem loadSrcByte (h : R s t) : Body.Rel R (loadSrcByte s) (loadSrcByte t) := by
  have v := hR.view h
  have hanswer : t.busAnswer .read t.row.srcAddr 1 = s.busAnswer .read s.row.srcAddr 1 := by rw [v.row, v.busAnswer]
  unfold Machine.loadSrcByte
  rw [hanswer]
  cases s.busAnswer .read s.row.srcAddr 1 with
  | ok => exact .goes (hR.row (by rw [v.row, v.seen]) (hR.memory v.mem.symm (by rw [v.row, v.mem, v.draws, v.raced]) h))
  | error => exact .ends (hR.raiseBusError h)
  | never => exact .ends (hR.engine _ h)

/-- Step 4a (R165). -/
theorem advanceCursor (h : R s t) : Body.Rel R (advanceCursor s) (advanceCursor t) := by
  unfold Machine.advanceCursor
  rw [(hR.view h).row]
  split_ifs
  · exact .goes h
  · exact .goes (hR.row rfl h)
  · exact hR.loadSrcByte (hR.row rfl h)

theorem rowDoneCheck (h : R s t) : R (rowDoneCheck s) (rowDoneCheck t) := by
  have v := hR.view h
  have hunits : numUnits t.par t.row.lUnit32 = numUnits s.par s.row.lUnit32 := by rw [v.par, v.row]
  unfold Machine.rowDoneCheck
  rw [hunits, show t.row.unitIdx = s.row.unitIdx by rw [v.row]]
  split
  · exact hR.rowEnd h
  · exact h

theorem flushDone (h : R s t) : R (flushDone s) (flushDone t) := by
  unfold Machine.flushDone
  rw [(hR.view h).row, (hR.view h).cursorUnit]
  exact hR.rowDoneCheck (hR.row rfl (hR.storeBytes (hR.noteUnit _ h) _ _))

theorem flushFailed (h : R s t) : R (flushFailed s) (flushFailed t) := by
  have hfree := hR.scramble h s.row.unitAddr s.row.unitBytes
  unfold Machine.flushFailed
  rw [(hR.view h).row, (hR.view h).cursorUnit]
  dsimp only
  rw [(hR.view hfree).mem]
  exact hR.raiseBusError (hR.noteUnit _ hfree)

theorem flushHung (h : R s t) : R (flushHung s) (flushHung t) := by
  have hnoted := hR.noteUnit s.cursorUnit h
  have hdrawn : R (s.noteUnit s.cursorUnit).drawn (t.noteUnit s.cursorUnit).drawn :=
    hR.memory (hR.view hnoted).mem.symm (by rw [(hR.view hnoted).draws]) hnoted
  unfold Machine.flushHung
  rw [(hR.view h).row, (hR.view h).cursorUnit, (hR.view h).draws]
  dsimp only
  split
  · exact hR.engine _ (hR.storeBytes hdrawn _ _)
  · exact hR.engine _ hdrawn

/-- `FlushUnit()` (R182). -/
theorem flushUnit (h : R s t) : Body.Rel R (flushUnit s) (flushUnit t) := by
  unfold Machine.flushUnit
  rw [(hR.view h).row, (hR.view h).busAnswer]
  cases s.busAnswer .write s.row.unitAddr s.row.unitBytes with
  | ok => exact .goes (hR.flushDone h)
  | error => exact .ends (hR.flushFailed h)
  | never => exact .ends (hR.flushHung h)

/-- `PackBit(bit)` (R181). -/
theorem packBit (h : R s t) (bit : Bool) : Body.Rel R (packBit bit s) (packBit bit t) := by
  unfold Machine.packBit
  rw [(hR.view h).row]
  dsimp only
  split
  · exact hR.flushUnit (hR.row rfl h)
  · exact .goes (hR.row rfl h)

/-- `SampleStep()` (R165). -/
theorem sampleStep (h : R s t) : Body.Rel R (sampleStep s) (sampleStep t) := by
  refine (hR.advanceCursor h).andThen fun ha => ?_
  rw [(hR.view ha).row]
  exact (hR.packBit ha _).andThen fun hb => .goes (hR.row (by rw [(hR.view hb).row]) hb)

theorem loopOrEnd (h : R s t) : R (loopOrEnd s) (loopOrEnd t) := by
  unfold Machine.loopOrEnd
  rw [(hR.view h).rowActive]
  split
  · exact hR.engine _ h
  · exact hR.engine _ h

theorem loopStep (h : R s t) : R (loopStep s) (loopStep t) := (hR.sampleStep h).finish hR.loopOrEnd

theorem continueStep (h : R s t) : R (continueStep s) (continueStep t) := by
  unfold Machine.continueStep
  rw [(hR.view h).engine]
  cases s.engine with
  | sampling => exact hR.loopStep h
  | completing c => exact hR.complete h
  | idle | accepted w | hung => exact h

/-- Any number of further steps of a command. -/
theorem continueFor (h : R s t) (n : Nat) : R (continueFor n s) (continueFor n t) := by
  induction n generalizing s t with
  | zero => exact h
  | succ n ih => exact ih (hR.continueStep h)

/-- The first step of SAMPLE or ROW_FINISH (R166, R168). -/
theorem beginInstr {i : Instr} (hi : i = .sample ∨ i = .rowFinish) (h : R s t) :
    R (beginInstr i s) (beginInstr i t) := by
  rcases hi with rfl | rfl
  · change R (beginSample s) (beginSample t)
    unfold beginSample
    rw [(hR.view h).rowActive]
    split
    · exact (hR.sampleStep h).finish (f := State.endBody) (hR.engine _)
    · exact hR.raiseError .noRow h
  · change R (beginRowFinish s) (beginRowFinish t)
    unfold beginRowFinish
    rw [(hR.view h).rowActive]
    split
    · exact hR.loopStep h
    · exact hR.raiseError .noRow h

end RowCongruence

/-- The view itself is kept. -/
theorem sameView_congruence : RowCongruence SameView where
  view h := h
  row := by rintro s t r _ rfl h; exact congrArg (fun v : State => { v with row := r }) h
  memory := by rintro s t m _ d _ rfl rfl h; exact congrArg (fun v : State => { v with mem := m, draws := d }) h
  engine e h := congrArg (fun v : State => { v with engine := e }) h
  noteUnit _ h := h
  rowEnd h := congrArg (fun v : State => { v with status := Status.reset }) h
  raiseError _ h := congrArg (fun v : State => { v with engine := .completing none }) h
  complete h := congrArg (fun v : State => { v with engine := .idle, raced := [] }) h

/-! ### The configuration -/

/-- The second state is the first with the configuration `c`. -/
def DiffersByCfg (c : ConfigRegs) (s t : State) : Prop := t = { s with cfg := c }

theorem differsByCfg_congruence (c : ConfigRegs) : RowCongruence (DiffersByCfg c) where
  view := by rintro s _ rfl; rfl
  row := by rintro s _ r _ rfl rfl; rfl
  memory := by rintro s _ m _ d _ rfl rfl rfl; rfl
  engine e := by rintro rfl; rfl
  noteUnit u := by rintro rfl; rfl
  rowEnd := by rintro s _ rfl; rfl
  raiseError code := by rintro rfl; rfl
  complete := by rintro s _ rfl; rfl

/-- Settles O50: every step of an active row keeps the relation of differing by the configuration only. -/
theorem activeRowIgnoresConfiguration : Obligations.ActiveRowIgnoresConfiguration := by
  intro s t c i hi hexec
  have hc := differsByCfg_congruence c
  rw [exec_eq_continueFor] at hexec ⊢
  cases hexec
  exact congrArg Host.Outcome.next (hc.continueFor (hc.beginInstr hi rfl) _)

/-! ### An older row -/

/-- A ROW_RUN whose setup ends its body leaves memory as it was (R160, R163, R164). -/
theorem exec_rowRun_mem_of_ends {s t v : State} {y : Nat} (hbody : rowSetupBody y s = .ends t)
    (hexec : exec (.rowRun y) s = .next v) : v.mem = s.mem := by
  have hmem : t.mem = s.mem := by
    have := (rowSetupBody_cfg_mem y s).2
    rwa [hbody] at this
  rw [exec_eq_continueFor, beginInstr, beginRowRun_eq_finish, hbody] at hexec
  cases hexec
  rcases continueFor_ended (stepBound s.par (.rowRun y) - 1) (rowSetupBody_ended hbody) with h | h <;>
    rw [Body.finish, h]
  · exact hmem
  · exact hmem

/-- The setup of row `y` passes its checks and its read is performed (R160, R162, R164). -/
def State.SetupGoes (s : State) (y : Nat) : Prop :=
  rowChecks s.par s.cfg y = none ∧ s.busAnswer .read (s.latched y).row.srcAddr 1 = .ok

/-- Where a setup goes on the row is started, and everything else ends the body. -/
theorem rowSetupBody_goes_or_ends (y : Nat) (s : State) :
    (s.SetupGoes y ∧ rowSetupBody y s = .goes (s.rowStarted y)) ∨
      (¬s.SetupGoes y ∧ ∃ t, rowSetupBody y s = .ends t) := by
  unfold State.SetupGoes
  rcases rowSetupBody_cases y s with ⟨code, hc, h⟩ | ⟨hc, ⟨ha, h⟩ | ⟨ha, h⟩ | ⟨ha, h⟩⟩
  · exact .inr ⟨by simp [hc], _, h⟩
  · exact .inl ⟨⟨hc, ha⟩, h⟩
  · exact .inr ⟨by simp [ha], _, h⟩
  · exact .inr ⟨by simp [ha], _, h⟩

section
variable {s u : State} (hpar : s.par = u.par) (hcfg : s.cfg = u.cfg) (hplatform : s.platform = u.platform)
include hpar hcfg hplatform

/-- Whether a setup goes on does not depend on an older row (R160, R162). -/
theorem setupGoes_congr (y : Nat) : s.SetupGoes y ↔ u.SetupGoes y := by
  have hsrc : (s.latched y).row.srcAddr = (u.latched y).row.srcAddr := by
    change (latchRow s.par s.cfg y u.row).srcAddr = _
    rw [hpar, hcfg]
    rfl
  rw [State.SetupGoes, hsrc, hpar, hcfg, busAnswer_congr hplatform, State.SetupGoes]

/-- The setup and the load of SRC_BYTE overwrite all of an older row, so the loop starts in the same view (R160). -/
theorem rowStarted_sameView (hmem : s.mem = u.mem) (hraced : s.raced = u.raced) (hdraws : s.draws = u.draws) (y : Nat) :
    SameView (loopOrEnd (s.rowStarted y)) (loopOrEnd (u.rowStarted y)) := by
  obtain ⟨⟩ := s
  obtain ⟨⟩ := u
  subst hpar hcfg hplatform hmem hraced hdraws
  rfl

end

/-- Settles O51: either both setups end, with nothing stored, or both loops run in the same view. -/
theorem rowsAreIndependent : Obligations.RowsAreIndependent := by
  intro s u t v y hpar hcfg hmem hplatform hraced hdraws hs hu
  have hgoes := setupGoes_congr hpar hcfg hplatform y
  rcases rowSetupBody_goes_or_ends y s with ⟨hsg, hbs⟩ | ⟨hsg, a, hbs⟩ <;>
    rcases rowSetupBody_goes_or_ends y u with ⟨hug, hbu⟩ | ⟨hug, b, hbu⟩
  · have hstart := rowStarted_sameView hpar hcfg hplatform hmem hraced hdraws y
    rw [exec_eq_continueFor, beginInstr, beginRowRun_eq_finish, hbs, hpar] at hs
    rw [exec_eq_continueFor, beginInstr, beginRowRun_eq_finish, hbu] at hu
    cases hs
    cases hu
    exact (sameView_congruence.continueFor hstart _).mem.symm
  · exact absurd (hgoes.1 hsg) hug
  · exact absurd (hgoes.2 hug) hsg
  · rw [exec_rowRun_mem_of_ends hbs hs, exec_rowRun_mem_of_ends hbu hu, hmem]

/-! ### A reset that falls into an engine step -/

/-- A flush adds its unit to what the command has stored, whatever the platform answers (log 8). -/
theorem flushUnit_stored (s : State) : ∃ u, (flushUnit s).state.stored = u :: s.stored := by
  rcases flushUnit_cases s with ⟨-, h⟩ | ⟨-, h⟩ | ⟨-, h⟩ <;> rw [h]
  · exact ⟨_, flushDone_stored s⟩
  · exact flushFailed_stored s
  · exact ⟨_, flushHung_stored s⟩

/-- A sample that fills its unit stores it (R165, R181). -/
theorem sampleStep_stored_of_fills {s a : State} (ha : advanceCursor s = .goes a)
    (hfull : a.row.wCount.toNat + 1 = a.row.unitBits) : ∃ u, (sampleStep s).state.stored = u :: s.stored := by
  have hsample : (sampleStep s).state.stored = (packBit a.row.srcBit a).state.stored := by
    unfold sampleStep
    rw [ha, Body.andThen_goes]
    cases packBit a.row.srcBit a <;> rfl
  have hstored : a.stored = s.stored := by
    have := advanceCursor_stored s
    rwa [ha] at this
  rw [hsample, ← hstored]
  rcases packBit_cases a.row.srcBit a with ⟨-, h⟩ | ⟨hne, -⟩
  · rw [h]
    exact flushUnit_stored _
  · exact absurd ((wCount_succ_eq_unitBits _ _).2 hfull) hne

theorem Body.finish_stored {f : State → State} (hf : ∀ t, (f t).stored = t.stored) (b : Body) :
    (b.finish f).stored = b.state.stored := by
  cases b with
  | goes t => exact hf t
  | ends t => rfl

theorem loopStep_stored (s : State) : (loopStep s).stored = (sampleStep s).state.stored := by
  refine Body.finish_stored (fun t => ?_) (sampleStep s)
  obtain ⟨e, he⟩ := loopOrEnd_state t
  rw [he]

/-- The engine's next step stores what its sample step does, where it performs one (R128). -/
theorem engineStep_stored_of_willSample {s : State} (h : s.willSample = true) :
    (engineStep s).stored = (sampleStep s).state.stored := by
  simp only [State.willSample, Bool.and_eq_true, Bool.or_eq_true, decide_eq_true_eq] at h
  obtain ⟨hactive, (he | he) | he⟩ := h
  · rw [engineStep_eq_continueStep (by simp [he]), continueStep_sampling he, loopStep_stored]
  · obtain ⟨w, hw, hd⟩ := Engine.pending_eq_some he
    rw [engineStep_accepted hw, dispatchWord, hd]
    change (beginSample s).stored = _
    rw [beginSample, if_pos hactive]
    exact Body.finish_stored State.endBody_stored (sampleStep s)
  · obtain ⟨w, hw, hd⟩ := Engine.pending_eq_some he
    rw [engineStep_accepted hw, dispatchWord, hd]
    change (beginRowFinish s).stored = _
    rw [beginRowFinish, if_pos hactive, loopStep_stored]

/-- An engine step that is to store a full unit adds one to what the command has stored. -/
theorem engineStep_stored_of_willStore {s : State} (h : s.willStore = true) :
    ∃ u, (engineStep s).stored = u :: s.stored := by
  rw [State.willStore, Bool.and_eq_true] at h
  obtain ⟨hsample, hfull⟩ := h
  rw [engineStep_stored_of_willSample hsample]
  cases ha : advanceCursor s with
  | goes a =>
    rw [ha] at hfull
    exact sampleStep_stored_of_fills ha (of_decide_eq_true hfull)
  | ends a =>
    rw [ha] at hfull
    cases hfull

/-- Whether the next step stores does not depend on what a row's steps do not read. -/
theorem SameView.willStore {s t : State} (h : SameView s t) : t.willStore = s.willStore := by
  have hadv := sameView_congruence.advanceCursor h
  unfold State.willStore State.willSample
  rw [h.rowActive, h.engine]
  generalize advanceCursor s = b at hadv ⊢
  generalize advanceCursor t = c at hadv ⊢
  cases hadv with
  | goes ha =>
    dsimp only
    rw [ha.row]
  | ends _ => rfl

/-- A reset changes memory only where it cuts off a store (R231, R232). -/
theorem State.resetEvent_mem (s : State) (mid : Bool) :
    (s.resetEvent mid).mem =
      if s.storeInFlight mid then (s.scramble s.row.unitAddr s.row.unitBytes).mem else s.mem := by
  unfold State.resetEvent
  split <;> rfl

theorem State.resetEvent_mem_of_not_inFlight {s : State} {mid : Bool} (h : s.storeInFlight mid = false) :
    (s.resetEvent mid).mem = s.mem := by
  rw [State.resetEvent_mem, h, if_neg Bool.false_ne_true]

/-- A reset leaves every byte outside the unit at the write cursor as it was (R231). -/
theorem State.resetEvent_read_ne (s : State) (mid : Bool) {a : Word}
    (h : ∀ k < s.row.unitBytes, a ≠ s.row.unitAddr + BitVec.ofNat 32 k) :
    (s.resetEvent mid).mem.read a = s.mem.read a := by
  rw [State.resetEvent_mem]
  split
  · exact State.scramble_read_ne s _ a _ h
  · rfl

/-- Settles O19: a reset cuts off a store only where the engine step it falls into would add a unit, or where the engine
waits with a full unit. -/
theorem resetAbandonsCommand : Obligations.ResetAbandonsCommand := by
  intro s mid rest hhost
  obtain ⟨hpar, hcfg, hstatus, hrow, hengine, hrest, -⟩ := resetEvent_fields { s with host := rest } mid
  refine ⟨_, step_due (by simp) hhost, hcfg, hstatus, hrow, hengine, hpar, hrest, rfl, rfl, fun hrun hno => ?_,
    fun hhung hw => ?_, fun a ha => State.resetEvent_read_ne { s with host := rest } mid ha⟩
  · refine State.resetEvent_mem_of_not_inFlight ((if_neg hrun).trans ?_)
    rcases hno with rfl | hno
    · rfl
    · have hstore : ¬s.willStore = true := fun h =>
        have ⟨u, hu⟩ := engineStep_stored_of_willStore h
        hno u hu
      have hsame : State.willStore { s with host := rest } = s.willStore := SameView.willStore (s := s) rfl
      rw [hsame, Bool.eq_false_of_not_eq_true hstore, Bool.and_false]
  · exact State.resetEvent_mem_of_not_inFlight ((if_pos hhung).trans (decide_eq_false hw))

end Sys2Proof.Machine
end
